-- ==== Sys2Proof/Word.lean ====
section
/-! DEFINITION. The bit vectors of the TXU: the widths of its registers and of its command word (spec/10_state.md R20,
R30, R36; spec/30_encoding.md R80, R91). -/

namespace Sys2Proof

/-- An 80-bit image: the content of `A`, `B` or `R` (R20, R27 to R29). -/
abbrev Image := BitVec 80

/-- A set of flags in the order of `CTX.FLAGS`, bit 0 IE to bit 5 PE (R33). -/
abbrev FlagSet := BitVec 6

/-- The three quotient bits of `Q` (R36). -/
abbrev QuotBits := BitVec 3

/-- The 4-bit command word `OP` (R80). -/
abbrev Code := BitVec 4

/-- A byte: of a command listing (R91), or of an image a host stores in memory (R61). -/
abbrev Byte := BitVec 8

end Sys2Proof
end

