-- ==== Sys2Proof/Machine/Rational.lean ====
section
/-! DEFINITION. Exact rationals and the integer functions of spec/00_scope.md R10 and R11. -/

namespace Sys2Proof.Machine

/-- `2^e` for an integer `e`. -/
def pow2 : Int → Rat
  | .ofNat n => ((2 ^ n : Nat) : Rat)
  | .negSucc n => mkRat 1 (2 ^ (n + 1))

/-- `|q|`. -/
def absQ (q : Rat) : Rat :=
  if q < 0 then -q else q

/-- `sgn(q)` of R11, as a sign bit. -/
def sgnQ (q : Rat) : Bool :=
  decide (q < 0)

/-- `(-1)^s * q`. -/
def applySign (s : Bool) (q : Rat) : Rat :=
  if s then -q else q

/-- `trunc(q)` of R11: rounding toward zero. -/
def truncQ (q : Rat) : Int :=
  if q < 0 then -(-q).floor else q.floor

/-- `rne(q)` of R11: the nearest integer, the even one when `q` is halfway. -/
def rneQ (q : Rat) : Int :=
  let f := q.floor
  let d := q - f
  if d < 1 / 2 then f else if 1 / 2 < d then f + 1 else if f % 2 = 0 then f else f + 1

/-- `ilog2(v)` of R11 for a nonzero `v`: the `e` with `2^e <= |v| < 2^(e+1)`. The logarithms of the numerator and of the
denominator leave two candidates. -/
def ilog2 (v : Rat) : Int :=
  let e : Int := (v.num.natAbs.log2 : Int) - (v.den.log2 : Int)
  if pow2 e ≤ absQ v then e else e - 1

/-- The integer `k` with `v = 2^k`, if there is one (R230). -/
def log2Exact (v : Rat) : Option Int :=
  if v = pow2 (ilog2 v) then some (ilog2 v) else none

end Sys2Proof.Machine
end

