-- ==== Sys2Proof/Config.lean ====
section
/-! DEFINITION. What an implementation fixes (spec/00_scope.md R8) and the free values. The parameters that have a default
are plain data (`Params`, held in State); the kernels, the domain bound, the accuracy bounds, the rest of the constant ROM
(ln 2 and the coefficient tables) and the free draws have no value in the spec and are opaque constants. -/

namespace Sys2Proof

/-- `BYTE_ORDER` (R8, R61): the order in which a host serialises an image; no rule of the block uses it. -/
inductive ByteOrder where
  | little
  | big
  deriving DecidableEq, Repr

/-- The parameters of R8 that have a default, but for `W_SIG`, which belongs to the coefficient tables (`Rom`). -/
structure Params where
  /-- `T`, REDUCE_THRESHOLD -/
  threshold : Nat
  /-- `S`, PARTIAL_STEP -/
  partialStep : Nat
  /-- `CONST_PI`, the stored value of pi -/
  constPi : Rat
  /-- `DEFAULT_NAN` -/
  defaultNan : Image
  /-- `BYTE_ORDER` -/
  byteOrder : ByteOrder := .little
  /-- `N_TXU`, the number of instances of the system -/
  nTxu : Nat := 1
  deriving DecidableEq, Repr

/-- The stored pi of two 64-bit limbs, leading and trailing, scaled by `2^-126` (R151). -/
def Params.piOfLimbs (leading trailing : BitVec 64) : Rat :=
  mkRat (leading.toNat * 2 ^ 64 + trailing.toNat) (2 ^ 126)

/-- The defaults of R8 (and R61, R121, R151, R340). -/
def Params.default : Params where
  threshold := 64
  partialStep := 32
  constPi := Params.piOfLimbs 0xC90FDAA22168C234#64 0xC4C6628B80DC1CD1#64
  defaultNan := 0xFFFFC000000000000000#80
  byteOrder := .little
  nTxu := 1

/-- A value of the working format `W` (R157): zero, or a significand of exactly `wSig` bits times a power of two. Scaled
so that its leading bit has the weight `2^(wSig - 1)`, such a value is an integer. -/
def isW (wSig : Nat) (v : Rat) : Bool :=
  v == 0 || (v / Machine.pow2 (Machine.ilog2 v - (wSig - 1))).den == 1

/-- A coefficient table (R156, R158): at least one entry, each a `W` value. -/
def isTable (wSig : Nat) (c : List Rat) : Bool :=
  !c.isEmpty && c.all (isW wSig)

/-- The part of the constant ROM whose values the spec leaves open (R37, R150, R153, R158): ln 2 and the coefficient
tables, with the width of their format. `CONST_PI` is in `Params`; zero and one are the images of R154. The defaults only
show that a ROM exists. -/
structure Rom where
  /-- `CONST_LN2` (R153) -/
  constLn2 : Rat := 0
  /-- `W_SIG` (R8, R157) -/
  wSig : Nat := 113
  /-- `COEF_SIN` -/
  coefSin : List Rat := [0]
  /-- `COEF_COS` -/
  coefCos : List Rat := [0]
  /-- the table of `K_ATAN` -/
  coefAtan : List Rat := [0]
  /-- the table of `K_2XM1` -/
  coef2xm1 : List Rat := [0]
  /-- the table of `K_LOG2` -/
  coefLog2 : List Rat := [0]
  /-- the table of `K_LOG2P1` -/
  coefLog2p1 : List Rat := [0]
  wSig_ge : 64 ≤ wSig := by decide
  coefSin_table : isTable wSig coefSin = true := by rfl
  coefCos_table : isTable wSig coefCos = true := by rfl
  coefAtan_table : isTable wSig coefAtan = true := by rfl
  coef2xm1_table : isTable wSig coef2xm1 = true := by rfl
  coefLog2_table : isTable wSig coefLog2 = true := by rfl
  coefLog2p1_table : isTable wSig coefLog2p1 = true := by rfl
  deriving Inhabited

/-- The evaluation kernels, and the bound of the one partial kernel, as plain functions of exact rationals (R159). The
three whose laws speak of `CONST_PI` take it as their first argument, since a kernel's value depends on its arguments and
the ROM contents (log entry 3). -/
structure KernelFns where
  /-- `K_SIN(r)`, R160 -/
  kSin : Rat → Rat → Rat := fun _ r => r / 2
  /-- `K_COS(r)`, R161 -/
  kCos : Rat → Rat → Rat := fun _ _ => 1
  /-- `K_ATAN(u, w)`, R162 -/
  kAtan : Rat → Rat → Rat → Rat := fun pi _ _ => pi / 4
  /-- `K_2XM1(x)`, R163 -/
  k2xm1 : Rat → Rat := fun x => if 0 < x then 1 else -1
  /-- `K_LOG2(x)`, R164 -/
  kLog2 : Rat → Rat := fun x => if 1 < x then 1 else -1
  /-- `K_LOG2P1(x)`, R165 -/
  kLog2p1 : Rat → Rat := fun x => x
  /-- `B_L2P1`, the bound of the FYL2XP1 domain, R233 -/
  log2p1Bound : Rat := 1 / 4

/-- Kernels with the laws of R160 to R165, each on its rule's domain (`K_LOG2`: no power of two, R164), and the constraint
on `B_L2P1` (R8, R233): the only facts a proof may use of them. The defaults inherited from `KernelFns` only show that
lawful kernels exist; the machine's kernels are `Config.kernels`. -/
structure Kernels extends KernelFns where
  kSin_zero : ∀ pi, kSin pi 0 = 0 := by intros; simp
  kSin_neg : ∀ pi r, 2 < pi → pi < 4 → -(pi / 4) ≤ r → r ≤ pi / 4 → kSin pi (-r) = -kSin pi r := by
    intros; ring
  kSin_pos : ∀ pi r, 2 < pi → pi < 4 → 0 < r → r ≤ pi / 4 → 0 < kSin pi r := by
    intros; linarith
  kSin_lt_one : ∀ pi r, 2 < pi → pi < 4 → 0 < r → r ≤ pi / 4 → kSin pi r < 1 := by
    intros; linarith
  kCos_zero : ∀ pi, kCos pi 0 = 1 := by intros; rfl
  kCos_neg : ∀ pi r, 2 < pi → pi < 4 → -(pi / 4) ≤ r → r ≤ pi / 4 → kCos pi (-r) = kCos pi r := by
    intros; rfl
  kCos_gt_half : ∀ pi r, 2 < pi → pi < 4 → -(pi / 4) ≤ r → r ≤ pi / 4 → 1 / 2 < kCos pi r := by
    intros; norm_num
  kCos_le_one : ∀ pi r, 2 < pi → pi < 4 → -(pi / 4) ≤ r → r ≤ pi / 4 → kCos pi r ≤ 1 := by
    intros; norm_num
  kAtan_pos : ∀ pi u w, 2 < pi → pi < 4 → 0 < u → u ≤ w → 0 < kAtan pi u w := by
    intros; linarith
  kAtan_le : ∀ pi u w, 2 < pi → pi < 4 → 0 < u → u ≤ w → kAtan pi u w ≤ pi / 4 := by
    intros; linarith
  k2xm1_pos : ∀ x, 0 < x → 0 < k2xm1 x := by
    intro x h; simp [h]
  k2xm1_neg : ∀ x, x < 0 → k2xm1 x < 0 := by
    intro x h; simp [not_lt.mpr h.le]
  k2xm1_ge : ∀ x, x < 0 → -1 ≤ k2xm1 x := by
    intro x h; simp [not_lt.mpr h.le]
  kLog2_pos : ∀ x, 1 < x → (∀ k : ℤ, x ≠ (2 : ℚ) ^ k) → 0 < kLog2 x := by
    intro x h _; simp [h]
  kLog2_neg : ∀ x, 0 < x → x < 1 → (∀ k : ℤ, x ≠ (2 : ℚ) ^ k) → kLog2 x < 0 := by
    intro x _ h _; simp [not_lt.mpr h.le]
  kLog2p1_pos : ∀ x, 0 < x → x ≤ log2p1Bound → 0 < kLog2p1 x := by
    intro x h _; exact h
  kLog2p1_neg : ∀ x, x < 0 → -log2p1Bound ≤ x → kLog2p1 x < 0 := by
    intro x h _; exact h
  log2p1Bound_pos : 0 < log2p1Bound := by norm_num
  log2p1Bound_lt_half : log2p1Bound < 1 / 2 := by norm_num
  deriving Inhabited

/-- The accuracy bounds of R8 and R166 that the source leaves open; `ULP_2XM1 = 1` is fixed by the source. -/
structure UlpBounds where
  ulpSin : Nat := 1
  ulpCos : Nat := 1
  ulpTan : Nat := 1
  ulpAtan : Nat := 1
  ulpL2 : Nat := 1
  ulpL2p1 : Nat := 1
  ulpSin_pos : 0 < ulpSin := by decide
  ulpCos_pos : 0 < ulpCos := by decide
  ulpTan_pos : 0 < ulpTan := by decide
  ulpAtan_pos : 0 < ulpAtan := by decide
  ulpL2_pos : 0 < ulpL2 := by decide
  ulpL2p1_pos : 0 < ulpL2p1 := by decide
  deriving Inhabited

/-- The kernels and the domain bound of the machine: uninterpreted, known only by their laws (R159; log entry 3). -/
opaque Config.kernels : Kernels

/-- `ULP_*` of the machine (R166; log entry 3). -/
opaque Config.ulpBounds : UlpBounds

/-- The open part of the constant ROM: one for all instances (R37, R340), written by nothing, seen only through the
kernels (log entry 4). -/
opaque Config.rom : Rom

/-- The image written by the n-th execution, on the instance of the given stream, whose result the spec leaves undefined
(R225, R236; log entry 5). -/
opaque Config.freeImage : (stream n : Nat) → Image

/-- The flags added by the n-th execution, on the instance of the given stream, whose result the spec leaves undefined
(R225, R236; log entry 5). -/
opaque Config.freeFlags : (stream n : Nat) → FlagSet

end Sys2Proof
end

