-- ==== Sys2Proof/HostSyntax.lean ====
section
/-! DEFINITION. The host's operations on one instance (spec/30_encoding.md R90): they are not commands of the block, they
are what stands between commands. -/

namespace Sys2Proof

/-- The registers a host can read: `RDA`, `RDB`, `RDR`, `RDCTX`, `RDCC`, `RDQ` (R90). -/
inductive HostReg where
  | a
  | b
  | r
  | ctx
  | cc
  | q
  deriving DecidableEq, Repr

/-- One operation of the host (R90). `issue` and `reduce` name the command by its listing byte (R91). -/
inductive HostOp where
  /-- `WRA v` -/
  | wrA (v : Image)
  /-- `WRB v` -/
  | wrB (v : Image)
  /-- `WRCTX rc, pc, flags` -/
  | wrCtx (rc pc : BitVec 2) (flags : FlagSet)
  /-- `WRFLAGS flags`; `CLRF` is `WRFLAGS 0` -/
  | wrFlags (flags : FlagSet)
  /-- `RDA` to `RDQ` -/
  | rd (reg : HostReg)
  /-- `MOVAR`: `RDR`, then `WRA` of the value read -/
  | movAR
  /-- `MOVBR`: `RDR`, then `WRB` of the value read -/
  | movBR
  /-- issue the command whose listing byte this is -/
  | issue (byte : Byte)
  /-- `REDUCE`: issue the command; while `CC` is PartialReductionNeeded, issue it again -/
  | reduce (byte : Byte)
  deriving DecidableEq, Repr

/-- `CLRF` (R90). -/
abbrev HostOp.clrF : HostOp := .wrFlags 0

end Sys2Proof
end

