-- ==== Sys2Proof/Syntax.lean ====
section
/-! DEFINITION. The twelve commands (spec/30_encoding.md R82), one constructor per row of spec/opcode_table.json. No
command has an operand field of any kind (R80, R86), so every constructor is a plain name. -/

namespace Sys2Proof

/-- The commands of the TXU, in the order of the opcode map of R82. -/
inductive Instr where
  | abs
  | negate
  | remIeee
  | remLegacy
  | f2xm1
  | fyl2x
  | fyl2xp1
  | fpatan
  | fsin
  | fcos
  | ftan
  | fsincos
  deriving DecidableEq, Repr

end Sys2Proof
end

