-- ==== Sys2Proof/WellFormed.lean ====
section
/-! DEFINITION. The checks on terms: a command has none to fail (spec/30_encoding.md R85, R86), the parameters have the
constraints of spec/00_scope.md R8, and the retry loop names one of the six commands of R90. -/

namespace Sys2Proof

/-- Every command is well formed: a command word has no operand field, and no operand value is reserved (R85, R86). -/
def Instr.wf : Instr → Bool
  | .abs | .negate | .remIeee | .remLegacy | .f2xm1 | .fyl2x | .fyl2xp1 | .fpatan | .fsin | .fcos | .ftan
  | .fsincos => true

/-- The six commands that write `CC` (R35), which are those a retry loop may name (R90). -/
def Instr.writesCC : Instr → Bool
  | .remIeee | .remLegacy | .fsin | .fcos | .ftan | .fsincos => true
  | .abs | .negate | .f2xm1 | .fyl2x | .fyl2xp1 | .fpatan => false

/-- The image is a quiet NaN (R25): exponent all ones, bits 63 and 62 set. -/
def Image.isQuietNan (x : Image) : Bool :=
  x.extractLsb' 64 15 == 0x7FFF#15 && x.getLsbD 63 && x.getLsbD 62

/-- `1 <= S <= T - 2`, `T >= 3` (R8). -/
def Params.stepsLegal (p : Params) : Bool :=
  decide (3 ≤ p.threshold) && decide (1 ≤ p.partialStep) && decide (p.partialStep + 2 ≤ p.threshold)

/-- `CONST_PI` is a dyadic rational between 2 and 4 (R8, R151). -/
def Params.piLegal (p : Params) : Bool :=
  decide (2 < p.constPi) && decide (p.constPi < 4) && p.constPi.den == 2 ^ p.constPi.den.log2

/-- `DEFAULT_NAN` is a quiet NaN encoding (R8). -/
def Params.nanLegal (p : Params) : Bool :=
  Image.isQuietNan p.defaultNan

/-- `N_TXU >= 1` (R8, R340). -/
def Params.countLegal (p : Params) : Bool :=
  decide (1 ≤ p.nTxu)

/-- The constraints of R8 on the parameters that have a default (`W_SIG >= 64` is a field of `Rom`). -/
def Params.legal (p : Params) : Bool :=
  p.stepsLegal && p.piLegal && p.nanLegal && p.countLegal

end Sys2Proof
end

