-- ==== Sys2Proof/Decode.lean ====
section
/-! DEFINITION. Decoding and encoding: the command map of spec/30_encoding.md R82, the reserved codes of R84, the listing
byte of R91. The decoder is total and rejects by name. -/

namespace Sys2Proof

/-- Why a command word is rejected. -/
inductive DecodeReject where
  /-- `OP` is one of `0xC` to `0xF` (R84). -/
  | reservedCode (op : Code)
  /-- The high nibble of a listing byte is not zero (R91). -/
  | badListingByte (byte : Byte)
  deriving DecidableEq, Repr

/-- What the decoder answers. -/
inductive Decoded where
  | instr (i : Instr)
  | rejected (why : DecodeReject)
  deriving DecidableEq, Repr

/-- The command decoded, if there is one. -/
def Decoded.instr? : Decoded → Option Instr
  | .instr i => some i
  | .rejected _ => none

/-- The command map of R82, total on the 16 values of `OP` (R81), with R84's four reserved values. -/
def decodeCode (op : Code) : Decoded :=
  match op.toNat with
  | 0x0 => .instr .abs
  | 0x1 => .instr .negate
  | 0x2 => .instr .remIeee
  | 0x3 => .instr .remLegacy
  | 0x4 => .instr .f2xm1
  | 0x5 => .instr .fyl2x
  | 0x6 => .instr .fyl2xp1
  | 0x7 => .instr .fpatan
  | 0x8 => .instr .fsin
  | 0x9 => .instr .fcos
  | 0xA => .instr .ftan
  | 0xB => .instr .fsincos
  | _ => .rejected (.reservedCode op)

/-- A listing byte holds the code in its low nibble and zero in its high nibble (R91). -/
def decode (byte : Byte) : Decoded :=
  if byte.extractLsb' 4 4 = 0#4 then decodeCode (byte.extractLsb' 0 4) else .rejected (.badListingByte byte)

/-- The command a byte list begins with, and the bytes after it: a command stream has one byte a command (R91). -/
def decodeStream : List Byte → Option (Decoded × List Byte)
  | [] => none
  | byte :: rest => some (decode byte, rest)

/-- The command code of R82. -/
def Instr.code : Instr → Code
  | .abs => 0x0#4
  | .negate => 0x1#4
  | .remIeee => 0x2#4
  | .remLegacy => 0x3#4
  | .f2xm1 => 0x4#4
  | .fyl2x => 0x5#4
  | .fyl2xp1 => 0x6#4
  | .fpatan => 0x7#4
  | .fsin => 0x8#4
  | .fcos => 0x9#4
  | .ftan => 0xA#4
  | .fsincos => 0xB#4

/-- The listing byte of a command (R91). -/
def encode (i : Instr) : Byte :=
  0#4 ++ i.code

/-- The command the decoder reads from a table row's bits `w`: the row's word is one nibble, laid out as one listing
byte (R91). -/
def decodeTableWord (nbits w : Nat) : Option Instr :=
  if w < 2 ^ nbits ∧ w < 2 ^ 8 then (decode (BitVec.ofNat 8 w)).instr? else none

/-- The retry loop of R90 names a command that writes `CC`; every other host operation is well formed as it stands. -/
def HostOp.wf : HostOp → Bool
  | .wrA _ | .wrB _ | .wrCtx _ _ _ | .wrFlags _ | .rd _ | .movAR | .movBR | .issue _ => true
  | .reduce byte =>
    match decode byte with
    | .instr i => i.writesCC
    | .rejected _ => false

end Sys2Proof
end

