-- ==== Sys2Proof/Machine/Operands.lean ====
section
/-! DEFINITION. The float80 format (spec/10_state.md R20 to R26), the operand functions of spec/40_float80_utils.md
(R110, R111, R115, R116) and the constants of R154. -/

namespace Sys2Proof.Machine

/-- `sign(x) = x[79]` (R20). -/
def signBit (x : Image) : Bool :=
  x.getLsbD 79

/-- `exp(x) = x[78:64]` (R20). -/
def expField (x : Image) : BitVec 15 :=
  x.extractLsb' 64 15

/-- `sig(x) = x[63:0]` (R20). -/
def sigField (x : Image) : BitVec 64 :=
  x.extractLsb' 0 64

/-- The explicit integer bit `x[63]` (R20). -/
def integerBit (x : Image) : Bool :=
  x.getLsbD 63

/-- The bit `x[62]` that is set in a quiet NaN (R25). -/
def quietBit (x : Image) : Bool :=
  x.getLsbD 62

/-- `x[62:0]`. -/
def fractionField (x : Image) : BitVec 63 :=
  x.extractLsb' 0 63

/-- The image with the three fields of R20. -/
def pack (s : Bool) (e : BitVec 15) (m : BitVec 64) : Image :=
  BitVec.ofBool s ++ e ++ m

/-- The classes of R110. -/
inductive FClass where
  | zero
  | denormal
  | normal
  | inf
  | qnan
  | snan
  | unsupported
  deriving DecidableEq, Repr

/-- `class(x)` (R21 to R26, R110). -/
def classify (x : Image) : FClass :=
  if expField x = 0 then
    if sigField x = 0 then .zero else .denormal
  else if expField x = 0x7FFF#15 then
    if integerBit x then
      if fractionField x = 0 then .inf
      else if quietBit x then .qnan else .snan
    else .unsupported
  else if integerBit x then .normal else .unsupported

/-- `isNaN(x)` (R110). -/
def FClass.isNan : FClass → Bool
  | .qnan | .snan => true
  | .zero | .denormal | .normal | .inf | .unsupported => false

/-- `isFinite(x)` (R110). -/
def FClass.isFinite : FClass → Bool
  | .zero | .denormal | .normal => true
  | .inf | .qnan | .snan | .unsupported => false

def isZero (x : Image) : Bool := classify x == .zero
def isInf (x : Image) : Bool := classify x == .inf
def isDenormal (x : Image) : Bool := classify x == .denormal
def isSnan (x : Image) : Bool := classify x == .snan
def isUnsupported (x : Image) : Bool := classify x == .unsupported
def isNan (x : Image) : Bool := (classify x).isNan
def isFinite (x : Image) : Bool := (classify x).isFinite

/-- The exponent of a finite image's last place: a denormal is scaled as if its exponent field were 1 (R21, R23). -/
def scaleOf (x : Image) : Int :=
  (max (expField x).toNat 1 : Nat) - 16383 - 63

/-- `val(x)` of a finite image (R21 to R23, R111). -/
def val (x : Image) : Rat :=
  applySign (signBit x) ((sigField x).toNat * pow2 (scaleOf x))

/-- `quiet(x)`: bit 62 set, every other bit unchanged (R25). -/
def quiet (x : Image) : Image :=
  x ||| (1#80 <<< 62)

/-- `Zero(s)` (R22). -/
def zeroImage (s : Bool) : Image :=
  pack s 0 0

/-- `Inf(s)` (R24). -/
def infImage (s : Bool) : Image :=
  pack s 0x7FFF#15 0x8000000000000000#64

/-- The greatest finite magnitude with sign `s` (R21, R126). -/
def maxImage (s : Bool) : Image :=
  pack s 0x7FFE#15 0xFFFFFFFFFFFFFFFF#64

/-- `1.0` (R21, R154). -/
def oneImage : Image :=
  0x3FFF8000000000000000#80

/-- `-0.5` (R224). -/
def minusHalfImage : Image :=
  0xBFFE8000000000000000#80

/-- `PropNaN(a, b)`, the operand in `A` first (R116). -/
def propNan (a b : Image) : Image :=
  if isNan a then quiet a else quiet b

end Sys2Proof.Machine
end

