-- ==== Sys2Proof/Machine/Flags.lean ====
section
/-! DEFINITION. The six flags (spec/10_state.md R33) and the flag rules that depend on operands alone: signaling NaNs
(R117), denormal operands (R120). Flags are accumulated by `State.raise` (Machine/Ops.lean). -/

namespace Sys2Proof.Machine

/-- The flag names of R33. -/
inductive Flag where
  | ie
  | de
  | ze
  | oe
  | ue
  | pe
  deriving DecidableEq, Repr

/-- `bit(F)`, the flag's position in `CTX.FLAGS` (R33). -/
def Flag.bit : Flag → Nat
  | .ie => 0
  | .de => 1
  | .ze => 2
  | .oe => 3
  | .ue => 4
  | .pe => 5

/-- `1 << bit(F)` (R12). -/
def Flag.mask (f : Flag) : FlagSet :=
  1#6 <<< f.bit

/-- The flag is in the set. -/
def hasFlag (fs : FlagSet) (f : Flag) : Bool :=
  fs.getLsbD f.bit

def noFlags : FlagSet := 0#6
def IE : FlagSet := Flag.ie.mask
def DE : FlagSet := Flag.de.mask
def ZE : FlagSet := Flag.ze.mask
def OE : FlagSet := Flag.oe.mask
def UE : FlagSet := Flag.ue.mask
def PE : FlagSet := Flag.pe.mask

/-- The flags of `fs` when the condition holds, else none. -/
def flagsIf (c : Bool) (fs : FlagSet) : FlagSet :=
  if c then fs else noFlags

/-- IE for a signaling NaN operand, the rule of the by-value commands (R117 (b)). -/
def snanFlags1 (x : Image) : FlagSet :=
  flagsIf (isSnan x) IE

/-- IE when either operand is a signaling NaN (R116, R117 (b)). -/
def snanFlags2 (x y : Image) : FlagSet :=
  flagsIf (isSnan x || isSnan y) IE

/-- DE for a denormal operand on the general path (R120). -/
def denormalFlags1 (x : Image) : FlagSet :=
  flagsIf (isDenormal x) DE

/-- DE when either operand is a denormal, on the general path (R120). -/
def denormalFlags2 (x y : Image) : FlagSet :=
  flagsIf (isDenormal x || isDenormal y) DE

end Sys2Proof.Machine
end

