-- ==== Sys2Proof/Machine/Rounding.lean ====
section
/-! DEFINITION. Rounding a rational to float80: `RInt`, `RoundX`, the overflow and tiny results, `Enc`
(spec/40_float80_utils.md R122 to R129), `PiMul` (spec/44_fpatan.md R261) and `RoundT` (spec/45_trig.md R286). -/

namespace Sys2Proof.Machine

/-- The four rounding modes of R31. -/
inductive RoundingMode where
  | nearestEven
  | down
  | up
  | towardZero
  deriving DecidableEq, Repr

/-- The mode `CTX.RC` selects (R31). -/
def RoundingMode.ofBits (rc : BitVec 2) : RoundingMode :=
  match rc.toNat with
  | 0 => .nearestEven
  | 1 => .down
  | 2 => .up
  | _ => .towardZero

/-- `RInt(m, s, rc)` of R122: a magnitude `m >= 0` to an integer, for a value of sign `s`. -/
def rInt (m : Rat) (s : Bool) (rc : RoundingMode) : Nat :=
  let f := m.floor.toNat
  if m = f then f
  else
    match rc with
    | .nearestEven => if 1 / 2 < m - f ∨ (m - f = 1 / 2 ∧ f % 2 = 1) then f + 1 else f
    | .towardZero => f
    | .up => if s then f else f + 1
    | .down => if s then f + 1 else f

/-- The overflow result of R126. -/
def overflowImage (s : Bool) : RoundingMode → Image
  | .nearestEven => infImage s
  | .towardZero => maxImage s
  | .up => if s then maxImage true else infImage false
  | .down => if s then infImage true else maxImage false

/-- The tiny result of R127: rounding on the grid of the denormals. -/
def tinyRound (a : Rat) (s : Bool) (rc : RoundingMode) (force : Bool) : Image × FlagSet :=
  let m := rInt (a / pow2 (-16445)) s rc
  let inexact : Bool := decide (m * pow2 (-16445) ≠ a)
  let z := if m = 2 ^ 63 then pack s 1 (BitVec.ofNat 64 m) else pack s 0 (BitVec.ofNat 64 m)
  (z, flagsIf (inexact || force) (UE ||| PE))

/-- Step 1 of R125: the significand and exponent after rounding with an unbounded exponent. -/
def roundUnbounded (a : Rat) (s : Bool) (rc : RoundingMode) : Nat × Int :=
  let e := ilog2 a
  let m := rInt (a / pow2 (e - 63)) s rc
  if m = 2 ^ 64 then (2 ^ 63, e + 1) else (m, e)

/-- `RoundX(v, rc, force)` of R125 for a nonzero `v`: the image and the flags to raise. -/
def roundX (v : Rat) (rc : RoundingMode) (force : Bool) : Image × FlagSet :=
  let s := sgnQ v
  let a := absQ v
  let (m, e) := roundUnbounded a s rc
  if 16383 < e then (overflowImage s rc, OE ||| PE)
  else if e < -16382 then tinyRound a s rc force
  else
    let inexact : Bool := decide (m * pow2 (e - 63) ≠ a)
    (pack s (BitVec.ofNat 15 (e + 16383).toNat) (BitVec.ofNat 64 m), flagsIf (inexact || force) PE)

/-- `Enc(v)` of R129, for a nonzero representable `v`. -/
def enc (v : Rat) : Image :=
  (roundX v .nearestEven false).1

/-- The image of an exact remainder: `Zero(s)` if it is zero, else `Enc` (R186, R187). -/
def encOrZero (s : Bool) (v : Rat) : Image :=
  if v = 0 then zeroImage s else enc v

/-- `PiMul(k, s)` of R261: `(-1)^s * k * CONST_PI / 4` rounded once, PE forced. -/
def piMul (constPi : Rat) (k : Nat) (s : Bool) (rc : RoundingMode) : Image × FlagSet :=
  roundX (applySign s (k * constPi / 4)) rc true

/-- `RoundT(v, s0)` of R286. -/
def roundT (v : Rat) (s0 : Bool) (rc : RoundingMode) : Image × FlagSet :=
  if v = 0 then (zeroImage s0, PE) else roundX v rc true

end Sys2Proof.Machine
end

