-- ==== Sys2Proof/Machine/State.lean ====
section
/-! DEFINITION. The state of one TXU instance (spec/10_state.md), the reasons a step can stop, and the state after reset.
State is plain data. -/

namespace Sys2Proof.Machine

/-- The completion code `CC` (R35). The value 3 is never produced, so the type has three values (U12). -/
inductive CompletionCode where
  | complete
  | partialReductionNeeded
  | invalid
  deriving DecidableEq, Repr

/-- The 2-bit encoding of R35. -/
def CompletionCode.bits : CompletionCode → BitVec 2
  | .complete => 0#2
  | .partialReductionNeeded => 1#2
  | .invalid => 2#2

/-- The status context `CTX` (R30): rounding control, precision control, six sticky flags. -/
structure Ctx where
  rc : BitVec 2
  pc : BitVec 2
  flags : FlagSet
  deriving DecidableEq, Repr

/-- Which registers the host or a command has written since reset (R41, R42). -/
structure Written where
  a : Bool
  b : Bool
  r : Bool
  rc : Bool
  pc : Bool
  flags : Bool
  cc : Bool
  q : Bool
  deriving DecidableEq, Repr

/-- Nothing is written after reset (R41). -/
def Written.none : Written :=
  ⟨false, false, false, false, false, false, false, false⟩

/-- The state of one instance: the registers of R27 to R36, which of them have been written (R42), two fields of the model
(the count of free values drawn, log entry 5, and the host's pending operations, log entry 6), and what the instance is
given and no step writes: the parameters with the stored pi of the ROM, which all instances share (R8, R37, R340; log
entry 2), and the stream of its free values (log entry 5). -/
structure State where
  /-- `A` (R27) -/
  a : Image
  /-- `B` (R28) -/
  b : Image
  /-- `R` (R29) -/
  r : Image
  /-- `CTX` (R30) -/
  ctx : Ctx
  /-- `CC` (R35) -/
  cc : CompletionCode
  /-- `Q` (R36) -/
  q : QuotBits
  /-- which registers have been written since reset (R42) -/
  written : Written
  /-- how many free values have been drawn (R225, R236) -/
  draws : Nat
  /-- the host operations still to be performed, oldest first (R90) -/
  port : List HostOp
  /-- `T`, `S`, `CONST_PI`, `DEFAULT_NAN`, `BYTE_ORDER`, `N_TXU` (R8) -/
  par : Params
  /-- which stream of free values the instance draws from: its position in its system (R340) -/
  stream : Nat
  deriving DecidableEq, Repr

/-- A machine fault. There is none: the spec treats no behaviour of the block as a fault ("no thrown exceptions and no
process aborts for any input", R133, R322; spec/93_implementation_defined.md), so the type has no constructor. -/
inductive Fault where
  deriving DecidableEq, Repr

/-- Why a step has no meaning. Each is safe: the model stops where the spec gives no meaning. -/
inductive Refusal where
  /-- Raised by an arm of exec whose instruction has no meaning yet (no arm now). Safe. -/
  | notModelled (mnemonic : String)
  /-- Raised when the host issues a reserved code `0xC` to `0xF` (R84). Safe. -/
  | reservedCode (op : Code)
  /-- Raised when the host's listing byte has a nonzero high nibble, which no listing of R91 has. Safe. -/
  | badListingByte (byte : Byte)
  /-- Raised by `REDUCE` of a command that is not one of the six of R90. Safe. -/
  | notReducible (i : Instr)
  /-- Raised by `strictStep` (Safety) alone, when the next host operation reads a register that nothing has written since
  reset (R42). Safe. `step` performs the operation on the reset value instead (log entry 1). -/
  | unwrittenRegister
  deriving DecidableEq, Repr

/-- The machine right after reset. The spec leaves every register unwritten (R41, R350): `written` says so, and each
register holds the zero of log entry 1 (DESIGN CHOICE, unsafe). The parameters are at their defaults (R8, log entry 2);
nothing has been drawn, the free values are those of stream 0, and the host has issued nothing (log entries 5 and 6). -/
def State.reset : State where
  a := 0
  b := 0
  r := 0
  ctx := ⟨0, 0, 0⟩
  cc := .complete
  q := 0
  written := Written.none
  draws := 0
  port := []
  par := Params.default
  stream := 0

end Sys2Proof.Machine
end

