-- ==== Sys2Proof/Machine/Ops.lean ====
section
/-! DEFINITION. The named operations over the registers: every write goes through one of these. Raising an exception is
`State.raise`: the block's exceptions are sticky flags and nothing else (spec/60_exceptions.md R320, R322), so there is
no trap entry and no return from one (R323). -/

namespace Sys2Proof.Machine

/-- The rounding mode of `CTX.RC` (R31). -/
def State.rounding (s : State) : RoundingMode :=
  RoundingMode.ofBits s.ctx.rc

/-- `A <- v`. -/
def State.setA (s : State) (v : Image) : State :=
  { s with a := v, written := { s.written with a := true } }

/-- `B <- v`. -/
def State.setB (s : State) (v : Image) : State :=
  { s with b := v, written := { s.written with b := true } }

/-- `R <- v`. -/
def State.setR (s : State) (v : Image) : State :=
  { s with r := v, written := { s.written with r := true } }

/-- `CC <- v`. -/
def State.setCC (s : State) (v : CompletionCode) : State :=
  { s with cc := v, written := { s.written with cc := true } }

/-- `Q <- v`. -/
def State.setQ (s : State) (v : QuotBits) : State :=
  { s with q := v, written := { s.written with q := true } }

/-- Raise the exceptions of a set: `CTX.FLAGS <- CTX.FLAGS | set` (R12, R132, R320). -/
def State.raise (s : State) (fs : FlagSet) : State :=
  { s with ctx := { s.ctx with flags := s.ctx.flags ||| fs } }

/-- What a by-value command produces (R220): an image for `R` and the flags it raises, or an undefined result (R225,
R236). -/
inductive ByValue where
  | out (z : Image) (fs : FlagSet)
  | anyValue
  deriving DecidableEq, Repr

/-- An image and flags that are raised beside those already collected. -/
def ByValue.rounded (zf : Image × FlagSet) (more : FlagSet) : ByValue :=
  .out zf.1 (more ||| zf.2)

/-- End of a by-value command: write `R`, raise the flags, touch nothing else (R220). An undefined result draws a free
image and free flags (log entry 5). -/
def State.commitR (s : State) : ByValue → State
  | .out z fs => (s.setR z).raise fs
  | .anyValue =>
    { (s.setR (Config.freeImage s.stream s.draws)).raise (Config.freeFlags s.stream s.draws) with
      draws := s.draws + 1 }

/-- What a remainder command produces (R181). -/
structure RemOut where
  a : Image
  cc : CompletionCode
  q : QuotBits
  fs : FlagSet
  deriving DecidableEq, Repr

/-- End of a remainder command: `A`, `CC`, `Q` and the flags (R181). -/
def State.commitRem (s : State) (o : RemOut) : State :=
  (((s.setA o.a).setCC o.cc).setQ o.q).raise o.fs

/-- What a trig command produces (R280): `b` is the image for `B` where the command writes it. -/
structure TrigOut where
  a : Image
  b : Option Image
  cc : CompletionCode
  fs : FlagSet
  deriving DecidableEq, Repr

/-- `B <- v` where there is a value. -/
def State.setB? (s : State) : Option Image → State
  | none => s
  | some v => s.setB v

/-- End of a trig command: `A`, `B` where written, `CC` and the flags (R280). -/
def State.commitTrig (s : State) (o : TrigOut) : State :=
  (((s.setA o.a).setB? o.b).setCC o.cc).raise o.fs

end Sys2Proof.Machine
end

