-- ==== Sys2Proof/Machine/ExpLog.lean ====
section
/-! DEFINITION. The exponential and logarithmic commands F2XM1, FYL2X and FYL2XP1 (spec/43_explog.md R220 to R236). Each
`…Out` is the pseudocode of the command's rule, a function of the operands, the rounding mode, the parameters and the
kernels. -/

namespace Sys2Proof.Machine

/-- An invalid operation with no NaN operand: `DEFAULT_NAN` and IE (R118, R121). -/
def invalidValue (p : Params) : ByValue :=
  .out p.defaultNan IE

/-- F2XM1 (R222). -/
def f2xm1Out (k : KernelFns) (p : Params) (rc : RoundingMode) (x : Image) : ByValue :=
  if isUnsupported x then invalidValue p
  else if isNan x then .out (quiet x) (snanFlags1 x)
  else if isZero x then .out x noFlags
  else if isInf x then .anyValue
  else if val x = 1 then .out oneImage noFlags
  else if val x = -1 then .out minusHalfImage noFlags
  else .rounded (roundX (k.k2xm1 (val x)) rc true) (denormalFlags1 x)

/-- FYL2X for `x <= 0`, both zeros and minus infinity included (R227). -/
def fyl2xNonPositive (p : Params) (x y : Image) : ByValue :=
  if isNan y then .out (quiet y) IE
  else .out p.defaultNan (IE ||| flagsIf (isZero x) ZE)

/-- The sign of `log2(x)` for a finite positive `x` other than 1: set when `x < 1` (R229). -/
def logSign (x : Image) : Bool :=
  decide (val x < 1)

/-- The general path of FYL2X: the exact product when `x` is a power of two (R230), else the kernel (R231). -/
def fyl2xGeneral (k : KernelFns) (rc : RoundingMode) (x y : Image) : ByValue :=
  match log2Exact (val x) with
  | some n => .rounded (roundX (val y * n) rc false) (denormalFlags2 x y)
  | none => .rounded (roundX (val y * k.kLog2 (val x)) rc true) (denormalFlags2 x y)

/-- FYL2X of a positive `x`, with `y` not a NaN (R228 to R231). -/
def fyl2xPositive (k : KernelFns) (p : Params) (rc : RoundingMode) (x y : Image) : ByValue :=
  if isInf x then
    if isZero y then invalidValue p else .out (infImage (signBit y)) noFlags
  else if isInf y then
    if val x = 1 then invalidValue p else .out (infImage (signBit y ^^ logSign x)) noFlags
  else if val x = 1 then .out (zeroImage (signBit y)) noFlags
  else if isZero y then .out (zeroImage (signBit y ^^ logSign x)) noFlags
  else fyl2xGeneral k rc x y

/-- FYL2X (R226), `x` in `A` and `y` in `B`. -/
def fyl2xOut (k : KernelFns) (p : Params) (rc : RoundingMode) (x y : Image) : ByValue :=
  if isUnsupported x || isUnsupported y then invalidValue p
  else if isNan x then .out (quiet x) (snanFlags2 x y)
  else if isZero x || signBit x then fyl2xNonPositive p x y
  else if isNan y then .out (quiet y) (snanFlags2 x y)
  else fyl2xPositive k p rc x y

/-- `class(x) = inf or |val(x)| > B_L2P1` (R236). A zero is inside every domain, since `B_L2P1 > 0`. -/
def outsideLog2p1 (k : KernelFns) (x : Image) : Bool :=
  isInf x || (!isZero x && decide (k.log2p1Bound < absQ (val x)))

/-- FYL2XP1 (R232), `x` in `A` and `y` in `B`. -/
def fyl2xp1Out (k : KernelFns) (p : Params) (rc : RoundingMode) (x y : Image) : ByValue :=
  if isUnsupported x || isUnsupported y then invalidValue p
  else if isNan x || isNan y then .out (propNan x y) (snanFlags2 x y)
  else if outsideLog2p1 k x then .anyValue
  else if isInf y then
    if isZero x then invalidValue p else .out (infImage (signBit x ^^ signBit y)) noFlags
  else if isZero x || isZero y then .out (zeroImage (signBit x ^^ signBit y)) noFlags
  else .rounded (roundX (val y * k.kLog2p1 (val x)) rc true) (denormalFlags2 x y)

/-- F2XM1 with given kernels. -/
def f2xm1With (k : KernelFns) (s : State) : State :=
  s.commitR (f2xm1Out k s.par s.rounding s.a)

/-- FYL2X with given kernels. -/
def fyl2xWith (k : KernelFns) (s : State) : State :=
  s.commitR (fyl2xOut k s.par s.rounding s.a s.b)

/-- FYL2XP1 with given kernels. -/
def fyl2xp1With (k : KernelFns) (s : State) : State :=
  s.commitR (fyl2xp1Out k s.par s.rounding s.a s.b)

/-- F2XM1 (R222). -/
def execF2xm1 (s : State) : Host.Outcome State Fault Refusal :=
  .next (f2xm1With Config.kernels.toKernelFns s)

/-- FYL2X (R226). -/
def execFyl2x (s : State) : Host.Outcome State Fault Refusal :=
  .next (fyl2xWith Config.kernels.toKernelFns s)

/-- FYL2XP1 (R232). -/
def execFyl2xp1 (s : State) : Host.Outcome State Fault Refusal :=
  .next (fyl2xp1With Config.kernels.toKernelFns s)

end Sys2Proof.Machine
end

