-- ==== Sys2Proof/Machine/Fpatan.lean ====
section
/-! DEFINITION. The two-argument arctangent FPATAN (spec/44_fpatan.md R260 to R268): `y` in `A`, `x` in `B`. -/

namespace Sys2Proof.Machine

/-- The magnitude of the angle of finite nonzero `y` and `x`, from their magnitudes and the sign of `x` (R268). The type of
the values is left open so that the accuracy law (R166) can state the same composition over the reals. -/
def atanCompose {α : Type} [Add α] [Sub α] (halfPi fullPi t : α) (small negX : Bool) : α :=
  if small then
    if negX then fullPi - t else t
  else
    if negX then halfPi + t else halfPi - t

/-- The magnitude of the angle of finite nonzero `y` and `x` (R262's general path, R268). -/
def atanTheta (k : KernelFns) (constPi : Rat) (y x : Image) : Rat :=
  let ay := absQ (val y)
  let ax := absQ (val x)
  let t := if ay ≤ ax then k.kAtan constPi ay ax else k.kAtan constPi ax ay
  atanCompose (constPi / 2) constPi t (decide (ay ≤ ax)) (signBit x)

/-- A multiple of pi as the result (R261, R266). -/
def piResult (p : Params) (rc : RoundingMode) (n : Nat) (s : Bool) : ByValue :=
  .rounded (piMul p.constPi n s rc) noFlags

/-- The angle on the `x` axis: zero for a positive `x`, pi for a negative one (R264, R265). -/
def axisX (p : Params) (rc : RoundingMode) (sy sx : Bool) : ByValue :=
  if sx then piResult p rc 4 sy else .out (zeroImage sy) noFlags

/-- FPATAN (R262). -/
def fpatanOut (k : KernelFns) (p : Params) (rc : RoundingMode) (y x : Image) : ByValue :=
  let sy := signBit y
  let sx := signBit x
  if isUnsupported y || isUnsupported x then invalidValue p
  else if isNan y || isNan x then .out (propNan y x) (snanFlags2 y x)
  else if isZero y && isZero x then invalidValue p
  else if isInf y then
    if isInf x then piResult p rc (if sx then 3 else 1) sy else piResult p rc 2 sy
  else if isInf x then axisX p rc sy sx
  else if isZero x then piResult p rc 2 sy
  else if isZero y then axisX p rc sy sx
  else .rounded (roundX (applySign sy (atanTheta k p.constPi y x)) rc true) (denormalFlags2 y x)

/-- FPATAN with given kernels. -/
def fpatanWith (k : KernelFns) (s : State) : State :=
  s.commitR (fpatanOut k s.par s.rounding s.a s.b)

/-- FPATAN (R262). -/
def execFpatan (s : State) : Host.Outcome State Fault Refusal :=
  .next (fpatanWith Config.kernels.toKernelFns s)

end Sys2Proof.Machine
end

