-- ==== Sys2Proof/Machine/Remainder.lean ====
section
/-! DEFINITION. The remainder and argument-reduction engine: REM_IEEE and REM_LEGACY (spec/42_remainder.md R180 to
R192), and the partial step it shares with the trig commands (R186, R287). -/

namespace Sys2Proof.Machine

/-- `M = m * 2^(D-S)`, the modulus scaled up to `S` binades below the operand (R186, R287). -/
def scaledModulus (partialStep : Nat) (m : Rat) (d : Int) : Rat :=
  m * pow2 (d - partialStep)

/-- `np = floor(a / M)` (R186, R287). -/
def partialQuotient (partialStep : Nat) (a m : Rat) (d : Int) : Int :=
  (a / scaledModulus partialStep m d).floor

/-- `rp = a - np * M` (R186, R287). -/
def partialRemainder (partialStep : Nat) (a m : Rat) (d : Int) : Rat :=
  a - partialQuotient partialStep a m d * scaledModulus partialStep m d

/-- `|n| mod 8` (R192). -/
def quotBits (n : Int) : QuotBits :=
  BitVec.ofNat 3 n.natAbs

/-- An invalid outcome of a remainder command: IE, the NaN, Invalid, `Q = 0` (R182, R183). -/
def remInvalid (z : Image) : RemOut :=
  ⟨z, .invalid, 0, IE⟩

/-- The general path, both operands finite and nonzero (R184 to R188). `round` forms the integer quotient of a full
reduction; a partial quotient is truncated for both commands (R186). -/
def remGeneral (p : Params) (round : Rat → Int) (x y : Image) : RemOut :=
  let va := val x
  let vb := val y
  let s := signBit x
  let d := ilog2 va - ilog2 vb
  if (p.threshold : Int) < d then
    let np := partialQuotient p.partialStep (absQ va) (absQ vb) d
    let rp := partialRemainder p.partialStep (absQ va) (absQ vb) d
    ⟨encOrZero s (applySign s rp), .partialReductionNeeded, quotBits np, denormalFlags2 x y⟩
  else
    let n := round (va / vb)
    ⟨encOrZero s (va - n * vb), .complete, quotBits n, denormalFlags2 x y⟩

/-- The pseudocode of R190, with the quotient rounding left open for R191. -/
def remOut (p : Params) (round : Rat → Int) (x y : Image) : RemOut :=
  if isUnsupported x || isUnsupported y then remInvalid p.defaultNan
  else if isNan x || isNan y then remInvalid (propNan x y)
  else if isZero y || isInf x then remInvalid p.defaultNan
  else if isInf y || isZero x then ⟨x, .complete, 0, noFlags⟩
  else remGeneral p round x y

/-- REM_IEEE (R190): the quotient is the nearest integer, ties to even. -/
def execRemIeee (s : State) : Host.Outcome State Fault Refusal :=
  .next (s.commitRem (remOut s.par rneQ s.a s.b))

/-- REM_LEGACY (R191): the quotient is truncated toward zero. -/
def execRemLegacy (s : State) : Host.Outcome State Fault Refusal :=
  .next (s.commitRem (remOut s.par truncQ s.a s.b))

end Sys2Proof.Machine
end

