-- ==== Sys2Proof/Machine/Sign.lean ====
section
/-! DEFINITION. The sign utilities ABS and NEGATE (spec/40_float80_utils.md R112 to R114). -/

namespace Sys2Proof.Machine

/-- `{0, x[78:0]}` (R112). -/
def absImage (x : Image) : Image :=
  0#1 ++ x.extractLsb' 0 79

/-- `{~x[79], x[78:0]}` (R113). -/
def negateImage (x : Image) : Image :=
  BitVec.ofBool (!signBit x) ++ x.extractLsb' 0 79

/-- ABS (R112). -/
def execAbs (s : State) : Host.Outcome State Fault Refusal :=
  .next (s.setR (absImage s.a))

/-- NEGATE (R113). -/
def execNegate (s : State) : Host.Outcome State Fault Refusal :=
  .next (s.setR (negateImage s.a))

end Sys2Proof.Machine
end

