-- ==== Sys2Proof/Machine/Trig.lean ====
section
/-! DEFINITION. The periodic trig commands FSIN, FCOS, FTAN and FSINCOS (spec/45_trig.md R280 to R295). `trigCore` is the
shared procedure of R288; each `…Out` is the command's own rule in terms of it. -/

namespace Sys2Proof.Machine

/-- The reduction modulus `P = CONST_PI / 2` (R283). -/
def trigModulus (p : Params) : Rat :=
  p.constPi / 2

/-- `n = rne(|vx| / P)` of a full reduction (R284). -/
def trigQuotient (p : Params) (a : Rat) : Int :=
  rneQ (a / trigModulus p)

/-- `r = |vx| - n * P` of a full reduction (R284). -/
def trigResidue (p : Params) (a : Rat) : Rat :=
  a - trigQuotient p a * trigModulus p

/-- The quadrant table of R285: `sin|x|` and `cos|x|` from the kernel values and `n mod 4`. The type of the values is left
open so that the accuracy law (R166) can state the same table over the reals. -/
def quadrant {α : Type} [Neg α] (n : Int) (s0 c0 : α) : α × α :=
  match (n % 4).toNat with
  | 0 => (s0, c0)
  | 1 => (c0, -s0)
  | 2 => (-s0, -c0)
  | _ => (-c0, s0)

/-- What `TrigCore` answers (R288). -/
inductive TrigCore where
  /-- an invalid operand: the NaN to write (R281) -/
  | invalid (z : Image)
  /-- a zero operand (R282) -/
  | zero
  /-- a partial step: the partial remainder and the flags of its rounding (R287) -/
  | stepped (z : Image) (fs : FlagSet)
  /-- the sine and cosine of the operand, exact rationals, and DE for a denormal operand (R284, R285) -/
  | values (vsin vcos : Rat) (fs : FlagSet)
  deriving DecidableEq, Repr

/-- The partial trig step (R287): the remainder is rounded once, PE only if bits are lost. -/
def trigPartial (p : Params) (rc : RoundingMode) (s : Bool) (a : Rat) (d : Int) : TrigCore :=
  let rp := partialRemainder p.partialStep a (trigModulus p) d
  if rp = 0 then .stepped (zeroImage s) noFlags
  else
    let zf := roundX (applySign s rp) rc false
    .stepped zf.1 zf.2

/-- The full reduction and quadrant reconstruction (R284, R285). -/
def trigValues (k : KernelFns) (p : Params) (s : Bool) (a : Rat) (fs : FlagSet) : TrigCore :=
  let r := trigResidue p a
  let sc := quadrant (trigQuotient p a) (k.kSin p.constPi r) (k.kCos p.constPi r)
  .values (applySign s sc.1) sc.2 fs

/-- The procedure `TrigCore` of R288. The modulus has binary exponent 0, so `D` is the operand's (R283). -/
def trigCore (k : KernelFns) (p : Params) (rc : RoundingMode) (x : Image) : TrigCore :=
  if isUnsupported x then .invalid p.defaultNan
  else if isNan x then .invalid (quiet x)
  else if isInf x then .invalid p.defaultNan
  else if isZero x then .zero
  else
    let a := absQ (val x)
    let d := ilog2 a
    if (p.threshold : Int) < d then trigPartial p rc (signBit x) a d
    else trigValues k p (signBit x) a (denormalFlags1 x)

/-- A rounded result of a completed trig command, beside the flags already collected (R286). -/
def trigComplete (zf : Image × FlagSet) (fs : FlagSet) : TrigOut :=
  ⟨zf.1, none, .complete, fs ||| zf.2⟩

/-- FSIN (R290). -/
def fsinOut (k : KernelFns) (p : Params) (rc : RoundingMode) (x : Image) : TrigOut :=
  match trigCore k p rc x with
  | .invalid z => ⟨z, none, .invalid, IE⟩
  | .zero => ⟨x, none, .complete, noFlags⟩
  | .stepped z fs => ⟨z, none, .partialReductionNeeded, fs⟩
  | .values vsin _ fs => trigComplete (roundT vsin (signBit x) rc) fs

/-- FCOS (R291). -/
def fcosOut (k : KernelFns) (p : Params) (rc : RoundingMode) (x : Image) : TrigOut :=
  match trigCore k p rc x with
  | .invalid z => ⟨z, none, .invalid, IE⟩
  | .zero => ⟨oneImage, none, .complete, noFlags⟩
  | .stepped z fs => ⟨z, none, .partialReductionNeeded, fs⟩
  | .values _ vcos fs => trigComplete (roundT vcos false rc) fs

/-- FTAN (R292): the exact quotient of the unrounded values, rounded once; a zero cosine is invalid (R294) and keeps the
DE that `TrigCore` has already set. -/
def ftanOut (k : KernelFns) (p : Params) (rc : RoundingMode) (x : Image) : TrigOut :=
  match trigCore k p rc x with
  | .invalid z => ⟨z, none, .invalid, IE⟩
  | .zero => ⟨x, none, .complete, noFlags⟩
  | .stepped z fs => ⟨z, none, .partialReductionNeeded, fs⟩
  | .values vsin vcos fs =>
    if vcos = 0 then ⟨p.defaultNan, none, .invalid, fs ||| IE⟩
    else trigComplete (roundT (vsin / vcos) (signBit x) rc) fs

/-- FSINCOS (R293): the sine to `A`, the cosine to `B`; a partial step leaves `B` (R287). -/
def fsincosOut (k : KernelFns) (p : Params) (rc : RoundingMode) (x : Image) : TrigOut :=
  match trigCore k p rc x with
  | .invalid z => ⟨z, some z, .invalid, IE⟩
  | .zero => ⟨x, some oneImage, .complete, noFlags⟩
  | .stepped z fs => ⟨z, none, .partialReductionNeeded, fs⟩
  | .values vsin vcos fs =>
    let zs := roundT vsin (signBit x) rc
    let zc := roundT vcos false rc
    ⟨zs.1, some zc.1, .complete, fs ||| zs.2 ||| zc.2⟩

/-- FSIN with given kernels. -/
def fsinWith (k : KernelFns) (s : State) : State :=
  s.commitTrig (fsinOut k s.par s.rounding s.a)

/-- FCOS with given kernels. -/
def fcosWith (k : KernelFns) (s : State) : State :=
  s.commitTrig (fcosOut k s.par s.rounding s.a)

/-- FTAN with given kernels. -/
def ftanWith (k : KernelFns) (s : State) : State :=
  s.commitTrig (ftanOut k s.par s.rounding s.a)

/-- FSINCOS with given kernels. -/
def fsincosWith (k : KernelFns) (s : State) : State :=
  s.commitTrig (fsincosOut k s.par s.rounding s.a)

/-- FSIN (R290). -/
def execFsin (s : State) : Host.Outcome State Fault Refusal :=
  .next (fsinWith Config.kernels.toKernelFns s)

/-- FCOS (R291). -/
def execFcos (s : State) : Host.Outcome State Fault Refusal :=
  .next (fcosWith Config.kernels.toKernelFns s)

/-- FTAN (R292). -/
def execFtan (s : State) : Host.Outcome State Fault Refusal :=
  .next (ftanWith Config.kernels.toKernelFns s)

/-- FSINCOS (R293). -/
def execFsincos (s : State) : Host.Outcome State Fault Refusal :=
  .next (fsincosWith Config.kernels.toKernelFns s)

end Sys2Proof.Machine
end

