-- ==== Sys2Proof/Machine/Dispatch.lean ====
section
/-! DEFINITION. One arm per command (spec/30_encoding.md R82). -/

namespace Sys2Proof.Machine

def exec (i : Instr) (s : State) : Host.Outcome State Fault Refusal :=
  match i with
  | .abs => Sys2Proof.Machine.execAbs s
  | .negate => Sys2Proof.Machine.execNegate s
  | .remIeee => Sys2Proof.Machine.execRemIeee s
  | .remLegacy => Sys2Proof.Machine.execRemLegacy s
  | .f2xm1 => Sys2Proof.Machine.execF2xm1 s
  | .fyl2x => Sys2Proof.Machine.execFyl2x s
  | .fyl2xp1 => Sys2Proof.Machine.execFyl2xp1 s
  | .fpatan => Sys2Proof.Machine.execFpatan s
  | .fsin => Sys2Proof.Machine.execFsin s
  | .fcos => Sys2Proof.Machine.execFcos s
  | .ftan => Sys2Proof.Machine.execFtan s
  | .fsincos => Sys2Proof.Machine.execFsincos s

end Sys2Proof.Machine
end

