-- ==== Sys2Proof/Machine/HostOps.lean ====
section
/-! DEFINITION. The host's operations (spec/30_encoding.md R90, R91): register writes and reads, issuing a command, the
retry loop of spec/70_reset_and_hazards.md R356; the packed context word (R30) and the bytes of an image (R61). -/

namespace Sys2Proof.Machine

/-- `{RC, PC, FLAGS}`, the packed context word (R30). -/
def Ctx.word (c : Ctx) : BitVec 10 :=
  c.rc ++ c.pc ++ c.flags

/-- The context a packed word holds (R30). -/
def Ctx.ofWord (w : BitVec 10) : Ctx :=
  ⟨w.extractLsb' 8 2, w.extractLsb' 6 2, w.extractLsb' 0 6⟩

/-- What a host reads: the value of the register, by its own width (R63, R90). -/
inductive HostValue where
  | image (v : Image)
  | context (v : BitVec 10)
  | completion (v : BitVec 2)
  | quotient (v : QuotBits)
  deriving DecidableEq, Repr

/-- The value a host read returns; it has no effect on the block (R63, R90). -/
def State.hostRead (s : State) : HostReg → HostValue
  | .a => .image s.a
  | .b => .image s.b
  | .r => .image s.r
  | .ctx => .context s.ctx.word
  | .cc => .completion s.cc.bits
  | .q => .quotient s.q

/-- `WRCTX rc, pc, flags` (R90): the whole context. -/
def State.writeCtx (s : State) (rc pc : BitVec 2) (flags : FlagSet) : State :=
  { s with ctx := ⟨rc, pc, flags⟩, written := { s.written with rc := true, pc := true, flags := true } }

/-- `WRFLAGS flags` (R90): the one field. -/
def State.writeFlags (s : State) (flags : FlagSet) : State :=
  { s with ctx := { s.ctx with flags := flags }, written := { s.written with flags := true } }

/-- The refusal a rejected command word gives (R84, R91). -/
def rejectRefusal : DecodeReject → Refusal
  | .reservedCode op => .reservedCode op
  | .badListingByte byte => .badListingByte byte

/-- Issue the command of a listing byte (R13, R91). -/
def issueByte (byte : Byte) (s : State) : Host.Outcome State Fault Refusal :=
  match decode byte with
  | .instr i => exec i s
  | .rejected why => .refused (rejectRefusal why)

/-- The state after one pass of the retry loop: the loop goes on while `CC` is PartialReductionNeeded (R90, R356). -/
def State.retry (s : State) (byte : Byte) : State :=
  if s.cc = .partialReductionNeeded then { s with port := .reduce byte :: s.port } else s

/-- One pass of `REDUCE <cmd>` (R90): issue the command, read `CC`, and issue it again while it is
PartialReductionNeeded. -/
def reduceByte (byte : Byte) (s : State) : Host.Outcome State Fault Refusal :=
  match decode byte with
  | .instr i =>
    if i.writesCC then
      match exec i s with
      | .next t => .next (t.retry byte)
      | .fault r => .fault r
      | .refused r => .refused r
    else .refused (.notReducible i)
  | .rejected why => .refused (rejectRefusal why)

/-- One host operation (R90). -/
def hostOp (op : HostOp) (s : State) : Host.Outcome State Fault Refusal :=
  match op with
  | .wrA v => .next (s.setA v)
  | .wrB v => .next (s.setB v)
  | .wrCtx rc pc flags => .next (s.writeCtx rc pc flags)
  | .wrFlags flags => .next (s.writeFlags flags)
  | .rd _ => .next s
  | .movAR => .next (s.setA s.r)
  | .movBR => .next (s.setB s.r)
  | .issue byte => issueByte byte s
  | .reduce byte => reduceByte byte s

/-- The next thing one instance does: the oldest pending host operation, or nothing while the host asks for nothing
(R38, R66). -/
def stepPort (s : State) : Host.Outcome State Fault Refusal :=
  match s.port with
  | [] => .next s
  | op :: rest => hostOp op { s with port := rest }

/-- The bytes in which a host stores an image, lowest address first (R61). -/
def imageBytes (order : ByteOrder) (x : Image) : List Byte :=
  let little := (List.range 10).map fun i => x.extractLsb' (8 * i) 8
  match order with
  | .little => little
  | .big => little.reverse

/-- The number a list of bytes holds, least significant byte first. -/
def bytesValue : List Byte → Nat
  | [] => 0
  | byte :: rest => byte.toNat + 256 * bytesValue rest

/-- The image ten stored bytes hold (R61). -/
def imageOfBytes (order : ByteOrder) (bytes : List Byte) : Image :=
  match order with
  | .little => BitVec.ofNat 80 (bytesValue bytes)
  | .big => BitVec.ofNat 80 (bytesValue bytes.reverse)

/-- The bytes in which a host stores an image under the parameter `BYTE_ORDER` (R8, R61). -/
def storeImage (p : Params) (x : Image) : List Byte :=
  imageBytes p.byteOrder x

/-- The image a host loads under the parameter `BYTE_ORDER` (R8, R61). -/
def loadImage (p : Params) (bytes : List Byte) : Image :=
  imageOfBytes p.byteOrder bytes

end Sys2Proof.Machine
end

