-- ==== Sys2Proof/Machine/Step.lean ====
section
/-! DEFINITION. One step of an instance, and the placing of a command where the next step takes it. -/

namespace Sys2Proof.Machine

/-- One step: the oldest host operation, a command or a register access, as one indivisible step (R13, R66, R90). -/
def step (s : State) : Host.Outcome State Fault Refusal :=
  stepPort s

/-- The state with a command word at the head of the host's operations, so that the next step performs it (log entry
6). -/
def State.withFetchWord (s : State) (_nbits w : Nat) : State :=
  { s with port := .issue (BitVec.ofNat 8 w) :: s.port }

end Sys2Proof.Machine
end

