-- ==== Sys2Proof/Machine/PolyEval.lean ====
section
/-! DEFINITION. The reference structure of the polynomial evaluation engine (spec/41_constants_polyeval.md R156, R157) and
the tables of its example instantiation (R167). A model may put any lawful functions in its place (R156): the machine's
kernels are `Config.kernels`; `Safety.UsesReferenceEngine` names the case in which they are this engine on the machine's
ROM. -/

namespace Sys2Proof.Machine

/-- `rndW(v)`: the nearest value with a `W_SIG`-bit significand and unbounded exponent, ties to the even significand
(R157). -/
def rndW (wSig : Nat) (v : Rat) : Rat :=
  if v = 0 then 0
  else
    let ulp := pow2 (ilog2 v - (wSig - 1))
    rneQ (v / ulp) * ulp

/-- `mulW(a, b)` (R157). -/
def mulW (wSig : Nat) (a b : Rat) : Rat :=
  rndW wSig (a * b)

/-- `addW(a, b)` (R157). -/
def addW (wSig : Nat) (a b : Rat) : Rat :=
  rndW wSig (a + b)

/-- `EvalPoly(t, c)`: Horner's rule, `c[0]` first (R156). -/
def evalPoly (wSig : Nat) (t : Rat) : List Rat → Rat
  | [] => 0
  | [c] => c
  | c :: cs => addW wSig (mulW wSig (evalPoly wSig t cs) t) c

/-- `EvenPoly(t, c)` (R156). -/
def evenPoly (wSig : Nat) (t : Rat) (c : List Rat) : Rat :=
  evalPoly wSig (mulW wSig t t) c

/-- `OddPoly(t, c)` (R156). -/
def oddPoly (wSig : Nat) (t : Rat) (c : List Rat) : Rat :=
  mulW wSig t (evenPoly wSig t c)

/-- The reference kernel `K_SIN(r) = OddPoly(rndW(r), COEF_SIN)` (R156) over a ROM. -/
def refSin (rom : Rom) (r : Rat) : Rat :=
  oddPoly rom.wSig (rndW rom.wSig r) rom.coefSin

/-- The reference kernel `K_COS(r) = EvenPoly(rndW(r), COEF_COS)` (R156) over a ROM. -/
def refCos (rom : Rom) (r : Rat) : Rat :=
  evenPoly rom.wSig (rndW rom.wSig r) rom.coefCos

/-- The kernels `k` with the reference sine and cosine of a ROM (R156). The spec gives no other kernel a structure. -/
def refKernels (rom : Rom) (k : KernelFns) : KernelFns :=
  { k with
    kSin := fun _ r => refSin rom r
    kCos := fun _ r => refCos rom r }

/-- `rndW((-1)^k / (2k + d)!)` for `k = 0 .. 10` with `W_SIG = 113`, the example tables of R167: `d = 1` for the sine,
`d = 0` for the cosine. -/
def exampleCoef (d : Nat) : List Rat :=
  (List.range 11).map fun k => rndW 113 (mkRat ((-1) ^ k) (Nat.factorial (2 * k + d)))

/-- The ROM of the example instantiation (R167); it gives no other table. -/
def exampleRom : Rom where
  coefSin := exampleCoef 1
  coefCos := exampleCoef 0
  coefSin_table := by decide +kernel
  coefCos_table := by decide +kernel

/-- The kernels `k` with the sine and cosine of the example instantiation (R167). -/
def exampleKernels (k : KernelFns) : KernelFns :=
  refKernels exampleRom k

end Sys2Proof.Machine
end

