-- ==== Sys2Proof/Machine/System.lean ====
section
/-! DEFINITION. Several instances, one per emulated CPU (spec/20_memory.md R67; spec/60_exceptions.md R340). Each has its
own registers; the parameters with the stored pi, like the constants of Config, are one for all. A step of the system is a
step of one instance. -/

namespace Sys2Proof.Machine

/-- What an instance has of its own, and no other reads or writes (R340): the fields of State but the parameters and the
stream. -/
structure Txu where
  a : Image
  b : Image
  r : Image
  ctx : Ctx
  cc : CompletionCode
  q : QuotBits
  written : Written
  draws : Nat
  port : List HostOp
  deriving DecidableEq, Repr

/-- The instance's own part of a state. -/
def State.own (s : State) : Txu :=
  ⟨s.a, s.b, s.r, s.ctx, s.cc, s.q, s.written, s.draws, s.port⟩

/-- An instance with what it is given. -/
def Txu.state (u : Txu) (par : Params) (stream : Nat) : State :=
  ⟨u.a, u.b, u.r, u.ctx, u.cc, u.q, u.written, u.draws, u.port, par, stream⟩

/-- A system of instances that share the constant ROM and the parameters, and nothing else (R37, R340). -/
structure System where
  /-- the parameters and the stored pi, shared by every instance and written by none -/
  par : Params
  /-- the instances -/
  units : List Txu
  deriving DecidableEq, Repr

/-- The system's constraints: legal parameters and `N_TXU >= 1` instances (R8, R340). -/
def System.wf (sys : System) : Bool :=
  sys.par.legal && sys.units.length == sys.par.nTxu

/-- The system right after reset, `N_TXU` instances (R340, R350). -/
def System.reset (p : Params) : System where
  par := p
  units := List.replicate p.nTxu State.reset.own

/-- Instance `k` with what it shares with the others, and its own stream of free values (log entry 5). -/
def System.view (sys : System) (k : Nat) : Option State :=
  sys.units[k]?.map fun u => u.state sys.par k

/-- A step of instance `k`; an instance that does not exist takes no step. -/
def stepUnit (k : Nat) (sys : System) : Host.Outcome System Fault Refusal :=
  match sys.view k with
  | none => .next sys
  | some s =>
    match step s with
    | .next t => .next { sys with units := sys.units.set k t.own }
    | .fault r => .fault r
    | .refused r => .refused r

end Sys2Proof.Machine
end

