-- ==== Sys2Proof/Safety.lean ====
section
/-! DEFINITION. The terms claims are stated in: the access table (spec/10_state.md R40), the inputs a command needs written
(R42, R352), the states the three command families leave, the invariant of the machine, and the accuracy laws a proof may
assume (spec/41_constants_polyeval.md R166). -/

namespace Sys2Proof.Machine

/-- The columns of the access table of R40. -/
inductive Reg where
  | a
  | b
  | r
  | rc
  | pc
  | flags
  | cc
  | q
  deriving DecidableEq, Repr

/-- The `r` entries of R40. -/
def Instr.readSet : Instr → List Reg
  | .abs => [.a]
  | .negate => [.a]
  | .remIeee => [.a, .b]
  | .remLegacy => [.a, .b]
  | .f2xm1 => [.a, .rc]
  | .fyl2x => [.a, .b, .rc]
  | .fyl2xp1 => [.a, .b, .rc]
  | .fpatan => [.a, .b, .rc]
  | .fsin => [.a, .rc]
  | .fcos => [.a, .rc]
  | .ftan => [.a, .rc]
  | .fsincos => [.a, .rc]

/-- The `w` and `(w)` entries of R40. -/
def Instr.writeSet : Instr → List Reg
  | .abs => [.r]
  | .negate => [.r]
  | .remIeee => [.a, .cc, .q]
  | .remLegacy => [.a, .cc, .q]
  | .f2xm1 => [.r]
  | .fyl2x => [.r]
  | .fyl2xp1 => [.r]
  | .fpatan => [.r]
  | .fsin => [.a, .cc]
  | .fcos => [.a, .cc]
  | .ftan => [.a, .cc]
  | .fsincos => [.a, .b, .cc]

/-- The `or` entries of R40: the commands that may add flags. -/
def Instr.addsFlags : Instr → Bool
  | .abs | .negate => false
  | .remIeee | .remLegacy | .f2xm1 | .fyl2x | .fyl2xp1 | .fpatan | .fsin | .fcos | .ftan | .fsincos => true

/-- Two states hold the same value in a register. -/
def sameReg (s t : State) : Reg → Prop
  | .a => s.a = t.a
  | .b => s.b = t.b
  | .r => s.r = t.r
  | .rc => s.ctx.rc = t.ctx.rc
  | .pc => s.ctx.pc = t.ctx.pc
  | .flags => s.ctx.flags = t.ctx.flags
  | .cc => s.cc = t.cc
  | .q => s.q = t.q

/-- The register has been written since reset (R42). -/
def State.hasWritten (s : State) : Reg → Bool
  | .a => s.written.a
  | .b => s.written.b
  | .r => s.written.r
  | .rc => s.written.rc
  | .pc => s.written.pc
  | .flags => s.written.flags
  | .cc => s.written.cc
  | .q => s.written.q

/-- Every register the command reads, and the flags if it may add to them, has been written (R42, R352). The spec gives a
command no meaning in any other state; the model performs it on the reset value (log entry 1). -/
def State.ready (s : State) (i : Instr) : Bool :=
  (Instr.readSet i).all s.hasWritten && (!(Instr.addsFlags i) || s.written.flags)

/-- The registers a host read names (R90): `RDCTX` reads all three fields. -/
def HostReg.columns : HostReg → List Reg
  | .a => [.a]
  | .b => [.b]
  | .r => [.r]
  | .ctx => [.rc, .pc, .flags]
  | .cc => [.cc]
  | .q => [.q]

/-- A command word's inputs are written, where it is a command (R42). -/
def State.readyByte (s : State) (byte : Byte) : Bool :=
  match decode byte with
  | .instr i => s.ready i
  | .rejected _ => true

/-- Every register the host operation reads has been written (R42). -/
def State.readyOp (s : State) : HostOp → Bool
  | .wrA _ | .wrB _ | .wrCtx _ _ _ | .wrFlags _ => true
  | .rd reg => (HostReg.columns reg).all s.hasWritten
  | .movAR | .movBR => s.written.r
  | .issue byte | .reduce byte => s.readyByte byte

/-- The step of R42, word for word: as `step`, but an operation that reads an unwritten register is refused. A run of
`strictStep` rests on no reset value. -/
def strictStep (s : State) : Host.Outcome State Fault Refusal :=
  match s.port with
  | [] => step s
  | op :: _ => if s.readyOp op then step s else .refused .unwrittenRegister

/-- The state a by-value command leaves: `R` and the flags, all else unchanged (R220). -/
def State.afterByValue (s : State) (z : Image) (fs : FlagSet) : State :=
  { s with
    r := z
    ctx := { s.ctx with flags := s.ctx.flags ||| fs }
    written := { s.written with r := true } }

/-- The state after an undefined result: a free image and free flags, all else unchanged (R225, R236). -/
def State.afterUndefined (s : State) : State :=
  { s.afterByValue (Config.freeImage s.stream s.draws) (Config.freeFlags s.stream s.draws) with
    draws := s.draws + 1 }

/-- The state a remainder command leaves (R181). -/
def State.afterRem (s : State) (z : Image) (cc : CompletionCode) (q : QuotBits) (fs : FlagSet) : State :=
  { s with
    a := z
    cc := cc
    q := q
    ctx := { s.ctx with flags := s.ctx.flags ||| fs }
    written := { s.written with a := true, cc := true, q := true } }

/-- The state a trig command leaves when it does not write `B` (R280). -/
def State.afterTrig (s : State) (z : Image) (cc : CompletionCode) (fs : FlagSet) : State :=
  { s with
    a := z
    cc := cc
    ctx := { s.ctx with flags := s.ctx.flags ||| fs }
    written := { s.written with a := true, cc := true } }

/-- The state FSINCOS leaves when it writes `B` (R280, R293). -/
def State.afterSincos (s : State) (zs zc : Image) (cc : CompletionCode) (fs : FlagSet) : State :=
  { s with
    a := zs
    b := zc
    cc := cc
    ctx := { s.ctx with flags := s.ctx.flags ||| fs }
    written := { s.written with a := true, b := true, cc := true } }

/-- A finite nonzero image that is not a pseudo-denormal: the canonical images of R129. -/
def canonicalNonzero (x : Image) : Bool :=
  classify x == .normal || (isDenormal x && !integerBit x)

/-- The value, rounded to a 64-bit significand with an unbounded exponent, is below `2^e` in magnitude: the test of
overflow at `e = 16384` and of a tiny result at `e = -16382` (R125 to R127). The greatest such significand below `2^e` is
`2^e - 2^(e-64)`, and `2^e - 2^(e-65)` is the tie, which goes up to the even one. -/
def roundsBelow (v : ℚ) (rc : RoundingMode) (e : ℤ) : Prop :=
  match rc with
  | .nearestEven => |v| < (2 : ℚ) ^ e - (2 : ℚ) ^ (e - 65)
  | .towardZero => |v| < (2 : ℚ) ^ e
  | .up => if v < 0 then |v| < (2 : ℚ) ^ e else |v| ≤ (2 : ℚ) ^ e - (2 : ℚ) ^ (e - 64)
  | .down => if v < 0 then |v| ≤ (2 : ℚ) ^ e - (2 : ℚ) ^ (e - 64) else |v| < (2 : ℚ) ^ e

/-- What every step keeps: the parameters meet R8's constraints, a register nothing has written still holds its reset
value (R41, R42; the flags excepted, which a command may add to), and the registers only commands write are written
together: `Q` never without `CC`, `CC` never without `A` (R35, R36, R40). -/
structure State.Inv (s : State) : Prop where
  legal : s.par.legal = true
  unwrittenA : s.written.a = false → s.a = State.reset.a
  unwrittenB : s.written.b = false → s.b = State.reset.b
  unwrittenR : s.written.r = false → s.r = State.reset.r
  unwrittenRc : s.written.rc = false → s.ctx.rc = State.reset.ctx.rc
  unwrittenPc : s.written.pc = false → s.ctx.pc = State.reset.ctx.pc
  unwrittenCc : s.written.cc = false → s.cc = State.reset.cc
  unwrittenQ : s.written.q = false → s.q = State.reset.q
  qWithCc : s.written.q = true → s.written.cc = true
  ccWithA : s.written.cc = true → s.written.a = true

/-- The unit in the last place of a true result `t`: `2^(ilog2(t) - 63)`, or `2^-16445` when `t` is tiny (R166). -/
noncomputable def ulpOf (t : ℝ) : ℝ :=
  (2 : ℝ) ^ (max (Int.log 2 |t|) (-16382) - 63)

/-- The value of the result a command writes under RN for a kernel value `v`: that of the rounded image, or, where that is
an infinity and has no value, of step 1 of R125, the rounding with an unbounded exponent (log entry 11). -/
def roundedValue (v : Rat) : Rat :=
  let z := (roundT v false .nearestEven).1
  let me := roundUnbounded (absQ v) (sgnQ v) .nearestEven
  if isFinite z then val z else applySign (sgnQ v) (me.1 * pow2 (me.2 - 63))

/-- The result under RN for a kernel value `v` lies within `n` units in the last place of `t` (R166). -/
def WithinUlps (n : Nat) (v : Rat) (t : ℝ) : Prop :=
  |(roundedValue v : ℝ) - t| ≤ n * ulpOf t

/-- `ULP_2XM1 = 1` on the domain of F2XM1 (R163, R166, R223): the result is finite and within one unit in the last
place. -/
def AccurateF2xm1 (k : KernelFns) : Prop :=
  ∀ x, isFinite x = true → val x ≠ 0 → |val x| ≤ 1 →
    isFinite (roundX (k.k2xm1 (val x)) .nearestEven true).1 = true ∧
      WithinUlps 1 (k.k2xm1 (val x)) ((2 : ℝ) ^ (val x : ℝ) - 1)

/-- The accuracy law of FYL2X's kernel path with bound `n` (R166, R231). -/
def AccurateFyl2x (k : KernelFns) (n : Nat) : Prop :=
  ∀ x y, isFinite x = true → isFinite y = true → 0 < val x → val y ≠ 0 → log2Exact (val x) = none →
    WithinUlps n (val y * k.kLog2 (val x)) (val y * Real.logb 2 (val x))

/-- The accuracy law of FYL2XP1 inside its domain with bound `n` (R166, R232). -/
def AccurateFyl2xp1 (k : KernelFns) (n : Nat) : Prop :=
  ∀ x y, isFinite x = true → isFinite y = true → val x ≠ 0 → |val x| ≤ k.log2p1Bound → val y ≠ 0 →
    WithinUlps n (val y * k.kLog2p1 (val x)) (val y * Real.logb 2 (1 + val x))

/-- The true angle of R268, composed with `CONST_PI` in the place of pi (R166). -/
noncomputable def trueAngle (constPi : Rat) (y x : Image) : ℝ :=
  let ay : ℝ := |val y|
  let ax : ℝ := |val x|
  let theta := atanCompose (constPi / 2 : ℝ) (constPi : ℝ) (Real.arctan (min ay ax / max ay ax))
    (decide (absQ (val y) ≤ absQ (val x))) (signBit x)
  if signBit y then -theta else theta

/-- The accuracy law of FPATAN's general path with bound `n` (R166). -/
def AccurateFpatan (k : KernelFns) (constPi : Rat) (n : Nat) : Prop :=
  ∀ y x, isFinite y = true → isFinite x = true → val y ≠ 0 → val x ≠ 0 →
    WithinUlps n (applySign (signBit y) (atanTheta k constPi y x)) (trueAngle constPi y x)

/-- The true sine and cosine of an operand of magnitude `a`, by the reduction of R284 with `CONST_PI` in the place of pi
(R166, R285). -/
noncomputable def trueSinCos (p : Params) (a : Rat) : ℝ × ℝ :=
  quadrant (trigQuotient p a) (Real.sin (trigResidue p a)) (Real.cos (trigResidue p a))

/-- The sine and cosine the kernels give (R285). -/
def kernelSinCos (k : KernelFns) (p : Params) (a : Rat) : Rat × Rat :=
  quadrant (trigQuotient p a) (k.kSin p.constPi (trigResidue p a)) (k.kCos p.constPi (trigResidue p a))

/-- The accuracy laws of the trig commands with their bounds, for operands reduced in one step (R166). The sign of the
operand only changes the sign of both sides. A zero cosine is FTAN's invalid case and no result (R294). -/
def AccurateTrig (k : KernelFns) (p : Params) (nSin nCos nTan : Nat) : Prop :=
  ∀ x, isFinite x = true → val x ≠ 0 → ilog2 (val x) ≤ p.threshold →
    WithinUlps nSin (kernelSinCos k p |val x|).1 (trueSinCos p |val x|).1 ∧
    WithinUlps nCos (kernelSinCos k p |val x|).2 (trueSinCos p |val x|).2 ∧
    ((kernelSinCos k p |val x|).2 ≠ 0 →
      WithinUlps nTan ((kernelSinCos k p |val x|).1 / (kernelSinCos k p |val x|).2)
        ((trueSinCos p |val x|).1 / (trueSinCos p |val x|).2))

/-- All accuracy laws of R166 for the machine's kernels, its bounds and given parameters: a named property a proof may
assume, never one it may use unnamed. -/
def AccuracyLaws (p : Params) : Prop :=
  AccurateF2xm1 Config.kernels.toKernelFns ∧
  AccurateFyl2x Config.kernels.toKernelFns Config.ulpBounds.ulpL2 ∧
  AccurateFyl2xp1 Config.kernels.toKernelFns Config.ulpBounds.ulpL2p1 ∧
  AccurateFpatan Config.kernels.toKernelFns p.constPi Config.ulpBounds.ulpAtan ∧
  AccurateTrig Config.kernels.toKernelFns p Config.ulpBounds.ulpSin Config.ulpBounds.ulpCos Config.ulpBounds.ulpTan

/-- The machine's sine and cosine kernels are the reference engine on the machine's ROM (R156): a named property a proof may
assume (R159). -/
def UsesReferenceEngine : Prop :=
  ∀ constPi r, Config.kernels.kSin constPi r = refSin Config.rom r ∧ Config.kernels.kCos constPi r = refCos Config.rom r

end Sys2Proof.Machine
end

