-- ==== Sys2Proof/Certificates/Slice0/Obligations.lean ====
section
/-! DEFINITION. The statements about the TXU: encoding, the float80 format, rounding, each command's results with their
complete frame (the `after…` states of Safety say every field), and the rules of the whole machine. Free values
(`Config.kernels`, `Config.freeImage`, `Config.freeFlags`) are opaque, so each statement holds whatever they are. -/

open Sys2Proof
open Sys2Proof.Machine

/-! Encoding and host layouts -/

/-- The twelve rows of the opcode map of R82, each as its listing byte of R91. -/
def Obligations.SpecWordsDecode : Prop :=
  decode 0x00#8 = .instr .abs ∧ decode 0x01#8 = .instr .negate ∧
  decode 0x02#8 = .instr .remIeee ∧ decode 0x03#8 = .instr .remLegacy ∧
  decode 0x04#8 = .instr .f2xm1 ∧ decode 0x05#8 = .instr .fyl2x ∧
  decode 0x06#8 = .instr .fyl2xp1 ∧ decode 0x07#8 = .instr .fpatan ∧
  decode 0x08#8 = .instr .fsin ∧ decode 0x09#8 = .instr .fcos ∧
  decode 0x0A#8 = .instr .ftan ∧ decode 0x0B#8 = .instr .fsincos

/-- A byte decodes to a command exactly when it is that command's encoding: no bit of an encoding is dropped, no two
commands overlap and no other byte is a command (R81, R82, R91). That a byte with a nonzero high nibble is no command is
the model's reading of the listing format (log entry 7). -/
def Obligations.DecodeInvertsEncode : Prop :=
  ∀ (byte : Byte) (i : Instr), i.wf = true → (decode byte = .instr i ↔ byte = encode i)

/-- Issuing one of the codes `0xC` to `0xF` is refused by name, whatever the state (R84). -/
def Obligations.ReservedCodeRefused : Prop :=
  ∀ (s : State) (op : Code) (rest : List HostOp), 0xC#4 ≤ op → s.port = .issue (0#4 ++ op) :: rest →
    step s = .refused (.reservedCode op)

/-- An image written to memory in either byte order and read back is the image; little-endian, the default of `BYTE_ORDER`,
puts bits `8i+7 .. 8i` in byte `i` (R8, R61). That big-endian is the reverse is the model's reading (log entry 10). -/
def Obligations.ImageBytesRoundTrip : Prop :=
  ∀ (x : Image), (∀ order, imageOfBytes order (imageBytes order x) = x) ∧
    (∀ order, (imageBytes order x).length = 10) ∧
    (∀ i, i < 10 → (imageBytes .little x)[i]? = some (x.extractLsb' (8 * i) 8)) ∧
    (∀ i, i < 10 → (imageBytes .big x)[i]? = some (x.extractLsb' (8 * (9 - i)) 8)) ∧
    (∀ p : Params, loadImage p (storeImage p x) = x) ∧
    (∀ i, i < 10 → (storeImage Params.default x)[i]? = some (x.extractLsb' (8 * i) 8))

/-! The float80 format -/

/-- The classes by their fields, and the values of the finite ones (R21 to R26). -/
def Obligations.ClassesFollowFields : Prop :=
  ∀ x : Image,
    (classify x = .normal ↔ 1 ≤ (expField x).toNat ∧ (expField x).toNat ≤ 0x7FFE ∧ x.getLsbD 63 = true) ∧
    (classify x = .zero ↔ (expField x).toNat = 0 ∧ (sigField x).toNat = 0) ∧
    (classify x = .denormal ↔ (expField x).toNat = 0 ∧ (sigField x).toNat ≠ 0) ∧
    (classify x = .inf ↔ (expField x).toNat = 0x7FFF ∧ (sigField x).toNat = 2 ^ 63) ∧
    (classify x = .qnan ↔ (expField x).toNat = 0x7FFF ∧ x.getLsbD 63 = true ∧ x.getLsbD 62 = true) ∧
    (classify x = .snan ↔ (expField x).toNat = 0x7FFF ∧ x.getLsbD 63 = true ∧ x.getLsbD 62 = false ∧
      (sigField x).toNat ≠ 2 ^ 63) ∧
    (classify x = .unsupported ↔ 1 ≤ (expField x).toNat ∧ x.getLsbD 63 = false) ∧
    (classify x = .normal → val x = (if x.getLsbD 79 then -1 else 1) *
      ((sigField x).toNat * (2 : ℚ) ^ (((expField x).toNat : ℤ) - 16383 - 63))) ∧
    (classify x = .denormal → val x = (if x.getLsbD 79 then -1 else 1) *
      ((sigField x).toNat * (2 : ℚ) ^ (-16445 : ℤ)))

/-- `quiet(x)` sets bit 62 and nothing else, makes every NaN a quiet NaN, and leaves a quiet NaN alone (R25). -/
def Obligations.QuietSetsBit62 : Prop :=
  ∀ x : Image, (∀ i, i < 80 → (quiet x).getLsbD i = (x.getLsbD i || i == 62)) ∧
    (isNan x = true → classify (quiet x) = .qnan) ∧ (classify x = .qnan → quiet x = x)

/-- Every finite nonzero canonical image is `RoundX` of its own value, in every mode and with no flag: the encoding loses
nothing. A finite result raises PE exactly when it is inexact or forced, and UE beside it exactly when it is also tiny
after rounding; a result that is an infinity raises OE and PE; IE, DE and ZE are never raised (R125, R127, R129). -/
def Obligations.RoundXFixesRepresentable : Prop :=
  (∀ (x : Image) (rc : RoundingMode), canonicalNonzero x = true → roundX (val x) rc false = (x, noFlags)) ∧
  ∀ (v : ℚ) (rc : RoundingMode) (force : Bool), v ≠ 0 →
    let zf := roundX v rc force
    (isFinite zf.1 = true → (hasFlag zf.2 .pe = true ↔ val zf.1 ≠ v ∨ force = true) ∧
      (hasFlag zf.2 .ue = true ↔ roundsBelow v rc (-16382) ∧ (val zf.1 ≠ v ∨ force = true))) ∧
    (isFinite zf.1 = false → isInf zf.1 = true ∧ zf.2 = OE ||| PE) ∧
    ∀ f ∈ [Flag.ie, .de, .ze], hasFlag zf.2 f = false

/-- Under RN the result, where it is finite, is a nearest finite float80 value, and of two nearest values the one whose
significand is even (R122, R125, R127). -/
def Obligations.RoundXNearest : Prop :=
  ∀ (v : ℚ) (force : Bool), v ≠ 0 → isFinite (roundX v .nearestEven force).1 = true →
    let z := (roundX v .nearestEven force).1
    ∀ y : Image, isFinite y = true → |val z - v| ≤ |val y - v| ∧
      (|val y - v| = |val z - v| → val y ≠ val z → z.getLsbD 0 = false)

/-- The directed modes: RZ never away from zero, RD never up, RU never down, and no finite float80 value lies strictly
between the value and its rounding (R122, R125 to R127). -/
def Obligations.RoundXDirected : Prop :=
  ∀ (v : ℚ) (rc : RoundingMode) (force : Bool), v ≠ 0 → isFinite (roundX v rc force).1 = true →
    (rc = .towardZero → |val (roundX v rc force).1| ≤ |v|) ∧
    (rc = .down → val (roundX v rc force).1 ≤ v) ∧
    (rc = .up → v ≤ val (roundX v rc force).1) ∧
    ∀ y : Image, isFinite y = true →
      ¬(v < val y ∧ val y < val (roundX v rc force).1) ∧ ¬(val (roundX v rc force).1 < val y ∧ val y < v)

/-- OE is raised exactly when the value rounded with an unbounded exponent reaches `2^16384`, and then the result is
R126's image of the mode with OE and PE (R125, R126). -/
def Obligations.OverflowResultByMode : Prop :=
  ∀ (v : ℚ) (force : Bool), v ≠ 0 →
    (∀ rc, hasFlag (roundX v rc force).2 .oe = true ↔ ¬roundsBelow v rc 16384) ∧
    (¬roundsBelow v .nearestEven 16384 → roundX v .nearestEven force = (infImage (decide (v < 0)), OE ||| PE)) ∧
    (¬roundsBelow v .towardZero 16384 → roundX v .towardZero force =
      (if v < 0 then 0xFFFEFFFFFFFFFFFFFFFF#80 else 0x7FFEFFFFFFFFFFFFFFFF#80, OE ||| PE)) ∧
    (¬roundsBelow v .up 16384 → roundX v .up force =
      (if v < 0 then 0xFFFEFFFFFFFFFFFFFFFF#80 else 0x7FFF8000000000000000#80, OE ||| PE)) ∧
    (¬roundsBelow v .down 16384 → roundX v .down force =
      (if v < 0 then 0xFFFF8000000000000000#80 else 0x7FFEFFFFFFFFFFFFFFFF#80, OE ||| PE))

/-- Rounding the negated value in the mirrored mode gives the negated image and the same flags (R152). -/
def Obligations.RoundXMirrors : Prop :=
  ∀ (v : ℚ) (force : Bool), v ≠ 0 →
    (∀ rc, rc = .nearestEven ∨ rc = .towardZero →
      roundX (-v) rc force = ((roundX v rc force).1 ^^^ (1#80 <<< 79), (roundX v rc force).2)) ∧
    roundX (-v) .down force = ((roundX v .up force).1 ^^^ (1#80 <<< 79), (roundX v .up force).2) ∧
    roundX (-v) .up force = ((roundX v .down force).1 ^^^ (1#80 <<< 79), (roundX v .down force).2)

/-! The sign utilities -/

/-- ABS: `R` is `A` with bit 79 cleared; nothing else changes and nothing is raised (R112). -/
def Obligations.AbsClearsSign : Prop :=
  ∀ s : State, exec .abs s = .next
    { s with r := s.a &&& 0x7FFFFFFFFFFFFFFFFFFF#80, written := { s.written with r := true } }

/-- NEGATE: `R` is `A` with bit 79 flipped; nothing else changes and nothing is raised; twice, with MOVAR between, it
restores the image (R113). That MOVAR is one step is the model's choice (log entry 6). -/
def Obligations.NegateFlipsSign : Prop :=
  (∀ s : State, exec .negate s = .next
    { s with r := s.a ^^^ (1#80 <<< 79), written := { s.written with r := true } }) ∧
  ∀ (s : State) (rest : List HostOp), s.port = .issue 0x01#8 :: .movAR :: .issue 0x01#8 :: rest →
    ∃ t, core.run 3 s = .next t ∧ t.r = s.a ∧ t.port = rest

/-! Operands that every command but ABS and NEGATE rejects -/

/-- An unsupported operand: IE, `DEFAULT_NAN` in each result register, Invalid and a zero `Q` where the command has them,
and nothing else (R118). -/
def Obligations.UnsupportedOperand : Prop :=
  ∀ s : State,
    (isUnsupported s.a = true → exec .f2xm1 s = .next (s.afterByValue s.par.defaultNan IE)) ∧
    (∀ i ∈ [Instr.fyl2x, .fyl2xp1, .fpatan], (isUnsupported s.a = true ∨ isUnsupported s.b = true) →
      exec i s = .next (s.afterByValue s.par.defaultNan IE)) ∧
    (∀ i ∈ [Instr.remIeee, .remLegacy], (isUnsupported s.a = true ∨ isUnsupported s.b = true) →
      exec i s = .next (s.afterRem s.par.defaultNan .invalid 0 IE)) ∧
    (∀ i ∈ [Instr.fsin, .fcos, .ftan], isUnsupported s.a = true →
      exec i s = .next (s.afterTrig s.par.defaultNan .invalid IE)) ∧
    (isUnsupported s.a = true →
      exec .fsincos s = .next (s.afterSincos s.par.defaultNan s.par.defaultNan .invalid IE))

/-- A NaN operand of a remainder or trig command, quiet or signaling: the NaN of `A` first, quieted, with IE and Invalid
(R117 (a), R182, R281). -/
def Obligations.NanOperandInPlace : Prop :=
  ∀ s : State,
    (∀ i ∈ [Instr.remIeee, .remLegacy], isUnsupported s.a = false → isUnsupported s.b = false →
      (isNan s.a = true ∨ isNan s.b = true) →
      exec i s = .next (s.afterRem (if isNan s.a then quiet s.a else quiet s.b) .invalid 0 IE)) ∧
    (∀ i ∈ [Instr.fsin, .fcos, .ftan], isNan s.a = true → exec i s = .next (s.afterTrig (quiet s.a) .invalid IE)) ∧
    (isNan s.a = true → exec .fsincos s = .next (s.afterSincos (quiet s.a) (quiet s.a) .invalid IE))

/-- A NaN operand of a by-value command: the NaN of `A` first, quieted, with IE exactly when an operand is signaling
(R115, R116, R117 (b)). FYL2X sees a NaN in `B` only when `A` is positive: otherwise R227 decides. -/
def Obligations.NanOperandByValue : Prop :=
  ∀ s : State,
    (isNan s.a = true →
      exec .f2xm1 s = .next (s.afterByValue (quiet s.a) (if classify s.a = .snan then IE else noFlags))) ∧
    (∀ i ∈ [Instr.fyl2x, .fyl2xp1, .fpatan], isUnsupported s.b = false → isNan s.a = true →
      exec i s = .next (s.afterByValue (quiet s.a)
        (if classify s.a = .snan ∨ classify s.b = .snan then IE else noFlags))) ∧
    (∀ i ∈ [Instr.fyl2x, .fyl2xp1, .fpatan], isUnsupported s.a = false → isNan s.a = false → isNan s.b = true →
      (i = .fyl2x → isZero s.a = false ∧ signBit s.a = false) →
      exec i s = .next (s.afterByValue (quiet s.b) (if classify s.b = .snan then IE else noFlags)))

/-! The remainder engine -/

/-- A zero divisor or an infinite dividend: IE, `DEFAULT_NAN`, Invalid, `Q = 0` (R183). -/
def Obligations.RemInvalidOperands : Prop :=
  ∀ (i : Instr) (s : State), i = .remIeee ∨ i = .remLegacy →
    isUnsupported s.a = false → isUnsupported s.b = false → isNan s.a = false → isNan s.b = false →
    (isZero s.b = true ∨ isInf s.a = true) →
    exec i s = .next (s.afterRem s.par.defaultNan .invalid 0 IE)

/-- An infinite divisor or a zero dividend: `A` unchanged bit for bit, Complete, `Q = 0`, no flag (R185). -/
def Obligations.RemExactSpecialCases : Prop :=
  ∀ (i : Instr) (s : State), i = .remIeee ∨ i = .remLegacy →
    (isFinite s.a = true ∧ isInf s.b = true) ∨
      (isZero s.a = true ∧ isFinite s.b = true ∧ isZero s.b = false) →
    exec i s = .next (s.afterRem s.a .complete 0 noFlags)

/-- REM_IEEE, full reduction: the remainder is exact, its quotient the nearest integer with ties to even, `Q` the low
three bits of the quotient's magnitude, a zero remainder has the sign of the dividend (R187 to R189, R192). -/
def Obligations.RemIeeeFullReduction : Prop :=
  ∀ s : State, isFinite s.a = true → isFinite s.b = true → isZero s.a = false → isZero s.b = false →
    ilog2 (val s.a) - ilog2 (val s.b) ≤ s.par.threshold →
    ∃ (n : ℤ) (z : Image),
      exec .remIeee s = .next (s.afterRem z .complete (BitVec.ofNat 3 n.natAbs)
        (if isDenormal s.a = true ∨ isDenormal s.b = true then DE else noFlags)) ∧
      isFinite z = true ∧ val z = val s.a - n * val s.b ∧
      2 * |val z| ≤ |val s.b| ∧ (2 * |val z| = |val s.b| → n % 2 = 0) ∧
      (val z = 0 → z = zeroImage (signBit s.a)) ∧ (val z ≠ 0 → canonicalNonzero z = true)

/-- REM_LEGACY, full reduction: the remainder is exact, smaller than the divisor and of the dividend's sign, so that the
quotient is the truncated one (R187 to R189, R191, R192). -/
def Obligations.RemLegacyFullReduction : Prop :=
  ∀ s : State, isFinite s.a = true → isFinite s.b = true → isZero s.a = false → isZero s.b = false →
    ilog2 (val s.a) - ilog2 (val s.b) ≤ s.par.threshold →
    ∃ (n : ℤ) (z : Image),
      exec .remLegacy s = .next (s.afterRem z .complete (BitVec.ofNat 3 n.natAbs)
        (if isDenormal s.a = true ∨ isDenormal s.b = true then DE else noFlags)) ∧
      isFinite z = true ∧ val z = val s.a - n * val s.b ∧ |val z| < |val s.b| ∧ signBit z = signBit s.a ∧
      (val z = 0 → z = zeroImage (signBit s.a)) ∧ (val z ≠ 0 → canonicalNonzero z = true)

/-- The partial step of both commands: the truncated multiple of the divisor scaled to `S` binades below the dividend is
subtracted exactly, the sign of the dividend is kept, `Q` is the partial quotient mod 8, and the partial quotient has
`S` or `S + 1` bits (R186, R189). -/
def Obligations.RemPartialStep : Prop :=
  ∀ (i : Instr) (s : State), i = .remIeee ∨ i = .remLegacy → s.par.legal = true →
    isFinite s.a = true → isFinite s.b = true → isZero s.a = false → isZero s.b = false →
    (s.par.threshold : ℤ) < ilog2 (val s.a) - ilog2 (val s.b) →
    let m : ℚ := |val s.b| * (2 : ℚ) ^ (ilog2 (val s.a) - ilog2 (val s.b) - s.par.partialStep)
    ∃ (np : ℕ) (z : Image),
      exec i s = .next (s.afterRem z .partialReductionNeeded (BitVec.ofNat 3 np)
        (if isDenormal s.a = true ∨ isDenormal s.b = true then DE else noFlags)) ∧
      isFinite z = true ∧ |val z| = |val s.a| - np * m ∧ |val z| < m ∧ signBit z = signBit s.a ∧
      2 ^ (s.par.partialStep - 1) ≤ np ∧ np < 2 ^ (s.par.partialStep + 1) ∧
      (val z = 0 → z = zeroImage (signBit s.a)) ∧ (val z ≠ 0 → canonicalNonzero z = true)

/-- A partial step lowers the exponent difference by at least `S` or ends at zero, and changes the dividend by a multiple
of eight divisors, so that the remainder, the parity and the low quotient bits of the whole chain survive (R194,
R195). -/
def Obligations.RemPartialStepSurvives : Prop :=
  ∀ (i : Instr) (s t : State), i = .remIeee ∨ i = .remLegacy → s.par.legal = true →
    isFinite s.a = true → isFinite s.b = true → isZero s.a = false → isZero s.b = false →
    (s.par.threshold : ℤ) < ilog2 (val s.a) - ilog2 (val s.b) → exec i s = .next t →
    (∃ k : ℤ, val s.a - val t.a = 8 * k * val s.b) ∧
    (isZero t.a = true ∨ ilog2 (val t.a) - ilog2 (val t.b) + s.par.partialStep ≤ ilog2 (val s.a) - ilog2 (val s.b))

/-- The mandatory retry loop over a remainder command ends, after at most `ceil((D - T)/S)` partial steps and one more
command, with the loop done and `CC` not PartialReductionNeeded (R194, R356). That the host's loop is one item of a list
and one pass of it one step is the model's choice (log entry 6). -/
def Obligations.RemRetryLoopEnds : Prop :=
  ∀ (s : State) (byte : Byte) (rest : List HostOp), byte = encode .remIeee ∨ byte = encode .remLegacy →
    s.par.legal = true → s.port = .reduce byte :: rest →
    ∃ (k : ℕ) (t : State), core.run (k + 1) s = .next t ∧ t.port = rest ∧ t.cc ≠ .partialReductionNeeded ∧
      k * s.par.partialStep ≤
        (ilog2 (val s.a) - ilog2 (val s.b) - s.par.threshold).toNat + (s.par.partialStep - 1)

/-! F2XM1, FYL2X, FYL2XP1 -/

/-- F2XM1 is exact at zero, at `1` and at `-1`, with no flag (R222 to R224). -/
def Obligations.F2xm1ExactCases : Prop :=
  ∀ s : State,
    (isZero s.a = true → exec .f2xm1 s = .next (s.afterByValue s.a noFlags)) ∧
    (isFinite s.a = true → val s.a = 1 → exec .f2xm1 s = .next (s.afterByValue 0x3FFF8000000000000000#80 noFlags)) ∧
    (isFinite s.a = true → val s.a = -1 → exec .f2xm1 s = .next (s.afterByValue 0xBFFE8000000000000000#80 noFlags))

/-- F2XM1 of every other finite operand: the kernel's value rounded once, PE always, DE for a denormal; `R` has the sign
of `A` (R163, R223). -/
def Obligations.F2xm1GeneralPath : Prop :=
  ∀ s : State, isFinite s.a = true → isZero s.a = false → val s.a ≠ 1 → val s.a ≠ -1 →
    let zf := roundX (Config.kernels.k2xm1 (val s.a)) s.rounding true
    exec .f2xm1 s = .next (s.afterByValue zf.1 ((if isDenormal s.a = true then DE else noFlags) ||| zf.2)) ∧
      hasFlag zf.2 .pe = true ∧ signBit zf.1 = signBit s.a

/-- F2XM1 of an infinity completes with a free image and free flags and changes nothing else (R225). The form of the free
draw, with the counter that advances, is the model's choice (log entry 5). -/
def Obligations.F2xm1OfInfinity : Prop :=
  ∀ s : State, isInf s.a = true → exec .f2xm1 s = .next s.afterUndefined

/-- FYL2X of a zero, a negative number or minus infinity: always IE and a NaN; ZE beside it exactly for a zero `x` whose
`y` is not a NaN (R227). -/
def Obligations.Fyl2xNonPositive : Prop :=
  ∀ s : State, isUnsupported s.a = false → isUnsupported s.b = false → isNan s.a = false →
    (isZero s.a = true ∨ signBit s.a = true) →
    (isNan s.b = true → exec .fyl2x s = .next (s.afterByValue (quiet s.b) IE)) ∧
    (isNan s.b = false → isZero s.a = true → exec .fyl2x s = .next (s.afterByValue s.par.defaultNan (IE ||| ZE))) ∧
    (isNan s.b = false → isZero s.a = false → exec .fyl2x s = .next (s.afterByValue s.par.defaultNan IE))

/-- FYL2X of one: a zero with the sign of `y` and no flag, not even DE; invalid for an infinite `y` (R228). -/
def Obligations.Fyl2xOfOne : Prop :=
  ∀ s : State, isFinite s.a = true → val s.a = 1 →
    (isFinite s.b = true → exec .fyl2x s = .next (s.afterByValue (zeroImage (signBit s.b)) noFlags)) ∧
    (isInf s.b = true → exec .fyl2x s = .next (s.afterByValue s.par.defaultNan IE))

/-- FYL2X with infinities and with a zero `y` (R229). -/
def Obligations.Fyl2xInfinityAndZero : Prop :=
  ∀ s : State,
    (isInf s.a = true → signBit s.a = false → isZero s.b = true →
      exec .fyl2x s = .next (s.afterByValue s.par.defaultNan IE)) ∧
    (isInf s.a = true → signBit s.a = false → isZero s.b = false → (isFinite s.b = true ∨ isInf s.b = true) →
      exec .fyl2x s = .next (s.afterByValue (infImage (signBit s.b)) noFlags)) ∧
    (isFinite s.a = true → 1 < val s.a → isInf s.b = true →
      exec .fyl2x s = .next (s.afterByValue (infImage (signBit s.b)) noFlags)) ∧
    (isFinite s.a = true → 0 < val s.a → val s.a < 1 → isInf s.b = true →
      exec .fyl2x s = .next (s.afterByValue (infImage (!signBit s.b)) noFlags)) ∧
    (isFinite s.a = true → 1 < val s.a → isZero s.b = true →
      exec .fyl2x s = .next (s.afterByValue (zeroImage (signBit s.b)) noFlags)) ∧
    (isFinite s.a = true → 0 < val s.a → val s.a < 1 → isZero s.b = true →
      exec .fyl2x s = .next (s.afterByValue (zeroImage (!signBit s.b)) noFlags))

/-- FYL2X with `x` a power of two other than one: the exact product rounded once, PE not forced (R230). -/
def Obligations.Fyl2xPowerOfTwo : Prop :=
  ∀ (s : State) (k : ℤ), isFinite s.a = true → val s.a = (2 : ℚ) ^ k → k ≠ 0 →
    isFinite s.b = true → isZero s.b = false →
    let zf := roundX (val s.b * k) s.rounding false
    (-16445 ≤ k ∧ k ≤ 16383) ∧
    exec .fyl2x s = .next (s.afterByValue zf.1
      ((if isDenormal s.a = true ∨ isDenormal s.b = true then DE else noFlags) ||| zf.2))

/-- FYL2X of a positive `x` that is no power of two and a finite nonzero `y`: the exact product of `y` and the kernel's
value, rounded once, PE always; the sign is that of `y`, flipped when `x < 1` (R164, R231). -/
def Obligations.Fyl2xGeneralPath : Prop :=
  ∀ s : State, isFinite s.a = true → 0 < val s.a → (∀ k : ℤ, val s.a ≠ (2 : ℚ) ^ k) →
    isFinite s.b = true → isZero s.b = false →
    let zf := roundX (val s.b * Config.kernels.kLog2 (val s.a)) s.rounding true
    exec .fyl2x s = .next (s.afterByValue zf.1
      ((if isDenormal s.a = true ∨ isDenormal s.b = true then DE else noFlags) ||| zf.2)) ∧
      hasFlag zf.2 .pe = true ∧ signBit zf.1 = (signBit s.b ^^ decide (val s.a < 1))

/-- FYL2XP1 of a zero `x`: a zero whose sign is the exclusive or of the signs, no flag; invalid for an infinite `y`
(R234, R235). -/
def Obligations.Fyl2xp1OfZero : Prop :=
  ∀ s : State, isZero s.a = true →
    (isFinite s.b = true →
      exec .fyl2xp1 s = .next (s.afterByValue (zeroImage (signBit s.a ^^ signBit s.b)) noFlags)) ∧
    (isInf s.b = true → exec .fyl2xp1 s = .next (s.afterByValue s.par.defaultNan IE))

/-- FYL2XP1 of a finite nonzero `x` inside the domain, for any lawful kernels and bound (the machine's are
`Config.kernels`): an infinite `y` gives a signed infinity, a zero `y` a signed zero and any other finite `y` the exact
product rounded once with PE, of the sign of `x` times `y` (R165, R232 to R235). -/
def Obligations.Fyl2xp1InsideDomain : Prop :=
  (∀ s : State, exec .fyl2xp1 s = .next (fyl2xp1With Config.kernels.toKernelFns s)) ∧
  ∀ (k : Kernels) (s : State), isFinite s.a = true → isZero s.a = false → |val s.a| ≤ k.log2p1Bound →
    let zf := roundX (val s.b * k.kLog2p1 (val s.a)) s.rounding true
    (isInf s.b = true → fyl2xp1With k.toKernelFns s =
      s.afterByValue (infImage (signBit s.a ^^ signBit s.b)) noFlags) ∧
    (isZero s.b = true → fyl2xp1With k.toKernelFns s =
      s.afterByValue (zeroImage (signBit s.a ^^ signBit s.b)) noFlags) ∧
    (isFinite s.b = true → isZero s.b = false →
      fyl2xp1With k.toKernelFns s = s.afterByValue zf.1
        ((if isDenormal s.a = true ∨ isDenormal s.b = true then DE else noFlags) ||| zf.2) ∧
      hasFlag zf.2 .pe = true ∧ signBit zf.1 = (signBit s.a ^^ signBit s.b))

/-- FYL2XP1 outside the domain, whatever `y` is (but a NaN or an unsupported image): a free image, free flags and nothing
else (R236). The form of the free draw, with the counter that advances, is the model's choice (log entry 5). -/
def Obligations.Fyl2xp1OutsideDomain : Prop :=
  ∀ s : State, (isInf s.a = true ∨ (isFinite s.a = true ∧ Config.kernels.log2p1Bound < |val s.a|)) →
    isUnsupported s.b = false → isNan s.b = false → exec .fyl2xp1 s = .next s.afterUndefined

/-! FPATAN -/

/-- FPATAN of two zeros, of any signs: IE and `DEFAULT_NAN`, no other flag (R263). -/
def Obligations.FpatanTwoZeros : Prop :=
  ∀ s : State, isZero s.a = true → isZero s.b = true →
    exec .fpatan s = .next (s.afterByValue s.par.defaultNan IE)

/-- FPATAN on the axes: one zero or infinite operand, or two infinities. Each multiple of pi is the stored constant's
multiple rounded once, with the sign of `y` (R261, R264, R265, R266). -/
def Obligations.FpatanAxes : Prop :=
  ∀ s : State,
    let pi (k : ℚ) := roundX ((if signBit s.a then -1 else 1) * (k * s.par.constPi / 4)) s.rounding true
    (isFinite s.a = true → isZero s.a = false → isZero s.b = true →
      exec .fpatan s = .next (s.afterByValue (pi 2).1 (pi 2).2)) ∧
    (isZero s.a = true → isFinite s.b = true → isZero s.b = false → signBit s.b = false →
      exec .fpatan s = .next (s.afterByValue (zeroImage (signBit s.a)) noFlags)) ∧
    (isZero s.a = true → isFinite s.b = true → isZero s.b = false → signBit s.b = true →
      exec .fpatan s = .next (s.afterByValue (pi 4).1 (pi 4).2)) ∧
    (isInf s.a = true → isFinite s.b = true → exec .fpatan s = .next (s.afterByValue (pi 2).1 (pi 2).2)) ∧
    (isFinite s.a = true → isInf s.b = true → signBit s.b = false →
      exec .fpatan s = .next (s.afterByValue (zeroImage (signBit s.a)) noFlags)) ∧
    (isFinite s.a = true → isInf s.b = true → signBit s.b = true →
      exec .fpatan s = .next (s.afterByValue (pi 4).1 (pi 4).2)) ∧
    (isInf s.a = true → isInf s.b = true → signBit s.b = false →
      exec .fpatan s = .next (s.afterByValue (pi 1).1 (pi 1).2)) ∧
    (isInf s.a = true → isInf s.b = true → signBit s.b = true →
      exec .fpatan s = .next (s.afterByValue (pi 3).1 (pi 3).2))

/-- FPATAN's general path: the table of R268, one rounding, PE always; the angle lies in the quadrant's range and the
result has the sign of `y` (R162, R267, R268). -/
def Obligations.FpatanGeneralPath : Prop :=
  ∀ s : State, s.par.legal = true →
    isFinite s.a = true → isZero s.a = false → isFinite s.b = true → isZero s.b = false →
    ∃ theta : ℚ,
      (|val s.a| ≤ |val s.b| → signBit s.b = false →
        theta = Config.kernels.kAtan s.par.constPi |val s.a| |val s.b| ∧ 0 < theta ∧ theta ≤ s.par.constPi / 4) ∧
      (|val s.b| < |val s.a| → signBit s.b = false →
        theta = s.par.constPi / 2 - Config.kernels.kAtan s.par.constPi |val s.b| |val s.a| ∧
          s.par.constPi / 4 ≤ theta ∧ theta < s.par.constPi / 2) ∧
      (|val s.b| < |val s.a| → signBit s.b = true →
        theta = s.par.constPi / 2 + Config.kernels.kAtan s.par.constPi |val s.b| |val s.a| ∧
          s.par.constPi / 2 < theta ∧ theta ≤ 3 * s.par.constPi / 4) ∧
      (|val s.a| ≤ |val s.b| → signBit s.b = true →
        theta = s.par.constPi - Config.kernels.kAtan s.par.constPi |val s.a| |val s.b| ∧
          3 * s.par.constPi / 4 ≤ theta ∧ theta < s.par.constPi) ∧
      let zf := roundX ((if signBit s.a then -1 else 1) * theta) s.rounding true
      exec .fpatan s = .next (s.afterByValue zf.1
        ((if isDenormal s.a = true ∨ isDenormal s.b = true then DE else noFlags) ||| zf.2)) ∧
        hasFlag zf.2 .pe = true ∧ signBit zf.1 = signBit s.a

/-- The images of R152: the multiples of the default `CONST_PI` in the four modes. -/
def Obligations.PiMultipleImages : Prop :=
  let pi (k : ℕ) (rc : RoundingMode) := roundX (k * Params.default.constPi / 4) rc true
  pi 4 .nearestEven = (0x4000C90FDAA22168C235#80, PE) ∧ pi 4 .towardZero = (0x4000C90FDAA22168C234#80, PE) ∧
  pi 4 .down = (0x4000C90FDAA22168C234#80, PE) ∧ pi 4 .up = (0x4000C90FDAA22168C235#80, PE) ∧
  pi 2 .nearestEven = (0x3FFFC90FDAA22168C235#80, PE) ∧ pi 2 .towardZero = (0x3FFFC90FDAA22168C234#80, PE) ∧
  pi 2 .down = (0x3FFFC90FDAA22168C234#80, PE) ∧ pi 2 .up = (0x3FFFC90FDAA22168C235#80, PE) ∧
  pi 1 .nearestEven = (0x3FFEC90FDAA22168C235#80, PE) ∧ pi 1 .towardZero = (0x3FFEC90FDAA22168C234#80, PE) ∧
  pi 1 .down = (0x3FFEC90FDAA22168C234#80, PE) ∧ pi 1 .up = (0x3FFEC90FDAA22168C235#80, PE) ∧
  pi 3 .nearestEven = (0x400096CBE3F9990E91A8#80, PE) ∧ pi 3 .towardZero = (0x400096CBE3F9990E91A7#80, PE) ∧
  pi 3 .down = (0x400096CBE3F9990E91A7#80, PE) ∧ pi 3 .up = (0x400096CBE3F9990E91A8#80, PE)

/-! The periodic trig commands -/

/-- An infinite trig operand: IE, `DEFAULT_NAN` in every result register, Invalid (R281). -/
def Obligations.TrigOfInfinity : Prop :=
  ∀ s : State, isInf s.a = true →
    (∀ i ∈ [Instr.fsin, .fcos, .ftan], exec i s = .next (s.afterTrig s.par.defaultNan .invalid IE)) ∧
    exec .fsincos s = .next (s.afterSincos s.par.defaultNan s.par.defaultNan .invalid IE)

/-- A zero trig operand: sine and tangent are the zero itself, the cosine is `1.0` for both signs, no flag, Complete
(R282). -/
def Obligations.TrigOfZero : Prop :=
  ∀ s : State, isZero s.a = true →
    exec .fsin s = .next (s.afterTrig s.a .complete noFlags) ∧
    exec .ftan s = .next (s.afterTrig s.a .complete noFlags) ∧
    exec .fcos s = .next (s.afterTrig 0x3FFF8000000000000000#80 .complete noFlags) ∧
    exec .fsincos s = .next (s.afterSincos s.a 0x3FFF8000000000000000#80 .complete noFlags)

/-- The partial trig step of all four commands: the truncated multiple of the scaled modulus is subtracted and the
remainder rounded once, PE not forced; `B` is not written, by FSINCOS neither (R287). -/
def Obligations.TrigPartialStep : Prop :=
  ∀ (i : Instr) (s : State), i ∈ [Instr.fsin, .fcos, .ftan, .fsincos] →
    isFinite s.a = true → isZero s.a = false → (s.par.threshold : ℤ) < ilog2 (val s.a) →
    let m : ℚ := s.par.constPi / 2 * (2 : ℚ) ^ (ilog2 (val s.a) - s.par.partialStep)
    let rp : ℚ := |val s.a| - ⌊|val s.a| / m⌋ * m
    let zf := if rp = 0 then (zeroImage (signBit s.a), noFlags)
      else roundX ((if signBit s.a then -1 else 1) * rp) s.rounding false
    exec i s = .next (s.afterTrig zf.1 .partialReductionNeeded zf.2)

/-- FSIN, FCOS and FSINCOS of an operand reduced in one step: the nearest multiple of `P`, a residue within an eighth of
the period, the quadrant table, one rounding each with PE, DE for a denormal, Complete (R284 to R286, R290, R291,
R293). -/
def Obligations.SineCosineResults : Prop :=
  ∀ s : State, s.par.legal = true → isFinite s.a = true → isZero s.a = false →
    ilog2 (val s.a) ≤ s.par.threshold →
    ∃ (n : ℤ) (r : ℚ),
      |val s.a| = n * (s.par.constPi / 2) + r ∧ 0 ≤ n ∧ |r| ≤ s.par.constPi / 4 ∧
      (|r| = s.par.constPi / 4 → n % 2 = 0) ∧
      let s0 := Config.kernels.kSin s.par.constPi r
      let c0 := Config.kernels.kCos s.par.constPi r
      let sinAbs := if n % 4 = 0 then s0 else if n % 4 = 1 then c0 else if n % 4 = 2 then -s0 else -c0
      let cosAbs := if n % 4 = 0 then c0 else if n % 4 = 1 then -s0 else if n % 4 = 2 then -c0 else s0
      let vsin := (if signBit s.a then -1 else 1) * sinAbs
      let zs := if vsin = 0 then (zeroImage (signBit s.a), PE) else roundX vsin s.rounding true
      let zc := if cosAbs = 0 then (zeroImage false, PE) else roundX cosAbs s.rounding true
      let de := if isDenormal s.a = true then DE else noFlags
      exec .fsin s = .next (s.afterTrig zs.1 .complete (de ||| zs.2)) ∧
      exec .fcos s = .next (s.afterTrig zc.1 .complete (de ||| zc.2)) ∧
      exec .fsincos s = .next (s.afterSincos zs.1 zc.1 .complete (de ||| zs.2 ||| zc.2)) ∧
      hasFlag zs.2 .pe = true ∧ hasFlag zc.2 .pe = true

/-- FTAN of an operand reduced in one step: the exact quotient of the unrounded sine and cosine, rounded once with PE,
Complete; invalid when the cosine is exactly zero (R285, R286, R292, R294). -/
def Obligations.TangentResult : Prop :=
  ∀ s : State, s.par.legal = true → isFinite s.a = true → isZero s.a = false →
    ilog2 (val s.a) ≤ s.par.threshold →
    ∃ (n : ℤ) (r : ℚ),
      |val s.a| = n * (s.par.constPi / 2) + r ∧ 0 ≤ n ∧ |r| ≤ s.par.constPi / 4 ∧
      (|r| = s.par.constPi / 4 → n % 2 = 0) ∧
      let s0 := Config.kernels.kSin s.par.constPi r
      let c0 := Config.kernels.kCos s.par.constPi r
      let sinAbs := if n % 4 = 0 then s0 else if n % 4 = 1 then c0 else if n % 4 = 2 then -s0 else -c0
      let cosAbs := if n % 4 = 0 then c0 else if n % 4 = 1 then -s0 else if n % 4 = 2 then -c0 else s0
      let vtan := (if signBit s.a then -1 else 1) * sinAbs / cosAbs
      let zt := if vtan = 0 then (zeroImage (signBit s.a), PE) else roundX vtan s.rounding true
      let de := if isDenormal s.a = true then DE else noFlags
      exec .ftan s = .next (if cosAbs = 0 then s.afterTrig s.par.defaultNan .invalid (de ||| IE)
        else s.afterTrig zt.1 .complete (de ||| zt.2)) ∧
      hasFlag zt.2 .pe = true

/-- FTAN of an operand that is exactly an odd multiple of `P`: IE, `DEFAULT_NAN`, Invalid, and neither ZE nor DE (R294;
S20 of the test vectors). -/
def Obligations.TangentOfOddMultiple : Prop :=
  ∀ (s : State) (n : ℤ), s.par.legal = true → isFinite s.a = true → isZero s.a = false →
    ilog2 (val s.a) ≤ s.par.threshold → n % 2 = 1 → |val s.a| = n * (s.par.constPi / 2) →
    exec .ftan s = .next (s.afterTrig s.par.defaultNan .invalid IE)

/-- The sine and cosine are at most one in magnitude, and FSIN, FCOS and FSINCOS of a finite operand add neither IE, ZE
nor OE (R160, R161, R326). -/
def Obligations.SineCosineBounded : Prop :=
  ∀ (i : Instr) (s t : State), i ∈ [Instr.fsin, .fcos, .fsincos] → s.par.legal = true → isFinite s.a = true →
    exec i s = .next t →
    (t.cc = .complete → isFinite t.a = true ∧ |val t.a| ≤ 1) ∧
    (t.cc = .complete → i = .fsincos → isFinite t.b = true ∧ |val t.b| ≤ 1) ∧
    t.cc ≠ .invalid ∧ isFinite t.a = true ∧
    ∀ f ∈ [Flag.ie, .ze, .oe], hasFlag t.ctx.flags f = hasFlag s.ctx.flags f

/-- The retry loop over a trig command ends within the bound of R295, for a stored pi at most `7/2` (the room R295 uses;
the default has it): after at most `ceil((D - T)/S)` partial steps and one more command. The bound on the stored pi is the
model's reading (log entry 9); that the host's loop is one item of a list and one pass of it one step is the model's
choice (log entry 6). -/
def Obligations.TrigRetryLoopEnds : Prop :=
  ∀ (s : State) (i : Instr) (rest : List HostOp), i ∈ [Instr.fsin, .fcos, .ftan, .fsincos] →
    s.par.legal = true → s.par.constPi ≤ 7 / 2 → s.port = .reduce (encode i) :: rest →
    ∃ (k : ℕ) (t : State), core.run (k + 1) s = .next t ∧ t.port = rest ∧ t.cc ≠ .partialReductionNeeded ∧
      k * s.par.partialStep ≤ (ilog2 (val s.a) - s.par.threshold).toNat + (s.par.partialStep - 1)

/-! The whole machine -/

/-- The write columns of R40: every command completes in every state; a register that is not in the command's write set
is unchanged; ABS and NEGATE add no flag; a partial FSINCOS leaves `B`; the parameters and the host's operations are
untouched. -/
def Obligations.AccessTableWrites : Prop :=
  ∀ (i : Instr) (s : State), ∃ t, exec i s = .next t ∧
    (∀ reg, reg ≠ Reg.flags → reg ∉ Instr.writeSet i → sameReg s t reg) ∧
    (Instr.addsFlags i = false → t.ctx.flags = s.ctx.flags) ∧
    (i = .fsincos → t.cc = .partialReductionNeeded → t.b = s.b) ∧
    (∀ reg, s.hasWritten reg = true → t.hasWritten reg = true) ∧
    (∀ reg ∈ Instr.writeSet i, reg ≠ Reg.b → t.hasWritten reg = true) ∧
    t.par = s.par ∧ t.stream = s.stream ∧ t.port = s.port

/-- The read columns of R40, and R39: two states that agree on the registers a command reads, on the parameters and on
the free draws give the same values in every register the command writes and add the same flags. Nothing depends on the
flags, `PC`, `R`, `CC`, `Q` or any earlier command. -/
def Obligations.DependsOnlyOnReads : Prop :=
  ∀ (i : Instr) (s s' t t' : State), (∀ reg ∈ Instr.readSet i, sameReg s s' reg) →
    s.par = s'.par → s.stream = s'.stream → s.draws = s'.draws → exec i s = .next t → exec i s' = .next t' →
    (∀ reg ∈ Instr.writeSet i, ¬(reg = Reg.b ∧ t.cc = .partialReductionNeeded) → sameReg t t' reg) ∧
    (∃ added : FlagSet, t.ctx.flags = s.ctx.flags ||| added ∧ t'.ctx.flags = s'.ctx.flags ||| added) ∧
    t.draws = t'.draws

/-- Invalid always comes with IE and a quiet NaN in every result register, and the six commands that write `CC` add IE
only with Invalid (R325). -/
def Obligations.InvalidMeansQuietNan : Prop :=
  ∀ (i : Instr) (s t : State), i.writesCC = true → s.par.legal = true → exec i s = .next t →
    (t.cc = .invalid → hasFlag t.ctx.flags .ie = true ∧ classify t.a = .qnan ∧
      (i = .fsincos → classify t.b = .qnan)) ∧
    (hasFlag s.ctx.flags .ie = false → hasFlag t.ctx.flags .ie = true → t.cc = .invalid)

/-- The combinations of flags one command can add, where its result is defined: IE with none of DE, OE, UE, PE; ZE only
with IE and only by FYL2X; OE and UE only with PE and never together (R227, R327). -/
def Obligations.FlagCombinations : Prop :=
  ∀ (i : Instr) (s t : State), s.par.legal = true → s.ctx.flags = noFlags → exec i s = .next t →
    t.draws = s.draws →
    (hasFlag t.ctx.flags .ie = true → ∀ f ∈ [Flag.de, .oe, .ue, .pe], hasFlag t.ctx.flags f = false) ∧
    (hasFlag t.ctx.flags .ze = true → hasFlag t.ctx.flags .ie = true ∧ i = .fyl2x) ∧
    (hasFlag t.ctx.flags .oe = true → hasFlag t.ctx.flags .pe = true ∧ hasFlag t.ctx.flags .ue = false) ∧
    (hasFlag t.ctx.flags .ue = true → hasFlag t.ctx.flags .pe = true)

/-- Where OE cannot be set: the remainder commands, which add only IE and DE, FPATAN, and the partial step of every trig
command (R189, R326). -/
def Obligations.NoOverflowThere : Prop :=
  ∀ (i : Instr) (s t : State), s.par.legal = true → exec i s = .next t →
    ((i = .remIeee ∨ i = .remLegacy) → ∀ f ∈ [Flag.ze, .oe, .ue, .pe],
      hasFlag t.ctx.flags f = hasFlag s.ctx.flags f) ∧
    (i = .fpatan → ∀ f ∈ [Flag.ze, .oe], hasFlag t.ctx.flags f = hasFlag s.ctx.flags f) ∧
    (t.cc = .partialReductionNeeded → i ∈ [Instr.fsin, .fcos, .ftan, .fsincos] →
      ∀ f ∈ [Flag.ie, .de, .ze, .oe], hasFlag t.ctx.flags f = hasFlag s.ctx.flags f)

/-- A step whose next host operation issues a byte that decodes to a command is that command, performed on the state with
the operation taken off the list (R13, R66, R91). -/
def Obligations.StepRunsIssuedCommand : Prop :=
  ∀ (s : State) (byte : Byte) (i : Instr) (rest : List HostOp), s.port = .issue byte :: rest →
    decode byte = .instr i → i.wf = true → step s = exec i { s with port := rest }

/-- The host's register operations: each writes what it names, marks it written, and leaves everything else; a read has
no effect and returns the register, the context packed as `RC`, `PC`, `FLAGS` and `CC` as its number; with nothing to do
the block is idle (R30, R34, R35, R63, R90). The list of operations, the idle step and MOVAR and MOVBR as one step each
are the model's choice (log entry 6). -/
def Obligations.HostOperations : Prop :=
  ∀ (s : State) (op : HostOp) (rest : List HostOp),
    (s.port = [] → step s = .next s) ∧
    (s.port = op :: rest →
      (∀ v, op = .wrA v → step s =
        .next { s with a := v, port := rest, written := { s.written with a := true } }) ∧
      (∀ v, op = .wrB v → step s =
        .next { s with b := v, port := rest, written := { s.written with b := true } }) ∧
      (∀ rc pc fl, op = .wrCtx rc pc fl → step s =
        .next { s with ctx := ⟨rc, pc, fl⟩, port := rest,
                       written := { s.written with rc := true, pc := true, flags := true } }) ∧
      (∀ fl, op = .wrFlags fl → step s =
        .next { s with ctx := { s.ctx with flags := fl }, port := rest,
                       written := { s.written with flags := true } }) ∧
      (∀ reg, op = .rd reg → step s = .next { s with port := rest }) ∧
      (op = .movAR → step s =
        .next { s with a := s.r, port := rest, written := { s.written with a := true } }) ∧
      (op = .movBR → step s =
        .next { s with b := s.r, port := rest, written := { s.written with b := true } })) ∧
    s.hostRead .a = .image s.a ∧ s.hostRead .b = .image s.b ∧ s.hostRead .r = .image s.r ∧
    s.hostRead .q = .quotient s.q ∧
    (∃ w, s.hostRead .ctx = .context w ∧ w.extractLsb' 8 2 = s.ctx.rc ∧ w.extractLsb' 6 2 = s.ctx.pc ∧
      w.extractLsb' 0 6 = s.ctx.flags ∧ Ctx.ofWord w = s.ctx) ∧
    s.hostRead .cc = .completion
      (match s.cc with | .complete => 0#2 | .partialReductionNeeded => 1#2 | .invalid => 2#2)

/-- One pass of the retry loop: the command is performed, and the loop stays at the head of the host's operations exactly
when `CC` asks for a retry (R90, R356). That one pass, the command with the reading of `CC` and the branch, is one step is
the model's choice (log entry 6). -/
def Obligations.RetryLoopPass : Prop :=
  ∀ (s : State) (byte : Byte) (i : Instr) (rest : List HostOp), s.port = .reduce byte :: rest →
    decode byte = .instr i → i.writesCC = true →
    ∃ t, exec i { s with port := rest } = .next t ∧
      step s = .next { t with
        port := if t.cc = .partialReductionNeeded then .reduce byte :: rest else rest }

/-- `strictStep` is `step` where every register the next host operation reads has been written, and refuses where one has
not: a command as the read columns of R40 and its flags say, `MOVAR` and `MOVBR` by `R`, a host read by its register, all
three fields for the context; a host write reads nothing (R42). The machine's own step performs such an operation on the
reset value (log entry 1). -/
def Obligations.UnwrittenReadRefused : Prop :=
  ∀ (s : State) (op : HostOp) (rest : List HostOp), s.port = op :: rest →
    (s.readyOp op = true → strictStep s = step s) ∧
    (s.readyOp op = false → strictStep s = .refused .unwrittenRegister) ∧
    (∀ (byte : Byte) (i : Instr), decode byte = .instr i → op = .issue byte ∨ op = .reduce byte →
      (s.readyOp op = true ↔ (∀ reg ∈ Instr.readSet i, s.hasWritten reg = true) ∧
        (Instr.addsFlags i = true → s.hasWritten .flags = true))) ∧
    (op = .movAR ∨ op = .movBR → (s.readyOp op = true ↔ s.hasWritten .r = true)) ∧
    (∀ reg : HostReg, op = .rd reg → (s.readyOp op = true ↔ ∀ c ∈ HostReg.columns reg, s.hasWritten c = true)) ∧
    HostReg.columns .ctx = [.rc, .pc, .flags] ∧
    (∀ p ∈ [(HostReg.a, Reg.a), (.b, .b), (.r, .r), (.cc, .cc), (.q, .q)], HostReg.columns p.1 = [p.2]) ∧
    ((∃ v, op = .wrA v ∨ op = .wrB v) ∨ (∃ rc pc fl, op = .wrCtx rc pc fl) ∨ (∃ fl, op = .wrFlags fl) →
      s.readyOp op = true)

/-- After the host's duties of R352, in either order, every command's inputs are written, whatever was written before,
and none of the three operations was refused. -/
def Obligations.HostDutiesMakeReady : Prop :=
  ∀ (s : State) (rc pc : BitVec 2) (fl : FlagSet) (va vb : Image) (rest : List HostOp),
    (s.port = [.wrCtx rc pc fl, .wrA va, .wrB vb] ++ rest ∨ s.port = [.wrB vb, .wrA va, .wrCtx rc pc fl] ++ rest) →
    ∃ t u v, strictStep s = .next t ∧ strictStep t = .next u ∧ strictStep u = .next v ∧
      v.port = rest ∧ v.a = va ∧ v.b = vb ∧ v.ctx = ⟨rc, pc, fl⟩ ∧ ∀ i, v.ready i = true

/-- A step of one instance leaves the shared ROM and parameters and every other instance as they were and is that
instance's own step; steps of two instances in either order give the same system (R37, R67, R340). -/
def Obligations.InstancesIsolated : Prop :=
  ∀ (k : ℕ) (sys sys' : System), stepUnit k sys = .next sys' →
    sys'.par = sys.par ∧ sys'.units.length = sys.units.length ∧ (sys.wf = true → sys'.wf = true) ∧
    (∀ j, j ≠ k → sys'.view j = sys.view j) ∧
    (k < sys.units.length → ∃ s t, sys.view k = some s ∧ sys'.view k = some t ∧ step s = .next t ∧
      s.par = sys.par) ∧
    ∀ (j : ℕ) (other : System), j ≠ k → stepUnit j sys = .next other →
      ∃ both, stepUnit j sys' = .next both ∧ stepUnit k other = .next both

/-- Reset leaves every register unwritten, so that only nothing-reading commands would be ready, the parameters at R8's
defaults and the host with nothing issued; a system after reset has `N_TXU` such instances, at least one (R8, R41, R61,
R340, R350). The zeros the unwritten registers hold are the model's choice (log entry 1) and are not stated here. -/
def Obligations.ResetUnwritten : Prop :=
  (∀ reg, State.reset.hasWritten reg = false) ∧ (∀ i, State.reset.ready i = false) ∧
  State.reset.par.threshold = 64 ∧ State.reset.par.partialStep = 32 ∧
  State.reset.par.constPi = 0xC90FDAA22168C234C4C6628B80DC1CD1 * (2 : ℚ) ^ (-126 : ℤ) ∧
  State.reset.par.defaultNan = 0xFFFFC000000000000000#80 ∧ State.reset.par.byteOrder = .little ∧
  State.reset.par.nTxu = 1 ∧ State.reset.port = [] ∧
  ∀ p : Params, p.legal = true → (System.reset p).wf = true ∧ 0 < (System.reset p).units.length ∧
    ∀ u ∈ (System.reset p).units, u = State.reset.own

/-- The invariant holds at reset. Its clauses about unwritten registers speak of the model's reset values (log entry
1). -/
def Obligations.ResetMeetsInvariant : Prop :=
  State.reset.Inv

/-- Every step keeps the invariant: legal parameters, unwritten registers at their reset values, and `Q`, `CC`, `A`
written together (R35, R36, R40 to R42; log entry 1 for the reset values). -/
def Obligations.StepKeepsInvariant : Prop :=
  ∀ s t : State, s.Inv → step s = .next t → t.Inv
end

