-- ==== Sys2Proof/Laws/Rational.lean ====
section
/-! SUPPORT. What the integer functions of R11 compute, in the library's terms: powers of two, absolute value, truncation,
rounding to nearest even, the binary logarithm. -/

namespace Sys2Proof.Machine

theorem pow2_eq_zpow (e : Int) : pow2 e = (2 : ℚ) ^ e := by
  cases e with
  | ofNat n => simp [pow2]
  | negSucc n =>
    rw [pow2, Rat.mkRat_eq_div, zpow_negSucc]
    push_cast
    rw [one_div]

theorem pow2_pos (e : Int) : 0 < pow2 e := by
  rw [pow2_eq_zpow]; positivity

theorem pow2_ne_zero (e : Int) : pow2 e ≠ 0 :=
  (pow2_pos e).ne'

theorem pow2_add (d e : Int) : pow2 (d + e) = pow2 d * pow2 e := by
  simp only [pow2_eq_zpow]; exact zpow_add₀ two_ne_zero d e

theorem pow2_sub (d e : Int) : pow2 (d - e) = pow2 d / pow2 e := by
  simp only [pow2_eq_zpow]; exact zpow_sub₀ two_ne_zero d e

theorem pow2_natCast (n : Nat) : pow2 (n : Int) = 2 ^ n := by
  rw [pow2_eq_zpow, zpow_natCast]

theorem pow2_succ (e : Int) : pow2 (e + 1) = 2 * pow2 e := by
  rw [pow2_add, mul_comm]; simp [pow2_eq_zpow]

theorem pow2_le_iff {d e : Int} : pow2 d ≤ pow2 e ↔ d ≤ e := by
  simp only [pow2_eq_zpow]; exact zpow_le_zpow_iff_right₀ one_lt_two

theorem pow2_lt_iff {d e : Int} : pow2 d < pow2 e ↔ d < e := by
  simp only [pow2_eq_zpow]; exact zpow_lt_zpow_iff_right₀ one_lt_two

theorem absQ_eq_abs (q : ℚ) : absQ q = |q| := by
  unfold absQ
  split
  · next h => rw [abs_of_neg h]
  · next h => rw [abs_of_nonneg (not_lt.mp h)]

theorem applySign_eq (s : Bool) (q : ℚ) : applySign s q = (if s then -1 else 1) * q := by cases s <;> simp [applySign]

theorem abs_applySign (s : Bool) (q : ℚ) : |applySign s q| = |q| := by
  cases s <;> simp [applySign]

theorem applySign_eq_zero {s : Bool} {q : ℚ} : applySign s q = 0 ↔ q = 0 := by
  cases s <;> simp [applySign]

theorem applySign_sgnQ_absQ (v : ℚ) : applySign (sgnQ v) (absQ v) = v := by
  unfold applySign sgnQ absQ
  by_cases h : v < 0 <;> simp [h]

theorem sgnQ_of_neg {q : ℚ} (h : q < 0) : sgnQ q = true := by simpa [sgnQ] using h

theorem sgnQ_of_pos {q : ℚ} (h : 0 < q) : sgnQ q = false := by simpa [sgnQ] using h.le

theorem sgnQ_applySign {s : Bool} {q : ℚ} (h : 0 < q) : sgnQ (applySign s q) = s := by
  cases s <;> simp [sgnQ, applySign, h, h.le]

theorem absQ_applySign {s : Bool} {q : ℚ} (h : 0 ≤ q) : absQ (applySign s q) = q := by
  rw [absQ_eq_abs, abs_applySign, abs_of_nonneg h]

theorem floor_eq (q : ℚ) : q.floor = ⌊q⌋ := rfl

theorem floor_le (q : ℚ) : (q.floor : ℚ) ≤ q := Int.floor_le q

theorem lt_floor_add_one (q : ℚ) : q < q.floor + 1 := Int.lt_floor_add_one q

/-- `trunc` is the floor of a nonnegative rational. -/
theorem truncQ_of_nonneg {q : ℚ} (h : 0 ≤ q) : truncQ q = ⌊q⌋ := by
  rw [truncQ, if_neg (not_lt.mpr h), floor_eq]

/-- `trunc(-q) = -trunc(q)`. -/
theorem truncQ_neg (q : ℚ) : truncQ (-q) = -truncQ q := by
  rcases lt_trichotomy q 0 with h | h | h
  · simp [truncQ, h, h.le]
  · subst h; simp [truncQ, floor_eq]
  · simp [truncQ, h, h.le]

/-- `rne` is a nearest integer, the even one at a tie (R11). -/
theorem rneQ_spec (q : ℚ) : |q - rneQ q| ≤ 1 / 2 ∧ (|q - rneQ q| = 1 / 2 → rneQ q % 2 = 0) := by
  have h0 : 0 ≤ q - q.floor := sub_nonneg.mpr (floor_le q)
  have h1 : q - q.floor < 1 := by linarith [lt_floor_add_one q]
  have hup : |q - ((q.floor + 1 : ℤ) : ℚ)| = 1 - (q - q.floor) := by
    rw [abs_of_nonpos (by push_cast; linarith)]; push_cast; ring
  unfold rneQ
  simp only []
  split_ifs with ha hb he
  · exact ⟨by rw [abs_of_nonneg h0]; exact ha.le, fun e => by rw [abs_of_nonneg h0] at e; linarith⟩
  · exact ⟨by rw [hup]; linarith, fun e => by rw [hup] at e; linarith⟩
  · exact ⟨by rw [abs_of_nonneg h0]; linarith, fun _ => he⟩
  · exact ⟨by rw [hup]; linarith, fun _ => by omega⟩

/-- An integer nearer than one half is the nearest one. -/
theorem rneQ_eq_of_abs_lt {q : ℚ} {n : Int} (h : |q - n| < 1 / 2) : rneQ q = n := by
  have h1 := (rneQ_spec q).1
  have h2 : |(rneQ q : ℚ) - n| < 1 := by
    calc |(rneQ q : ℚ) - n| = |-(q - rneQ q) + (q - n)| := by congr 1; ring
      _ ≤ |-(q - rneQ q)| + |q - n| := abs_add_le _ _
      _ < 1 := by rw [abs_neg]; linarith
  have h3 : |rneQ q - n| < 1 := by exact_mod_cast h2
  have := Int.abs_lt_one_iff.mp h3
  omega

/-- At a tie the even neighbour is the nearest even one. -/
theorem rneQ_eq_of_tie {q : ℚ} {n : Int} (h : |q - n| = 1 / 2) (he : n % 2 = 0) : rneQ q = n := by
  obtain ⟨h1, h2⟩ := rneQ_spec q
  have h4 : |(rneQ q : ℚ) - n| ≤ 1 := by
    calc |(rneQ q : ℚ) - n| = |-(q - rneQ q) + (q - n)| := by congr 1; ring
      _ ≤ |-(q - rneQ q)| + |q - n| := abs_add_le _ _
      _ ≤ 1 := by rw [abs_neg]; linarith
  have h5 : |rneQ q - n| ≤ 1 := by exact_mod_cast h4
  by_cases hlt : |q - rneQ q| < 1 / 2
  · by_contra hne
    have h6 : |(rneQ q : ℚ) - n| < 1 := by
      calc |(rneQ q : ℚ) - n| = |-(q - rneQ q) + (q - n)| := by congr 1; ring
        _ ≤ |-(q - rneQ q)| + |q - n| := abs_add_le _ _
        _ < 1 := by rw [abs_neg]; linarith
    have h7 : |rneQ q - n| < 1 := by exact_mod_cast h6
    have := Int.abs_lt_one_iff.mp h7
    omega
  · have h8 := h2 (le_antisymm h1 (not_lt.mp hlt))
    rw [abs_le] at h5
    omega

/-- `rne(-q) = -rne(q)` (R11). -/
theorem rneQ_neg (q : ℚ) : rneQ (-q) = -rneQ q := by
  obtain ⟨h1, h2⟩ := rneQ_spec q
  have h3 : |-q - ((-rneQ q : ℤ) : ℚ)| = |q - rneQ q| := by
    rw [← abs_neg]; congr 1; push_cast; ring
  rcases h1.lt_or_eq with h | h
  · exact rneQ_eq_of_abs_lt (by rw [h3]; exact h)
  · exact rneQ_eq_of_tie (by rw [h3]; exact h) (by have := h2 h; omega)

/-- `ilog2(v) = e` exactly when `2^e <= |v| < 2^(e+1)` (R11). -/
theorem ilog2_spec {v : ℚ} (hv : v ≠ 0) : pow2 (ilog2 v) ≤ |v| ∧ |v| < pow2 (ilog2 v + 1) := by
  set n := v.num.natAbs with hn
  set d := v.den with hd
  have hn0 : n ≠ 0 := by simpa [hn] using Rat.num_ne_zero.mpr hv
  have hd0 : d ≠ 0 := v.den_nz
  have habs : |v| = (n : ℚ) / d := by
    rw [← Rat.num_div_den v, abs_div, hn, hd]
    simp [Nat.abs_cast]
  have hdpos : (0 : ℚ) < d := by positivity
  have n1 : ((2 ^ n.log2 : ℕ) : ℚ) ≤ n := by exact_mod_cast Nat.log2_self_le hn0
  have n2 : (n : ℚ) < ((2 ^ (n.log2 + 1) : ℕ) : ℚ) := by exact_mod_cast Nat.lt_log2_self
  have d1 : ((2 ^ d.log2 : ℕ) : ℚ) ≤ d := by exact_mod_cast Nat.log2_self_le hd0
  have d2 : (d : ℚ) < ((2 ^ (d.log2 + 1) : ℕ) : ℚ) := by exact_mod_cast Nat.lt_log2_self
  push_cast at n1 n2 d1 d2
  have lo : pow2 ((n.log2 : ℤ) - d.log2 - 1) ≤ |v| := by
    rw [habs, le_div_iff₀ hdpos]
    calc pow2 ((n.log2 : ℤ) - d.log2 - 1) * d ≤ pow2 ((n.log2 : ℤ) - d.log2 - 1) * 2 ^ (d.log2 + 1) :=
          mul_le_mul_of_nonneg_left d2.le (pow2_pos _).le
      _ = 2 ^ n.log2 := by
          rw [← pow2_natCast, ← pow2_natCast, ← pow2_add]; congr 1; push_cast; ring
      _ ≤ n := n1
  have hi : |v| < pow2 ((n.log2 : ℤ) - d.log2 + 1) := by
    rw [habs, div_lt_iff₀ hdpos]
    calc (n : ℚ) < 2 ^ (n.log2 + 1) := n2
      _ = pow2 ((n.log2 : ℤ) - d.log2 + 1) * 2 ^ d.log2 := by
          rw [← pow2_natCast, ← pow2_natCast, ← pow2_add]; congr 1; push_cast; ring
      _ ≤ pow2 ((n.log2 : ℤ) - d.log2 + 1) * d := mul_le_mul_of_nonneg_left d1 (pow2_pos _).le
  unfold ilog2
  rw [absQ_eq_abs]
  simp only [← hn, ← hd]
  split
  · next h => exact ⟨h, hi⟩
  · next h => exact ⟨lo, by rw [sub_add_cancel]; exact not_le.mp h⟩

theorem ilog2_eq_of {v : ℚ} {e : Int} (h1 : pow2 e ≤ |v|) (h2 : |v| < pow2 (e + 1)) : ilog2 v = e := by
  have hv : v ≠ 0 := by
    rintro rfl
    rw [abs_zero] at h1
    exact absurd (pow2_pos e) (not_lt.mpr h1)
  obtain ⟨h3, h4⟩ := ilog2_spec hv
  have a : ilog2 v < e + 1 := pow2_lt_iff.mp (h3.trans_lt h2)
  have b : e < ilog2 v + 1 := pow2_lt_iff.mp (h1.trans_lt h4)
  omega

theorem ilog2_abs (v : ℚ) : ilog2 |v| = ilog2 v := by
  by_cases hv : v = 0
  · subst hv; simp
  · obtain ⟨h1, h2⟩ := ilog2_spec hv
    exact ilog2_eq_of (by rwa [abs_abs]) (by rwa [abs_abs])

theorem ilog2_pow2 (e : Int) : ilog2 (pow2 e) = e :=
  ilog2_eq_of (le_abs_self _) (by rw [abs_of_pos (pow2_pos e)]; exact pow2_lt_iff.mpr (by omega))

/-- A smaller magnitude has no greater logarithm. -/
theorem ilog2_mono {v w : ℚ} (hv : v ≠ 0) (h : |v| ≤ |w|) : ilog2 v ≤ ilog2 w := by
  have hw : w ≠ 0 := by
    rintro rfl
    rw [abs_zero] at h
    exact hv (abs_nonpos_iff.mp h)
  have := pow2_lt_iff.mp (((ilog2_spec hv).1.trans h).trans_lt (ilog2_spec hw).2)
  omega

/-- The logarithm is below `e` exactly when the magnitude is below `2^e`. -/
theorem ilog2_lt_iff {v : ℚ} (hv : v ≠ 0) {e : Int} : ilog2 v < e ↔ |v| < pow2 e := by
  obtain ⟨h1, h2⟩ := ilog2_spec hv
  constructor
  · intro h
    exact h2.trans_le (pow2_le_iff.mpr (by omega))
  · intro h
    exact pow2_lt_iff.mp (h1.trans_lt h)

theorem ilog2_mul_pow2 {v : ℚ} (hv : v ≠ 0) (k : Int) : ilog2 (v * pow2 k) = ilog2 v + k := by
  obtain ⟨h1, h2⟩ := ilog2_spec hv
  have hk := pow2_pos k
  apply ilog2_eq_of
  · rw [abs_mul, abs_of_pos hk, pow2_add]
    exact mul_le_mul_of_nonneg_right h1 hk.le
  · rw [abs_mul, abs_of_pos hk, show ilog2 v + k + 1 = (ilog2 v + 1) + k by ring, pow2_add]
    exact mul_lt_mul_of_pos_right h2 hk

/-- `log2Exact` finds the exponent of a power of two and nothing else (R230). -/
theorem log2Exact_eq_some_iff {v : ℚ} {k : Int} : log2Exact v = some k ↔ v = pow2 k := by
  unfold log2Exact
  constructor
  · intro h
    split at h
    · next hv =>
      injection h with h
      rw [← h]; exact hv
    · simp at h
  · rintro rfl
    rw [ilog2_pow2, if_pos rfl]

theorem log2Exact_eq_none_iff {v : ℚ} : log2Exact v = none ↔ ∀ k, v ≠ pow2 k := by
  constructor
  · intro h k hk
    rw [log2Exact_eq_some_iff.mpr hk] at h
    simp at h
  · intro h
    rw [log2Exact, if_neg (h _)]

end Sys2Proof.Machine
end

