-- ==== Sys2Proof/Laws/Operands.lean ====
section
/-! SUPPORT. The fields, class and value of an image built from its fields, and of the fixed images of R21 to R25. -/

namespace Sys2Proof.Machine

section packFields
variable (s : Bool) (e : BitVec 15) (m : BitVec 64)

@[simp] theorem signBit_pack : signBit (pack s e m) = s := by
  simp only [signBit, pack, BitVec.getLsbD_append, BitVec.getLsbD_ofBool]
  simp

@[simp] theorem expField_pack : expField (pack s e m) = e := by
  ext i hi
  simp only [expField, pack, BitVec.getElem_extractLsb', BitVec.getLsbD_append]
  have h1 : ¬ (64 + i < 64) := by omega
  simp [hi]

@[simp] theorem sigField_pack : sigField (pack s e m) = m := by
  ext i hi
  simp only [sigField, pack, BitVec.getElem_extractLsb', BitVec.getLsbD_append]
  have h1 : 0 + i < 64 := by omega
  simp [hi]

@[simp] theorem integerBit_pack : integerBit (pack s e m) = m.getLsbD 63 := by
  simp only [integerBit, pack, BitVec.getLsbD_append]
  simp

@[simp] theorem quietBit_pack : quietBit (pack s e m) = m.getLsbD 62 := by
  simp only [quietBit, pack, BitVec.getLsbD_append]
  simp

end packFields

/-- An image is the packing of its three fields (R20). -/
theorem pack_fields (x : Image) : pack (signBit x) (expField x) (sigField x) = x := by
  ext i hi
  simp only [pack, signBit, expField, sigField, BitVec.getElem_eq_testBit_toNat]
  simp only [BitVec.testBit_toNat, BitVec.getLsbD_append, BitVec.getLsbD_extractLsb', BitVec.getLsbD_ofBool]
  by_cases h1 : i < 64
  · simp [h1]
  · by_cases h2 : i - 64 < 15
    · simp [h1, h2, show 64 + (i - 64) = i by omega]
    · have h3 : i = 79 := by omega
      subst h3
      simp

theorem image_eq_of_fields {x y : Image} (hs : signBit x = signBit y) (he : expField x = expField y)
    (hm : sigField x = sigField y) : x = y := by
  rw [← pack_fields x, ← pack_fields y, hs, he, hm]

theorem integerBit_eq (x : Image) : integerBit x = (sigField x).getLsbD 63 := by
  simp [integerBit, sigField]

theorem quietBit_eq (x : Image) : quietBit x = (sigField x).getLsbD 62 := by
  simp [quietBit, sigField]

theorem fractionField_eq (x : Image) : fractionField x = (sigField x).extractLsb' 0 63 := by
  ext i hi
  simp [fractionField, sigField]

/-- The integer bit says whether the significand is at least `2^63`. -/
theorem msb_iff (m : BitVec 64) : m.getLsbD 63 = decide (2 ^ 63 ≤ m.toNat) := by
  rw [show m.getLsbD 63 = m.msb by simp [BitVec.msb_eq_getLsbD_last]]
  exact BitVec.msb_eq_decide m

theorem integerBit_iff (x : Image) : integerBit x = decide (2 ^ 63 ≤ (sigField x).toNat) := by
  rw [integerBit_eq, msb_iff]

/-- A normal image (R21). -/
theorem classify_normal_iff (x : Image) :
    classify x = .normal ↔ 1 ≤ (expField x).toNat ∧ (expField x).toNat ≤ 0x7FFE ∧ 2 ^ 63 ≤ (sigField x).toNat := by
  have hlt := (expField x).isLt
  have h0 : expField x = 0 ↔ (expField x).toNat = 0 := by
    rw [← BitVec.toNat_inj]; simp
  have h7 : expField x = 0x7FFF#15 ↔ (expField x).toNat = 0x7FFF := by
    rw [← BitVec.toNat_inj]; simp
  unfold classify
  simp only [h0, h7, integerBit_iff, decide_eq_true_eq]
  split_ifs <;> simp <;> omega

/-- A finite image that is not a denormal has a zero significand or the integer bit set; a denormal has exponent zero
(R22, R23). -/
theorem classify_denormal_iff (x : Image) :
    classify x = .denormal ↔ (expField x).toNat = 0 ∧ (sigField x).toNat ≠ 0 := by
  have h0 : expField x = 0 ↔ (expField x).toNat = 0 := by
    rw [← BitVec.toNat_inj]; simp
  have h1 : sigField x = 0 ↔ (sigField x).toNat = 0 := by
    rw [← BitVec.toNat_inj]; simp
  unfold classify
  simp only [h0, h1]
  split_ifs <;> simp <;> omega

theorem classify_zero_iff (x : Image) :
    classify x = .zero ↔ (expField x).toNat = 0 ∧ (sigField x).toNat = 0 := by
  have h0 : expField x = 0 ↔ (expField x).toNat = 0 := by
    rw [← BitVec.toNat_inj]; simp
  have h1 : sigField x = 0 ↔ (sigField x).toNat = 0 := by
    rw [← BitVec.toNat_inj]; simp
  unfold classify
  simp only [h0, h1]
  split_ifs <;> simp <;> omega

theorem isFinite_iff (x : Image) :
    isFinite x = true ↔ classify x = .zero ∨ classify x = .denormal ∨ classify x = .normal := by
  unfold isFinite
  cases classify x <;> simp [FClass.isFinite]

/-- The value of an image built from fields. -/
theorem val_pack (s : Bool) (e : BitVec 15) (m : BitVec 64) :
    val (pack s e m) = applySign s (m.toNat * pow2 ((max e.toNat 1 : Nat) - 16383 - 63)) := by
  simp [val, scaleOf]

@[simp] theorem val_zeroImage (s : Bool) : val (zeroImage s) = 0 := by
  simp [zeroImage, val_pack, applySign]

@[simp] theorem classify_zeroImage (s : Bool) : classify (zeroImage s) = .zero := by
  rw [classify_zero_iff]; simp [zeroImage]

@[simp] theorem signBit_zeroImage (s : Bool) : signBit (zeroImage s) = s := by
  simp [zeroImage]

@[simp] theorem classify_infImage (s : Bool) : classify (infImage s) = .inf := by
  cases s <;> decide

@[simp] theorem classify_maxImage (s : Bool) : classify (maxImage s) = .normal := by
  cases s <;> decide

@[simp] theorem signBit_infImage (s : Bool) : signBit (infImage s) = s := by
  simp [infImage]

@[simp] theorem signBit_maxImage (s : Bool) : signBit (maxImage s) = s := by
  simp [maxImage]

theorem signBit_overflowImage (s : Bool) (rc : RoundingMode) : signBit (overflowImage s rc) = s := by
  cases rc <;> cases s <;> simp [overflowImage]

/-- Quieting sets bit 62 and leaves the other fields (R25). -/
theorem signBit_quiet (x : Image) : signBit (quiet x) = signBit x := by
  simp only [signBit, quiet, BitVec.getLsbD_or]
  rw [show (1#80 <<< 62).getLsbD 79 = false by decide, Bool.or_false]

theorem expField_quiet (x : Image) : expField (quiet x) = expField x := by
  simp only [expField, quiet, BitVec.extractLsb'_or]
  rw [show (1#80 <<< 62).extractLsb' 64 15 = 0#15 by decide, BitVec.or_zero]

theorem quietBit_quiet (x : Image) : quietBit (quiet x) = true := by
  simp only [quietBit, quiet, BitVec.getLsbD_or]
  rw [show (1#80 <<< 62).getLsbD 62 = true by decide, Bool.or_true]

theorem integerBit_quiet (x : Image) : integerBit (quiet x) = integerBit x := by
  simp only [integerBit, quiet, BitVec.getLsbD_or]
  rw [show (1#80 <<< 62).getLsbD 63 = false by decide, Bool.or_false]

theorem isNan_iff (x : Image) :
    isNan x = true ↔ expField x = 0x7FFF#15 ∧ integerBit x = true ∧ fractionField x ≠ 0 := by
  unfold isNan classify
  by_cases h0 : expField x = 0
  · have : expField x ≠ 0x7FFF#15 := by rw [h0]; decide
    simp only [h0, if_true]
    split_ifs <;> simp [FClass.isNan]
  · by_cases h7 : expField x = 0x7FFF#15
    · simp only [h7, if_true]
      split_ifs <;> simp_all [FClass.isNan]
    · simp only [h0, h7, if_false]
      split_ifs <;> simp [FClass.isNan]

/-- `quiet` of a NaN is a quiet NaN (R25). -/
theorem classify_quiet {x : Image} (h : isNan x = true) : classify (quiet x) = .qnan := by
  obtain ⟨he, hi, _⟩ := (isNan_iff x).mp h
  have hf : ¬ fractionField (quiet x) = 0#63 := by
    intro h0
    have : (fractionField (quiet x)).getLsbD 62 = true := by
      rw [show (fractionField (quiet x)).getLsbD 62 = quietBit (quiet x) by simp [fractionField, quietBit]]
      exact quietBit_quiet x
    rw [h0] at this
    simp at this
  unfold classify
  rw [expField_quiet, he, integerBit_quiet, hi, quietBit_quiet]
  simp [hf]

/-- The check of WellFormed is the class of R25. -/
theorem isQuietNan_iff (x : Image) : Image.isQuietNan x = true ↔ classify x = .qnan := by
  have hq : quietBit x = true → fractionField x ≠ 0 := by
    intro hb h0
    have : (fractionField x).getLsbD 62 = true := by
      rw [show (fractionField x).getLsbD 62 = quietBit x by simp [fractionField, quietBit]]; exact hb
    rw [h0] at this
    simp at this
  have hdef : Image.isQuietNan x = true ↔ expField x = 0x7FFF#15 ∧ integerBit x = true ∧ quietBit x = true := by
    simp [Image.isQuietNan, expField, integerBit, quietBit, and_assoc]
  rw [hdef]
  unfold classify
  by_cases h0 : expField x = 0
  · have : expField x ≠ 0x7FFF#15 := by rw [h0]; decide
    simp only [h0, if_true]
    split_ifs <;> simp
  · by_cases h7 : expField x = 0x7FFF#15
    · simp only [h7, if_true]
      split_ifs <;> simp_all
    · simp only [h0, h7, if_false]
      split_ifs <;> simp

/-- A propagated NaN is a quiet NaN (R116). -/
theorem classify_propNan {x y : Image} (h : (isNan x || isNan y) = true) : classify (propNan x y) = .qnan := by
  unfold propNan
  split
  · next hx => exact classify_quiet hx
  · next hx => exact classify_quiet (by simpa [hx] using h)

/-- A finite image has a nonzero value unless it is a zero (R21 to R23). -/
theorem val_ne_zero {x : Image} (hf : isFinite x = true) (hz : isZero x = false) : val x ≠ 0 := by
  have hz' : classify x ≠ .zero := by simpa [isZero] using hz
  have hm : (sigField x).toNat ≠ 0 := by
    rcases (isFinite_iff x).mp hf with h | h | h
    · exact absurd h hz'
    · exact ((classify_denormal_iff x).mp h).2
    · have := ((classify_normal_iff x).mp h).2.2
      omega
  unfold val
  rw [Ne, applySign_eq_zero]
  exact mul_ne_zero (by exact_mod_cast hm) (pow2_ne_zero _)

/-- The sign bit of a finite nonzero image is the sign of its value (R21, R23). -/
theorem sgnQ_val {x : Image} (h : val x ≠ 0) : sgnQ (val x) = signBit x := by
  unfold val at h ⊢
  rw [Ne, applySign_eq_zero] at h
  exact sgnQ_applySign (lt_of_le_of_ne (mul_nonneg (by positivity) (pow2_pos _).le) (Ne.symm h))

theorem absQ_val (x : Image) : absQ (val x) = (sigField x).toNat * pow2 (scaleOf x) := by
  unfold val
  exact absQ_applySign (mul_nonneg (by positivity) (pow2_pos _).le)

/-- The fraction is zero when the low 63 bits of the significand are. -/
theorem fraction_zero_iff (x : Image) : fractionField x = 0 ↔ (sigField x).toNat % 2 ^ 63 = 0 := by
  rw [fractionField_eq, ← BitVec.toNat_inj]; simp

/-- The class of an image whose exponent is all ones (R24 to R26). -/
theorem classify_of_max {x : Image} (h : (expField x).toNat = 0x7FFF) :
    classify x = if integerBit x then
      if fractionField x = 0 then .inf else if quietBit x then .qnan else .snan
    else .unsupported := by
  have h7 : expField x = 0x7FFF#15 := by rw [← BitVec.toNat_inj, h]; rfl
  unfold classify
  rw [h7, if_neg (by decide), if_pos rfl]

/-- Infinities and NaNs have an exponent of all ones (R24, R25). -/
theorem classify_of_not_max {x : Image} (h : (expField x).toNat ≠ 0x7FFF) :
    classify x ≠ .inf ∧ classify x ≠ .qnan ∧ classify x ≠ .snan := by
  have h7 : expField x ≠ 0x7FFF#15 := by rw [← BitVec.toNat_inj.ne]; simpa using h
  unfold classify
  rw [if_neg h7]
  split_ifs <;> simp

/-- An infinity (R24). -/
theorem classify_inf_iff (x : Image) :
    classify x = .inf ↔ (expField x).toNat = 0x7FFF ∧ (sigField x).toNat = 2 ^ 63 := by
  by_cases h : (expField x).toNat = 0x7FFF
  · have hlt := (sigField x).isLt
    rw [classify_of_max h, integerBit_iff]
    simp only [fraction_zero_iff, decide_eq_true_eq, h, true_and]
    split_ifs <;> simp <;> omega
  · simp [h, (classify_of_not_max h).1]

/-- A quiet NaN (R25). -/
theorem classify_qnan_iff (x : Image) :
    classify x = .qnan ↔ (expField x).toNat = 0x7FFF ∧ integerBit x = true ∧ quietBit x = true := by
  rw [← isQuietNan_iff]
  unfold Image.isQuietNan
  rw [← show (expField x = 0x7FFF#15 ↔ (expField x).toNat = 0x7FFF) from by rw [← BitVec.toNat_inj]; simp]
  simp [expField, integerBit, quietBit, and_assoc]

/-- A signaling NaN (R25). -/
theorem classify_snan_iff (x : Image) :
    classify x = .snan ↔
      (expField x).toNat = 0x7FFF ∧ integerBit x = true ∧ quietBit x = false ∧ (sigField x).toNat ≠ 2 ^ 63 := by
  by_cases h : (expField x).toNat = 0x7FFF
  · have hlt := (sigField x).isLt
    rw [classify_of_max h, integerBit_iff]
    simp only [fraction_zero_iff, decide_eq_true_eq, h, true_and]
    split_ifs <;> simp_all <;> omega
  · simp [h, (classify_of_not_max h).2.2]

/-- An unsupported image (R26). -/
theorem classify_unsupported_iff (x : Image) :
    classify x = .unsupported ↔ 1 ≤ (expField x).toNat ∧ integerBit x = false := by
  have h0 : expField x = 0 ↔ (expField x).toNat = 0 := by rw [← BitVec.toNat_inj]; simp
  unfold classify
  split_ifs with a b c d e f g <;> simp_all; omega

/-- Quieting a quiet NaN does nothing (R25). -/
theorem quiet_of_quiet {x : Image} (h : quietBit x = true) : quiet x = x := by
  apply BitVec.eq_of_getLsbD_eq
  intro i hi
  simp only [quiet, BitVec.getLsbD_or]
  rw [show (1#80 <<< 62) = BitVec.twoPow 80 62 from by decide, BitVec.getLsbD_twoPow]
  by_cases h' : 62 = i
  · subst h'; simp [show x.getLsbD 62 = true from h]
  · simp [h']

end Sys2Proof.Machine
end

