-- ==== Sys2Proof/Laws/Rounding.lean ====
section
/-! SUPPORT. Rounding: what `rInt` can answer, and the three cases of `roundX` (overflow, a result on the grid of its
binade, a result on the grid of the denormals) with the value, the class, the sign and the flags of each. -/

namespace Sys2Proof.Machine

/-- `RInt` answers one of the two neighbouring integers. -/
theorem rInt_eq_floor_or (m : ℚ) (s : Bool) (rc : RoundingMode) :
    rInt m s rc = m.floor.toNat ∨ (rInt m s rc = m.floor.toNat + 1 ∧ m ≠ m.floor.toNat) := by
  unfold rInt
  simp only []
  by_cases h : m = m.floor.toNat
  · left; rw [if_pos h]
  · rw [if_neg h]
    cases rc <;> simp only [] <;> (try split_ifs) <;> simp [h]

theorem floorNat_le {m : ℚ} (hm : 0 ≤ m) : (m.floor.toNat : ℚ) ≤ m := by
  have h0 : 0 ≤ m.floor := by rw [floor_eq]; exact Int.floor_nonneg.mpr hm
  have : ((m.floor.toNat : ℤ) : ℚ) = m.floor := by rw [Int.toNat_of_nonneg h0]
  rw [← Int.cast_natCast, this]
  exact floor_le m

theorem lt_floorNat_add_one {m : ℚ} (hm : 0 ≤ m) : m < m.floor.toNat + 1 := by
  have h0 : 0 ≤ m.floor := by rw [floor_eq]; exact Int.floor_nonneg.mpr hm
  have : ((m.floor.toNat : ℤ) : ℚ) = m.floor := by rw [Int.toNat_of_nonneg h0]
  rw [← Int.cast_natCast, this]
  exact lt_floor_add_one m

/-- An integer is left alone. -/
theorem rInt_natCast (n : Nat) (s : Bool) (rc : RoundingMode) : rInt n s rc = n := by
  have hf : ((n : ℚ)).floor.toNat = n := by rw [floor_eq]; simp
  unfold rInt
  simp only [hf, if_true]

/-- Rounding does not pass an integer from below. -/
theorem rInt_le_of_le {m : ℚ} (hm : 0 ≤ m) {n : Nat} (h : m ≤ n) (s : Bool) (rc : RoundingMode) : rInt m s rc ≤ n := by
  have hf : m.floor.toNat ≤ n := by exact_mod_cast (floorNat_le hm).trans h
  rcases rInt_eq_floor_or m s rc with e | ⟨e, hne⟩
  · omega
  · rcases hf.lt_or_eq with hl | hl
    · omega
    · exact absurd (le_antisymm (by rw [hl]; exact h) (floorNat_le hm)) hne

/-- Rounding does not pass an integer from above. -/
theorem le_rInt_of_le {m : ℚ} (hm : 0 ≤ m) {n : Nat} (h : (n : ℚ) ≤ m) (s : Bool) (rc : RoundingMode) :
    n ≤ rInt m s rc := by
  have hn : n < m.floor.toNat + 1 := by exact_mod_cast h.trans_lt (lt_floorNat_add_one hm)
  rcases rInt_eq_floor_or m s rc with e | ⟨e, _⟩ <;> omega

/-- The result is within one unit. -/
theorem abs_rInt_sub_lt {m : ℚ} (hm : 0 ≤ m) (s : Bool) (rc : RoundingMode) : |(rInt m s rc : ℚ) - m| < 1 := by
  have h1 := floorNat_le hm
  have h2 := lt_floorNat_add_one hm
  rcases rInt_eq_floor_or m s rc with e | ⟨e, hne⟩
  · rw [e, abs_lt]; constructor <;> linarith
  · have h3 : (m.floor.toNat : ℚ) < m := lt_of_le_of_ne h1 (Ne.symm hne)
    rw [e, abs_lt]; push_cast; constructor <;> linarith

/-- To nearest even: within half a unit, the even neighbour at a tie (R122). -/
theorem rInt_nearest {m : ℚ} (hm : 0 ≤ m) (s : Bool) :
    |(rInt m s .nearestEven : ℚ) - m| ≤ 1 / 2 ∧
      (|(rInt m s .nearestEven : ℚ) - m| = 1 / 2 → rInt m s .nearestEven % 2 = 0) := by
  have h1 := floorNat_le hm
  have h2 := lt_floorNat_add_one hm
  unfold rInt
  simp only []
  split_ifs with h hu
  · rw [← h]; simp
  · have hd : |((m.floor.toNat + 1 : ℕ) : ℚ) - m| = 1 - (m - m.floor.toNat) := by
      rw [abs_of_nonneg (by push_cast; linarith)]; push_cast; ring
    rw [hd]
    rcases hu with hu | ⟨hu, hodd⟩
    · exact ⟨by linarith, fun e => by linarith⟩
    · exact ⟨by linarith, fun _ => by omega⟩
  · rw [not_or, not_and] at hu
    have hd : |(m.floor.toNat : ℚ) - m| = m - m.floor.toNat := by
      rw [abs_of_nonpos (by linarith)]; ring
    rw [hd]
    refine ⟨not_lt.mp hu.1, fun e => ?_⟩
    have := hu.2 e
    omega

/-- Toward zero, and the directed mode that points toward zero for the sign: never above. -/
theorem rInt_down_le {m : ℚ} (hm : 0 ≤ m) {s : Bool} {rc : RoundingMode}
    (h : rc = .towardZero ∨ (rc = .up ∧ s = true) ∨ (rc = .down ∧ s = false)) : (rInt m s rc : ℚ) ≤ m := by
  have h1 := floorNat_le hm
  unfold rInt
  simp only []
  by_cases hi : m = m.floor.toNat
  · rw [if_pos hi]; exact h1
  · rw [if_neg hi]
    rcases h with rfl | ⟨rfl, rfl⟩ | ⟨rfl, rfl⟩ <;> simpa using h1

/-- The directed mode that points away from zero for the sign: never below. -/
theorem le_rInt_up {m : ℚ} (hm : 0 ≤ m) {s : Bool} {rc : RoundingMode}
    (h : (rc = .up ∧ s = false) ∨ (rc = .down ∧ s = true)) : m ≤ (rInt m s rc : ℚ) := by
  have h2 := lt_floorNat_add_one hm
  unfold rInt
  simp only []
  by_cases hi : m = m.floor.toNat
  · rw [if_pos hi]; exact hi.le
  · rw [if_neg hi]
    rcases h with ⟨rfl, rfl⟩ | ⟨rfl, rfl⟩ <;> simpa using h2.le

/-- Toward zero, and the directed mode toward zero: the floor, so at most `k` exactly below `k + 1` (R122). -/
theorem rInt_le_iff_down {m : ℚ} (hm : 0 ≤ m) {s : Bool} {rc : RoundingMode}
    (h : rc = .towardZero ∨ (rc = .up ∧ s = true) ∨ (rc = .down ∧ s = false)) (k : ℕ) :
    rInt m s rc ≤ k ↔ m < k + 1 := by
  constructor
  · intro hk
    by_contra hc
    have := le_rInt_of_le (n := k + 1) hm (by push_cast; exact not_lt.mp hc) s rc
    omega
  · intro hk
    have h1 := (rInt_down_le hm h).trans_lt hk
    have : rInt m s rc < k + 1 := by exact_mod_cast h1
    omega

/-- The directed mode away from zero: at most `k` exactly where the magnitude is (R122). -/
theorem rInt_le_iff_up {m : ℚ} (hm : 0 ≤ m) {s : Bool} {rc : RoundingMode}
    (h : (rc = .up ∧ s = false) ∨ (rc = .down ∧ s = true)) (k : ℕ) : rInt m s rc ≤ k ↔ m ≤ k :=
  ⟨fun hk => (le_rInt_up hm h).trans (by exact_mod_cast hk), fun hk => rInt_le_of_le hm hk s rc⟩

/-- To nearest even: at most an odd `k` exactly below the tie above it (R122). -/
theorem rInt_le_iff_nearest {m : ℚ} (hm : 0 ≤ m) (s : Bool) {k : ℕ} (hk : k % 2 = 1) :
    rInt m s .nearestEven ≤ k ↔ m < k + 1 / 2 := by
  obtain ⟨h1, h2⟩ := rInt_nearest hm s
  rw [abs_le] at h1
  constructor
  · intro h
    have h' : (rInt m s .nearestEven : ℚ) ≤ k := by exact_mod_cast h
    refine lt_of_le_of_ne (by linarith) fun he => ?_
    have hek : (rInt m s .nearestEven : ℚ) = k := by linarith
    have := h2 (by rw [hek, he, abs_of_neg (by linarith)]; ring)
    have : rInt m s .nearestEven = k := by exact_mod_cast hek
    omega
  · intro h
    have : (rInt m s .nearestEven : ℚ) < k + 1 := by linarith
    have : rInt m s .nearestEven < k + 1 := by exact_mod_cast this
    omega

/-- The significand before rounding in the operand's own binade lies in `[2^63, 2^64)`. -/
theorem scaled_bounds {a : ℚ} (ha : 0 < a) :
    (2 ^ 63 : ℚ) ≤ a / pow2 (ilog2 a - 63) ∧ a / pow2 (ilog2 a - 63) < 2 ^ 64 := by
  obtain ⟨h1, h2⟩ := ilog2_spec ha.ne'
  rw [abs_of_pos ha] at h1 h2
  have hp := pow2_pos (ilog2 a - 63)
  constructor
  · rw [le_div_iff₀ hp, ← pow2_natCast, ← pow2_add]
    rwa [show ((63 : ℕ) : ℤ) + (ilog2 a - 63) = ilog2 a by push_cast; ring]
  · rw [div_lt_iff₀ hp, ← pow2_natCast, ← pow2_add]
    rwa [show ((64 : ℕ) : ℤ) + (ilog2 a - 63) = ilog2 a + 1 by push_cast; ring]

/-- The significand and exponent after step 1 of R125: a 64-bit significand with its top bit set, and the value of the
operand rounded on the grid of its own binade. -/
theorem roundUnbounded_spec {a : ℚ} (ha : 0 < a) (s : Bool) (rc : RoundingMode) :
    2 ^ 63 ≤ (roundUnbounded a s rc).1 ∧ (roundUnbounded a s rc).1 < 2 ^ 64 ∧
      ((roundUnbounded a s rc).2 = ilog2 a ∨
        ((roundUnbounded a s rc).2 = ilog2 a + 1 ∧ (roundUnbounded a s rc).1 = 2 ^ 63)) ∧
      ((roundUnbounded a s rc).1 : ℚ) * pow2 ((roundUnbounded a s rc).2 - 63) =
        rInt (a / pow2 (ilog2 a - 63)) s rc * pow2 (ilog2 a - 63) := by
  obtain ⟨h1, h2⟩ := scaled_bounds ha
  have h0 : 0 ≤ a / pow2 (ilog2 a - 63) := le_trans (by positivity) h1
  have hlo : 2 ^ 63 ≤ rInt (a / pow2 (ilog2 a - 63)) s rc := le_rInt_of_le h0 (by exact_mod_cast h1) s rc
  have hhi : rInt (a / pow2 (ilog2 a - 63)) s rc ≤ 2 ^ 64 := rInt_le_of_le h0 (by exact_mod_cast h2.le) s rc
  unfold roundUnbounded
  simp only []
  split_ifs with h
  · refine ⟨le_refl _, by norm_num, Or.inr ⟨rfl, rfl⟩, ?_⟩
    rw [h, show ilog2 a + 1 - 63 = (ilog2 a - 63) + 1 by ring, pow2_succ]
    push_cast; ring
  · exact ⟨hlo, lt_of_le_of_ne hhi h, Or.inl rfl, rfl⟩

/-- The image step 4 of R125 builds: normal, of the given sign and value. -/
theorem pack_normal (s : Bool) {m : Nat} {e : Int} (h1 : 2 ^ 63 ≤ m) (h2 : m < 2 ^ 64) (h3 : -16382 ≤ e)
    (h4 : e ≤ 16383) :
    classify (pack s (BitVec.ofNat 15 (e + 16383).toNat) (BitVec.ofNat 64 m)) = .normal ∧
      val (pack s (BitVec.ofNat 15 (e + 16383).toNat) (BitVec.ofNat 64 m)) = applySign s (m * pow2 (e - 63)) := by
  have hm : (BitVec.ofNat 64 m).toNat = m := by
    rw [BitVec.toNat_ofNat]; exact Nat.mod_eq_of_lt h2
  have he : (BitVec.ofNat 15 (e + 16383).toNat).toNat = (e + 16383).toNat := by
    rw [BitVec.toNat_ofNat]; exact Nat.mod_eq_of_lt (by omega)
  constructor
  · rw [classify_normal_iff, expField_pack, sigField_pack, hm, he]
    omega
  · rw [val_pack, hm, he]
    congr 3
    have : (max (e + 16383).toNat 1 : Nat) = (e + 16383).toNat := by omega
    rw [this]
    omega

/-- The image the tiny case of R127 builds: finite, of the given sign and value. -/
theorem pack_tiny (s : Bool) {m : Nat} (h : m ≤ 2 ^ 63) :
    let z := if m = 2 ^ 63 then pack s 1 (BitVec.ofNat 64 m) else pack s 0 (BitVec.ofNat 64 m)
    isFinite z = true ∧ signBit z = s ∧ val z = applySign s (m * pow2 (-16445)) ∧
      (m = 0 → z = zeroImage s) ∧ (m ≠ 0 → canonicalNonzero z = true) := by
  have hm : (BitVec.ofNat 64 m).toNat = m := by
    rw [BitVec.toNat_ofNat]; exact Nat.mod_eq_of_lt (by omega)
  simp only []
  split_ifs with h63
  · have hn : classify (pack s 1 (BitVec.ofNat 64 m)) = .normal := by
      rw [classify_normal_iff, expField_pack, sigField_pack, hm]
      exact ⟨by decide, by decide, by omega⟩
    refine ⟨(isFinite_iff _).mpr (Or.inr (Or.inr hn)), signBit_pack _ _ _, ?_, fun h0 => by omega, fun _ => ?_⟩
    · rw [val_pack, hm]; rfl
    · rw [canonicalNonzero, hn]; rfl
  · refine ⟨?_, signBit_pack _ _ _, ?_, fun h0 => ?_, fun h0 => ?_⟩
    · rw [isFinite_iff, classify_zero_iff, classify_denormal_iff, expField_pack, sigField_pack, hm]
      by_cases h0 : m = 0 <;> simp [h0]
    · rw [val_pack, hm]; rfl
    · subst h0; rfl
    · have hd : classify (pack s 0 (BitVec.ofNat 64 m)) = .denormal := by
        rw [classify_denormal_iff, expField_pack, sigField_pack, hm]
        exact ⟨rfl, h0⟩
      have hi : integerBit (pack s 0 (BitVec.ofNat 64 m)) = false := by
        rw [integerBit_iff, sigField_pack, hm, decide_eq_false_iff_not]
        omega
      rw [canonicalNonzero, isDenormal, hd, hi]; rfl

/-- The value rounded in its own binade, as a multiple of the last place. -/
def binadeRound (v : ℚ) (rc : RoundingMode) : ℚ :=
  rInt (|v| / pow2 (ilog2 v - 63)) (sgnQ v) rc * pow2 (ilog2 v - 63)

/-- The value rounded on the grid of the denormals. -/
def tinyGridRound (v : ℚ) (rc : RoundingMode) : ℚ :=
  rInt (|v| / pow2 (-16445)) (sgnQ v) rc * pow2 (-16445)

/-- Everything `RoundX` can answer for a nonzero value (R125 to R127). -/
theorem roundX_cases {v : ℚ} (hv : v ≠ 0) (rc : RoundingMode) (force : Bool) :
    (pow2 16384 ≤ binadeRound v rc ∧ 16383 ≤ ilog2 v ∧
        roundX v rc force = (overflowImage (sgnQ v) rc, OE ||| PE)) ∨
    (pow2 (-16382) ≤ binadeRound v rc ∧ binadeRound v rc < pow2 16384 ∧ -16383 ≤ ilog2 v ∧ ilog2 v ≤ 16383 ∧
        classify (roundX v rc force).1 = .normal ∧ signBit (roundX v rc force).1 = sgnQ v ∧
        val (roundX v rc force).1 = applySign (sgnQ v) (binadeRound v rc) ∧
        (roundX v rc force).2 = flagsIf (decide (binadeRound v rc ≠ |v|) || force) PE) ∨
    (ilog2 v < -16382 ∧ binadeRound v rc < pow2 (-16382) ∧ tinyGridRound v rc ≤ pow2 (-16382) ∧
        isFinite (roundX v rc force).1 = true ∧ signBit (roundX v rc force).1 = sgnQ v ∧
        val (roundX v rc force).1 = applySign (sgnQ v) (tinyGridRound v rc) ∧
        (tinyGridRound v rc = 0 → (roundX v rc force).1 = zeroImage (sgnQ v)) ∧
        (tinyGridRound v rc ≠ 0 → canonicalNonzero (roundX v rc force).1 = true) ∧
        (roundX v rc force).2 = flagsIf (decide (tinyGridRound v rc ≠ |v|) || force) (UE ||| PE)) := by
  have ha : 0 < |v| := abs_pos.mpr hv
  obtain ⟨h63, h64, he, hval⟩ := roundUnbounded_spec ha (sgnQ v) rc
  rw [ilog2_abs] at he hval
  have hbin : binadeRound v rc =
      ((roundUnbounded |v| (sgnQ v) rc).1 : ℚ) * pow2 ((roundUnbounded |v| (sgnQ v) rc).2 - 63) := hval.symm
  rcases hme : roundUnbounded |v| (sgnQ v) rc with ⟨m, e⟩
  rw [hme] at h63 h64 he hbin
  simp only [] at h63 h64 he hbin
  have hlow : pow2 e ≤ binadeRound v rc := by
    rw [hbin, show e = ((63 : ℕ) : ℤ) + (e - 63) by push_cast; ring, pow2_add, pow2_natCast]
    rw [show ((63 : ℕ) : ℤ) + (e - 63) - 63 = e - 63 by push_cast; ring]
    exact mul_le_mul_of_nonneg_right (by exact_mod_cast h63) (pow2_pos _).le
  have hhigh : binadeRound v rc < pow2 (e + 1) := by
    rw [hbin, show e + 1 = ((64 : ℕ) : ℤ) + (e - 63) by push_cast; ring, pow2_add, pow2_natCast]
    exact mul_lt_mul_of_pos_right (by exact_mod_cast h64) (pow2_pos _)
  have hunf : roundX v rc force =
      if 16383 < e then (overflowImage (sgnQ v) rc, OE ||| PE)
      else if e < -16382 then tinyRound |v| (sgnQ v) rc force
      else (pack (sgnQ v) (BitVec.ofNat 15 (e + 16383).toNat) (BitVec.ofNat 64 m),
        flagsIf (decide ((m : ℚ) * pow2 (e - 63) ≠ |v|) || force) PE) := by
    unfold roundX
    rw [absQ_eq_abs]
    simp only [hme]
  by_cases hov : 16383 < e
  · left
    refine ⟨(pow2_le_iff.mpr (by omega)).trans hlow, by omega, ?_⟩
    rw [hunf, if_pos hov]
  · right
    by_cases htiny : e < -16382
    · right
      rw [if_neg hov, if_pos htiny] at hunf
      have hb : binadeRound v rc < pow2 (-16382) := hhigh.trans_le (pow2_le_iff.mpr (by omega))
      have hil : ilog2 v < -16382 := by omega
      have hlt : |v| < pow2 (-16382) := (ilog2_lt_iff hv).mp hil
      have hm2 : rInt (|v| / pow2 (-16445)) (sgnQ v) rc ≤ 2 ^ 63 := by
        apply rInt_le_of_le (div_nonneg ha.le (pow2_pos _).le)
        rw [div_le_iff₀ (pow2_pos _), Nat.cast_pow, Nat.cast_ofNat, ← pow2_natCast, ← pow2_add]
        exact hlt.le.trans (pow2_le_iff.mpr (by norm_num))
      have hz := pack_tiny (sgnQ v) hm2
      have h1 : (roundX v rc force).1 =
          if rInt (|v| / pow2 (-16445)) (sgnQ v) rc = 2 ^ 63 then
            pack (sgnQ v) 1 (BitVec.ofNat 64 (rInt (|v| / pow2 (-16445)) (sgnQ v) rc))
          else pack (sgnQ v) 0 (BitVec.ofNat 64 (rInt (|v| / pow2 (-16445)) (sgnQ v) rc)) := by
        rw [hunf]; rfl
      have h2 : (roundX v rc force).2 = flagsIf (decide (tinyGridRound v rc ≠ |v|) || force) (UE ||| PE) := by
        rw [hunf]; rfl
      simp only [] at hz
      rw [← h1] at hz
      refine ⟨hil, hb, ?_, hz.1, hz.2.1, hz.2.2.1, fun h0 => hz.2.2.2.1 ?_, fun h0 => hz.2.2.2.2 ?_, h2⟩
      · unfold tinyGridRound
        rw [show (-16382 : ℤ) = ((63 : ℕ) : ℤ) + (-16445) by norm_num, pow2_add, pow2_natCast]
        exact mul_le_mul_of_nonneg_right (by exact_mod_cast hm2) (pow2_pos _).le
      · unfold tinyGridRound at h0
        rcases mul_eq_zero.mp h0 with h | h
        · exact_mod_cast h
        · exact absurd h (pow2_ne_zero _)
      · rintro h
        exact h0 (by unfold tinyGridRound; rw [h]; simp)
    · left
      rw [if_neg hov, if_neg htiny] at hunf
      obtain ⟨hc, hvl⟩ := pack_normal (sgnQ v) h63 h64 (by omega : (-16382 : ℤ) ≤ e) (by omega)
      rw [hunf]
      refine ⟨(pow2_le_iff.mpr (by omega)).trans hlow, hhigh.trans_le (pow2_le_iff.mpr (by omega)), by omega, by omega,
        hc, signBit_pack _ _ _, ?_, ?_⟩
      · rw [hbin]; exact hvl
      · rw [hbin]

/-- The rounding in the operand's own binade is below a power of two exactly under the bound of its mode (R125). -/
theorem binadeRound_lt_iff {v : ℚ} (hv : v ≠ 0) (rc : RoundingMode) (e : ℤ) :
    binadeRound v rc < pow2 e ↔ roundsBelow v rc e := by
  have ha : 0 < |v| := abs_pos.mpr hv
  obtain ⟨hs1, hs2⟩ := scaled_bounds ha
  rw [ilog2_abs] at hs1 hs2
  obtain ⟨hl1, hl2⟩ := ilog2_spec hv
  have hp := pow2_pos (ilog2 v - 63)
  have hm0 : 0 ≤ |v| / pow2 (ilog2 v - 63) := div_nonneg ha.le hp.le
  have h64 : pow2 (e - 64) * 2 ^ 64 = pow2 e := by
    rw [← pow2_natCast, ← pow2_add]; congr 1; push_cast; ring
  have h65 : pow2 (e - 65) * 2 = pow2 (e - 64) := by
    rw [show e - 64 = (e - 65) + 1 by ring, pow2_succ]; ring
  have hpe := pow2_pos (e - 65)
  -- the bound of every mode holds at most half way up and fails from the power on
  have hlow : |v| < pow2 (e - 1) → roundsBelow v rc e := by
    intro h
    have h1 : pow2 (e - 1) * 2 = pow2 e := by rw [show e = (e - 1) + 1 by ring, pow2_succ]; ring_nf
    have : |v| < pow2 e - pow2 (e - 64) := by linarith
    have : |v| < pow2 e - pow2 (e - 65) := by linarith
    cases rc <;> simp only [roundsBelow, ← pow2_eq_zpow] <;> (try split_ifs) <;> linarith
  have hhigh : pow2 e ≤ |v| → ¬roundsBelow v rc e := by
    intro h hc
    cases rc <;> simp only [roundsBelow, ← pow2_eq_zpow] at hc <;> (try split_ifs at hc) <;> linarith
  rcases lt_trichotomy (ilog2 v) (e - 1) with h | h | h
  · refine iff_of_true ?_ (hlow ((ilog2_lt_iff hv).mp h))
    have hr : rInt (|v| / pow2 (ilog2 v - 63)) (sgnQ v) rc ≤ 2 ^ 64 :=
      rInt_le_of_le hm0 (by exact_mod_cast hs2.le) _ _
    calc binadeRound v rc ≤ 2 ^ 64 * pow2 (ilog2 v - 63) :=
          mul_le_mul_of_nonneg_right (by exact_mod_cast hr) hp.le
      _ = pow2 (ilog2 v + 1) := by
          rw [← pow2_natCast, ← pow2_add]; congr 1; push_cast; ring
      _ < pow2 e := pow2_lt_iff.mpr (by omega)
  · have hg : ilog2 v - 63 = e - 64 := by omega
    have hlt : binadeRound v rc < pow2 e ↔ rInt (|v| / pow2 (e - 64)) (sgnQ v) rc ≤ 2 ^ 64 - 1 := by
      rw [binadeRound, hg, ← h64, mul_comm (pow2 _), mul_lt_mul_iff_left₀ (pow2_pos _)]
      rw [show (2 : ℚ) ^ 64 = ((2 ^ 64 : ℕ) : ℚ) by norm_num, Nat.cast_lt]
      omega
    rw [hg] at hm0
    have hpg := pow2_pos (e - 64)
    have hdn : ∀ {rc : RoundingMode}, (rc = .towardZero ∨ (rc = .up ∧ sgnQ v = true) ∨ (rc = .down ∧ sgnQ v = false)) →
        (rInt (|v| / pow2 (e - 64)) (sgnQ v) rc ≤ 2 ^ 64 - 1 ↔ |v| < pow2 e) := by
      intro rc hrc
      rw [rInt_le_iff_down hm0 hrc, div_lt_iff₀ hpg, ← h64]; push_cast
      constructor <;> intro <;> linarith
    have hup : ∀ {rc : RoundingMode}, ((rc = .up ∧ sgnQ v = false) ∨ (rc = .down ∧ sgnQ v = true)) →
        (rInt (|v| / pow2 (e - 64)) (sgnQ v) rc ≤ 2 ^ 64 - 1 ↔ |v| ≤ pow2 e - pow2 (e - 64)) := by
      intro rc hrc
      rw [rInt_le_iff_up hm0 hrc, div_le_iff₀ hpg, ← h64]; push_cast
      constructor <;> intro <;> linarith
    rw [hlt]
    cases rc with
    | nearestEven =>
      rw [rInt_le_iff_nearest hm0 _ (by norm_num), div_lt_iff₀ hpg, roundsBelow, ← pow2_eq_zpow, ← pow2_eq_zpow, ← h64,
        ← h65]
      push_cast
      constructor <;> intro <;> linarith
    | towardZero => rw [hdn (.inl rfl), roundsBelow, ← pow2_eq_zpow]
    | up =>
      rw [roundsBelow, ← pow2_eq_zpow, ← pow2_eq_zpow]
      split_ifs with hn
      · exact hdn (.inr (.inl ⟨rfl, sgnQ_of_neg hn⟩))
      · exact hup (.inl ⟨rfl, by simpa [sgnQ] using hn⟩)
    | down =>
      rw [roundsBelow, ← pow2_eq_zpow, ← pow2_eq_zpow]
      split_ifs with hn
      · exact hup (.inr ⟨rfl, sgnQ_of_neg hn⟩)
      · exact hdn (.inr (.inr ⟨rfl, by simpa [sgnQ] using hn⟩))
  · have hv' : pow2 e ≤ |v| := (pow2_le_iff.mpr (by omega)).trans hl1
    refine iff_of_false (not_lt.mpr ?_) (hhigh hv')
    have hr : 2 ^ 63 ≤ rInt (|v| / pow2 (ilog2 v - 63)) (sgnQ v) rc := le_rInt_of_le hm0 (by exact_mod_cast hs1) _ _
    calc pow2 e ≤ pow2 (ilog2 v) := pow2_le_iff.mpr (by omega)
      _ = 2 ^ 63 * pow2 (ilog2 v - 63) := by rw [← pow2_natCast, ← pow2_add]; congr 1; push_cast; ring
      _ ≤ binadeRound v rc := mul_le_mul_of_nonneg_right (by exact_mod_cast hr) hp.le

/-- `RoundX` keeps the sign of its value. -/
theorem signBit_roundX {v : ℚ} (hv : v ≠ 0) (rc : RoundingMode) (force : Bool) :
    signBit (roundX v rc force).1 = sgnQ v := by
  rcases roundX_cases hv rc force with ⟨_, _, h⟩ | ⟨_, _, _, _, _, h, _⟩ | ⟨_, _, _, _, h, _⟩
  · rw [h]; exact signBit_overflowImage _ _
  · exact h
  · exact h

/-- The flags `RoundX` can raise: none, PE, UE with PE, OE with PE. -/
theorem roundX_flags {v : ℚ} (hv : v ≠ 0) (rc : RoundingMode) (force : Bool) :
    (roundX v rc force).2 = noFlags ∨ (roundX v rc force).2 = PE ∨ (roundX v rc force).2 = UE ||| PE ∨
      (roundX v rc force).2 = OE ||| PE := by
  rcases roundX_cases hv rc force with ⟨_, _, h⟩ | ⟨_, _, _, _, _, _, _, h⟩ | ⟨_, _, _, _, _, _, _, _, h⟩
  · rw [h]; simp
  · rw [h]; unfold flagsIf; split <;> simp
  · rw [h]; unfold flagsIf; split <;> simp

/-- A forced rounding raises PE. -/
theorem roundX_force {v : ℚ} (hv : v ≠ 0) (rc : RoundingMode) : hasFlag (roundX v rc true).2 .pe = true := by
  rcases roundX_cases hv rc true with ⟨_, _, h⟩ | ⟨_, _, _, _, _, _, _, h⟩ | ⟨_, _, _, _, _, _, _, _, h⟩ <;>
    (rw [h]; first | decide | (simp only [Bool.or_true]; decide))

/-- A value below `2^16383` does not overflow. -/
theorem roundX_no_overflow {v : ℚ} (hv : v ≠ 0) (h : |v| < pow2 16383) (rc : RoundingMode) (force : Bool) :
    isFinite (roundX v rc force).1 = true ∧ hasFlag (roundX v rc force).2 .oe = false := by
  have hil : ilog2 v < 16383 := (ilog2_lt_iff hv).mpr h
  rcases roundX_cases hv rc force with ⟨_, hc, _⟩ | ⟨_, _, _, _, hc, _, _, hf⟩ | ⟨_, _, _, hc, _, _, _, _, hf⟩
  · omega
  · refine ⟨(isFinite_iff _).mpr (Or.inr (Or.inr hc)), ?_⟩
    rw [hf]; unfold flagsIf; split <;> decide
  · refine ⟨hc, ?_⟩
    rw [hf]; unfold flagsIf; split <;> decide

/-- A value on a grid of 64 bits or fewer, not below the denormal grid and not too large, is rounded to itself with no
flag: the values R129 calls exactly representable. -/
theorem roundX_exact {v : ℚ} (hv : v ≠ 0) {n : Nat} {g : Int} (hn : n < 2 ^ 64) (hg : -16445 ≤ g)
    (hvg : |v| = n * pow2 g) (hlt : |v| < pow2 16384) (rc : RoundingMode) :
    isFinite (roundX v rc false).1 = true ∧ val (roundX v rc false).1 = v ∧ (roundX v rc false).2 = noFlags := by
  have ha : 0 < |v| := abs_pos.mpr hv
  have hvs : applySign (sgnQ v) |v| = v := by rw [← absQ_eq_abs]; exact applySign_sgnQ_absQ v
  -- the magnitude is an integer multiple of any finer power of two
  have hmul : ∀ g' : Int, g' ≤ g → ∃ k : Nat, |v| / pow2 g' = k := by
    intro g' hg'
    refine ⟨n * 2 ^ (g - g').toNat, ?_⟩
    rw [hvg, div_eq_iff (pow2_ne_zero _)]
    push_cast
    rw [← pow2_natCast, mul_assoc, ← pow2_add]
    congr 2
    omega
  have hround : ∀ g' : Int, (∃ k : Nat, |v| / pow2 g' = k) →
      (rInt (|v| / pow2 g') (sgnQ v) rc : ℚ) * pow2 g' = |v| := by
    rintro g' ⟨k, hk⟩
    rw [hk, rInt_natCast, ← hk, div_mul_cancel₀ _ (pow2_ne_zero _)]
  have hgrid : ilog2 v - 63 ≤ g := by
    have : |v| < pow2 (g + 64) := by
      rw [hvg, show g + 64 = ((64 : ℕ) : ℤ) + g by push_cast; ring, pow2_add, pow2_natCast]
      exact mul_lt_mul_of_pos_right (by exact_mod_cast hn) (pow2_pos _)
    have := (ilog2_lt_iff hv).mpr this
    omega
  have hb : binadeRound v rc = |v| := hround _ (hmul _ hgrid)
  rcases roundX_cases hv rc false with ⟨h, _, _⟩ | ⟨_, _, _, _, hc, _, hval, hf⟩ | ⟨_, _, _, hc, _, hval, _, _, hf⟩
  · rw [hb] at h
    exact absurd hlt (not_lt.mpr h)
  · refine ⟨(isFinite_iff _).mpr (Or.inr (Or.inr hc)), by rw [hval, hb, hvs], ?_⟩
    rw [hf, hb]; simp [flagsIf]
  · have ht : tinyGridRound v rc = |v| := hround _ (hmul _ hg)
    refine ⟨hc, by rw [hval, ht, hvs], ?_⟩
    rw [hf, ht]; simp [flagsIf]

/-- The same for `Enc` (R129). -/
theorem enc_exact {v : ℚ} (hv : v ≠ 0) {n : Nat} {g : Int} (hn : n < 2 ^ 64) (hg : -16445 ≤ g)
    (hvg : |v| = n * pow2 g) (hlt : |v| < pow2 16384) : isFinite (enc v) = true ∧ val (enc v) = v :=
  let h := roundX_exact hv hn hg hvg hlt .nearestEven
  ⟨h.1, h.2.1⟩

end Sys2Proof.Machine
end

