-- ==== Sys2Proof/Laws/Accuracy.lean ====
section
/-! SUPPORT. What the accuracy laws say where the rounded result is an infinity: none of them allows one for a true result
well below the overflow threshold (R163, R166). -/

namespace Sys2Proof.Machine

/-- A rounded value whose image is an infinity is at least `2^16384` in magnitude. -/
theorem le_roundedValue {v : ℚ} (h : isFinite (roundT v false .nearestEven).1 = false) :
    pow2 16384 ≤ |roundedValue v| := by
  have hv : v ≠ 0 := by rintro rfl; revert h; decide
  have hr : roundT v false .nearestEven = roundX v .nearestEven true := if_neg hv
  rw [hr] at h
  obtain ⟨_, _, _, hval⟩ := roundUnbounded_spec (abs_pos.mpr hv) (sgnQ v) .nearestEven
  rw [ilog2_abs] at hval
  have hrv : |roundedValue v| = binadeRound v .nearestEven := by
    simp only [roundedValue, hr, h, absQ_eq_abs, Bool.false_eq_true, if_false, hval, abs_applySign]
    exact abs_of_nonneg (mul_nonneg (Nat.cast_nonneg _) (pow2_pos _).le)
  rw [hrv]
  rcases roundX_cases hv .nearestEven true with ⟨hb, _⟩ | ⟨_, _, _, _, hc, _⟩ | ⟨_, _, _, hc, _⟩
  · exact hb
  · rw [isFinite, hc] at h; cases h
  · rw [hc] at h; cases h

/-- A result within `n` units in the last place of a true result that stays below `2^16384` by as much is finite. -/
theorem WithinUlps.finite {n : ℕ} {v : ℚ} {t : ℝ} (h : WithinUlps n v t) (ht : |t| + n * ulpOf t < 2 ^ (16384 : ℤ)) :
    isFinite (roundT v false .nearestEven).1 = true := by
  by_contra hc
  have hge := le_roundedValue (Bool.eq_false_iff.mpr hc)
  have h1 : (2 : ℝ) ^ (16384 : ℤ) ≤ |(roundedValue v : ℝ)| := by
    rw [pow2_eq_zpow] at hge
    exact_mod_cast hge
  have h3 := abs_sub_abs_le_abs_sub (roundedValue v : ℝ) t
  unfold WithinUlps at h
  linarith

end Sys2Proof.Machine
end

