-- ==== Sys2Proof/Laws/Grid.lean ====
section
/-! SUPPORT. The grid of the finite images: every finite image is a multiple of its last place, a canonical image is
determined by its value, and a finite rounding result is the value rounded on such a grid. -/

namespace Sys2Proof.Machine

/-- The magnitude of an image: a 64-bit integer times the power of its last place (R21 to R23). -/
theorem abs_val (x : Image) : |val x| = (sigField x).toNat * pow2 (scaleOf x) := by
  rw [← absQ_eq_abs, absQ_val]

/-- The last place of an image is never below the denormal grid (R23). -/
theorem scaleOf_ge (x : Image) : -16445 ≤ scaleOf x := by
  unfold scaleOf; omega

/-- A finite image has an exponent field below all ones (R21 to R23). -/
theorem exp_le_of_finite {x : Image} (h : isFinite x = true) : (expField x).toNat ≤ 0x7FFE := by
  rcases (isFinite_iff x).mp h with h | h | h
  · have := ((classify_zero_iff x).mp h).1; omega
  · have := ((classify_denormal_iff x).mp h).1; omega
  · exact ((classify_normal_iff x).mp h).2.1

/-- The greatest finite magnitude is that of `maxImage` (R21). -/
theorem abs_val_le {x : Image} (h : isFinite x = true) : |val x| ≤ (2 ^ 64 - 1) * pow2 16320 := by
  have h1 := exp_le_of_finite h
  have h2 : scaleOf x ≤ 16320 := by unfold scaleOf; omega
  have h3 := (sigField x).isLt
  have h4 : ((sigField x).toNat : ℚ) ≤ 2 ^ 64 - 1 := by
    have : (sigField x).toNat + 1 ≤ 2 ^ 64 := h3
    have : (((sigField x).toNat + 1 : ℕ) : ℚ) ≤ ((2 ^ 64 : ℕ) : ℚ) := by exact_mod_cast this
    push_cast at this
    linarith
  rw [abs_val]
  exact mul_le_mul h4 (pow2_le_iff.mpr h2) (pow2_pos _).le (by norm_num)

/-- No finite image reaches `2^16384` (R21). -/
theorem abs_val_lt {x : Image} (h : isFinite x = true) : |val x| < pow2 16384 := by
  refine (abs_val_le h).trans_lt ?_
  rw [show (16384 : ℤ) = ((64 : ℕ) : ℤ) + 16320 by norm_num, pow2_add, pow2_natCast]
  exact mul_lt_mul_of_pos_right (by norm_num) (pow2_pos _)

/-- A multiple of a power of two is a multiple of every smaller one. -/
theorem mul_pow2_regrid (n : ℕ) {g g' : ℤ} (h : g' ≤ g) : ∃ k : ℕ, (n : ℚ) * pow2 g = k * pow2 g' := by
  refine ⟨n * 2 ^ (g - g').toNat, ?_⟩
  push_cast
  rw [← pow2_natCast, mul_assoc, ← pow2_add]
  congr 2
  omega

/-- Every image is on the grid of the denormals. -/
theorem val_denormal_grid (x : Image) : ∃ k : ℕ, |val x| = k * pow2 (-16445) := by
  rw [abs_val]
  exact mul_pow2_regrid _ (scaleOf_ge x)

/-- An image of magnitude at least `2^e` is on the grid of that binade. -/
theorem val_binade_grid {x : Image} {e : ℤ} (h : pow2 e ≤ |val x|) : ∃ k : ℕ, |val x| = k * pow2 (e - 63) := by
  rw [abs_val] at h ⊢
  apply mul_pow2_regrid
  have : pow2 e < pow2 (scaleOf x + 64) := by
    refine h.trans_lt ?_
    rw [show scaleOf x + 64 = ((64 : ℕ) : ℤ) + scaleOf x by push_cast; ring, pow2_add, pow2_natCast]
    exact mul_lt_mul_of_pos_right (by exact_mod_cast (sigField x).isLt) (pow2_pos _)
  have := pow2_lt_iff.mp this
  omega

/-- The fields, the last place and the exponent of a canonical image (R129). -/
theorem canonical_cases {x : Image} (h : canonicalNonzero x = true) :
    (1 ≤ (expField x).toNat ∧ (expField x).toNat ≤ 0x7FFE ∧ 2 ^ 63 ≤ (sigField x).toNat ∧
        scaleOf x = (expField x).toNat - 16446 ∧ ilog2 (val x) = (expField x).toNat - 16383) ∨
      ((expField x).toNat = 0 ∧ (sigField x).toNat ≠ 0 ∧ (sigField x).toNat < 2 ^ 63 ∧
        scaleOf x = -16445 ∧ ilog2 (val x) < -16382) := by
  have hlt := (sigField x).isLt
  simp only [canonicalNonzero, isDenormal, Bool.or_eq_true, Bool.and_eq_true, beq_iff_eq, classify_normal_iff,
    classify_denormal_iff, integerBit_iff, Bool.not_eq_true', decide_eq_false_iff_not, not_le] at h
  rcases h with ⟨h1, h2, h3⟩ | ⟨⟨h1, h2⟩, h3⟩
  · have hs : scaleOf x = (expField x).toNat - 16446 := by unfold scaleOf; omega
    refine Or.inl ⟨h1, h2, h3, hs, ilog2_eq_of ?_ ?_⟩
    · rw [abs_val, hs, show ((expField x).toNat : ℤ) - 16383 = ((63 : ℕ) : ℤ) + ((expField x).toNat - 16446) by
        push_cast; ring, pow2_add, pow2_natCast]
      exact mul_le_mul_of_nonneg_right (by exact_mod_cast h3) (pow2_pos _).le
    · rw [abs_val, hs, show ((expField x).toNat : ℤ) - 16383 + 1 = ((64 : ℕ) : ℤ) + ((expField x).toNat - 16446) by
        push_cast; ring, pow2_add, pow2_natCast]
      exact mul_lt_mul_of_pos_right (by exact_mod_cast hlt) (pow2_pos _)
  · have hs : scaleOf x = -16445 := by unfold scaleOf; omega
    have hv : val x ≠ 0 := by
      rw [← abs_ne_zero, abs_val]
      exact mul_ne_zero (by exact_mod_cast h2) (pow2_ne_zero _)
    refine Or.inr ⟨h1, h2, h3, hs, (ilog2_lt_iff hv).mpr ?_⟩
    rw [abs_val, hs, show (-16382 : ℤ) = ((63 : ℕ) : ℤ) + (-16445) by norm_num, pow2_add, pow2_natCast]
    exact mul_lt_mul_of_pos_right (by exact_mod_cast h3) (pow2_pos _)

/-- A canonical image is finite and nonzero. -/
theorem canonical_finite {x : Image} (h : canonicalNonzero x = true) : isFinite x = true ∧ val x ≠ 0 := by
  constructor
  · rw [isFinite_iff]
    simp only [canonicalNonzero, isDenormal, Bool.or_eq_true, Bool.and_eq_true, beq_iff_eq] at h
    tauto
  · rw [← abs_ne_zero, abs_val]
    refine mul_ne_zero ?_ (pow2_ne_zero _)
    rcases canonical_cases h with h | h
    · exact_mod_cast (by omega : (sigField x).toNat ≠ 0)
    · exact_mod_cast h.2.1

/-- Two canonical images of the same value are the same image (R129). -/
theorem canonical_unique {x y : Image} (hx : canonicalNonzero x = true) (hy : canonicalNonzero y = true)
    (h : val x = val y) : x = y := by
  have hs : signBit x = signBit y := by
    rw [← sgnQ_val (canonical_finite hx).2, ← sgnQ_val (canonical_finite hy).2, h]
  have ha : |val x| = |val y| := by rw [h]
  have he : (expField x).toNat = (expField y).toNat ∧ scaleOf x = scaleOf y := by
    have hl : ilog2 (val x) = ilog2 (val y) := by rw [h]
    rcases canonical_cases hx with a | a <;> rcases canonical_cases hy with b | b <;> omega
  rw [abs_val, abs_val, he.2] at ha
  refine image_eq_of_fields hs (BitVec.eq_of_toNat_eq he.1) (BitVec.eq_of_toNat_eq ?_)
  exact_mod_cast mul_right_cancel₀ (pow2_ne_zero _) ha

/-- A nonzero rounding result is canonical, unless it is an infinity. -/
theorem roundX_canonical {v : ℚ} (hv : v ≠ 0) (rc : RoundingMode) (force : Bool)
    (hf : isFinite (roundX v rc force).1 = true) (h0 : val (roundX v rc force).1 ≠ 0) :
    canonicalNonzero (roundX v rc force).1 = true := by
  rcases roundX_cases hv rc force with ⟨_, _, h⟩ | ⟨_, _, _, _, h, _⟩ | ⟨_, _, _, _, _, h, _, hc, _⟩
  · have : classify (overflowImage (sgnQ v) rc) = .inf ∨ classify (overflowImage (sgnQ v) rc) = .normal := by
      cases rc <;> cases sgnQ v <;> simp [overflowImage]
    rcases this with h' | h'
    · rw [h] at hf; simp [isFinite, h', FClass.isFinite] at hf
    · rw [h, canonicalNonzero, h']; rfl
  · rw [canonicalNonzero, h]; rfl
  · exact hc (fun h1 => h0 (by rw [h, h1, applySign_eq_zero.mpr rfl]))

/-- The lowest bit of an image is that of its significand (R20). -/
theorem lsb_eq (x : Image) : x.getLsbD 0 = decide ((sigField x).toNat % 2 = 1) := by
  have h : x.getLsbD 0 = (sigField x).getLsbD 0 := by simp [sigField]
  rw [h, BitVec.getLsbD, Nat.testBit_zero]

/-- An image of an even multiple of a last place has an even significand, where that is the image's own last place or the
image has a full significand. -/
theorem lsb_false_of_even {x : Image} {n : ℕ} {g : ℤ} (hv : |val x| = n * pow2 g) (hn : n % 2 = 0) (hle : n ≤ 2 ^ 64)
    (h : scaleOf x = g ∨ 2 ^ 63 ≤ (sigField x).toNat) : x.getLsbD 0 = false := by
  rw [lsb_eq, decide_eq_false_iff_not]
  have hlt := (sigField x).isLt
  rw [abs_val] at hv
  rcases lt_or_ge (scaleOf x) g with hs | hs
  · have e : (sigField x).toNat = n * 2 ^ (g - scaleOf x).toNat := by
      have hp : (n : ℚ) * pow2 g = (n * pow2 ((g - scaleOf x).toNat : ℕ)) * pow2 (scaleOf x) := by
        rw [mul_assoc, ← pow2_add]; congr 2; omega
      rw [hp, pow2_natCast] at hv
      exact_mod_cast mul_right_cancel₀ (pow2_ne_zero _) hv
    rw [e, Nat.mul_mod, hn]; simp
  · have e : (sigField x).toNat * 2 ^ (scaleOf x - g).toNat = n := by
      have hp : ((sigField x).toNat : ℚ) * pow2 (scaleOf x) =
          ((sigField x).toNat * pow2 ((scaleOf x - g).toNat : ℕ)) * pow2 g := by
        rw [mul_assoc, ← pow2_add]; congr 2; omega
      rw [hp, pow2_natCast] at hv
      exact_mod_cast mul_right_cancel₀ (pow2_ne_zero _) hv
    rcases Nat.eq_zero_or_pos (scaleOf x - g).toNat with h0 | h0
    · rw [h0] at e; omega
    · have h63 := h.resolve_left (by omega)
      obtain ⟨d, hd⟩ := Nat.exists_eq_succ_of_ne_zero h0.ne'
      rw [hd, Nat.pow_succ] at e
      have : 1 ≤ 2 ^ d := Nat.one_le_two_pow
      have : (sigField x).toNat * 2 ≤ n := by nlinarith
      omega

/-- No integer lies strictly between a magnitude and its rounding (R122). -/
theorem no_int_between {m : ℚ} (hm : 0 ≤ m) (s : Bool) (rc : RoundingMode) (k : ℕ) :
    ¬(m < k ∧ (k : ℚ) < rInt m s rc) ∧ ¬((rInt m s rc : ℚ) < k ∧ (k : ℚ) < m) := by
  constructor
  · rintro ⟨h1, h2⟩
    have := rInt_le_of_le hm h1.le s rc
    exact absurd h2 (not_lt.mpr (by exact_mod_cast this))
  · rintro ⟨h1, h2⟩
    have := le_rInt_of_le hm h2.le s rc
    exact absurd h1 (not_lt.mpr (by exact_mod_cast this))

/-- The magnitude of a signed multiple. -/
theorem abs_applySign_nat (s : Bool) (n : ℕ) (g : ℤ) : |applySign s (n * pow2 g)| = n * pow2 g := by
  rw [abs_applySign, abs_of_nonneg (mul_nonneg (Nat.cast_nonneg _) (pow2_pos _).le)]

/-- A finite result is the value rounded on a grid of which every finite image is a point, but for the images below a
point `b` of the grid that neither the value nor its rounding lies below, and an even multiple has an even significand; or
the value is out of range and the mode directs it back to the greatest finite magnitude (R125 to R127). -/
theorem roundX_grid {v : ℚ} (hv : v ≠ 0) (rc : RoundingMode) (force : Bool)
    (hf : isFinite (roundX v rc force).1 = true) :
    (∃ g : ℤ, ∃ b : ℕ, (b : ℚ) ≤ |v| / pow2 g ∧
        val (roundX v rc force).1 = applySign (sgnQ v) (rInt (|v| / pow2 g) (sgnQ v) rc * pow2 g) ∧
        (rInt (|v| / pow2 g) (sgnQ v) rc % 2 = 0 → (roundX v rc force).1.getLsbD 0 = false) ∧
        ∀ y, isFinite y = true → (∃ k : ℕ, |val y| = k * pow2 g) ∨ |val y| < b * pow2 g) ∨
      (pow2 16384 ≤ |v| ∧ (roundX v rc force).1 = maxImage (sgnQ v) ∧
        (rc = .towardZero ∨ (rc = .up ∧ v < 0) ∨ (rc = .down ∧ 0 < v))) := by
  have ha : 0 < |v| := abs_pos.mpr hv
  rcases roundX_cases hv rc force with ⟨hb, _, h⟩ | ⟨_, _, _, _, hc, _, h, _⟩ | ⟨_, _, ht, _, _, h, hz, hc, _⟩
  · right
    have hm : rc = .towardZero ∨ (rc = .up ∧ sgnQ v = true) ∨ (rc = .down ∧ sgnQ v = false) := by
      rw [h] at hf
      cases rc <;> cases hs : sgnQ v <;> simp_all [overflowImage, isFinite, FClass.isFinite]
    refine ⟨?_, ?_, ?_⟩
    · have h0 := div_nonneg ha.le (pow2_pos (ilog2 v - 63)).le
      have := rInt_down_le h0 hm
      refine hb.trans ?_
      unfold binadeRound
      calc _ ≤ |v| / pow2 (ilog2 v - 63) * pow2 (ilog2 v - 63) :=
            mul_le_mul_of_nonneg_right this (pow2_pos _).le
        _ = |v| := div_mul_cancel₀ _ (pow2_ne_zero _)
    · rw [h]; rcases hm with rfl | ⟨rfl, h'⟩ | ⟨rfl, h'⟩ <;> simp [overflowImage, *]
    · rcases hm with h' | ⟨h1, h2⟩ | ⟨h1, h2⟩
      · exact Or.inl h'
      · exact Or.inr (Or.inl ⟨h1, by simpa [sgnQ] using h2⟩)
      · exact Or.inr (Or.inr ⟨h1, lt_of_le_of_ne (by simpa [sgnQ] using h2) (Ne.symm hv)⟩)
  · left
    obtain ⟨hlo, hhi⟩ := ilog2_abs v ▸ scaled_bounds ha
    refine ⟨ilog2 v - 63, 2 ^ 63, by exact_mod_cast hlo, h, fun he => ?_, fun y hy => ?_⟩
    · refine lsb_false_of_even (by rw [h]; exact abs_applySign_nat _ _ _) he ?_
        (.inr ?_)
      · exact rInt_le_of_le (le_trans (by positivity) hlo) (by exact_mod_cast hhi.le) _ _
      · exact ((classify_normal_iff _).mp hc).2.2
    rcases lt_or_ge |val y| (pow2 (ilog2 v)) with h' | h'
    · right
      rw [show ilog2 v = ((63 : ℕ) : ℤ) + (ilog2 v - 63) by push_cast; ring, pow2_add, pow2_natCast] at h'
      push_cast; exact h'
    · exact Or.inl (val_binade_grid h')
  · left
    refine ⟨-16445, 0, by simpa using div_nonneg ha.le (pow2_pos _).le, h, fun he => ?_,
      fun y _ => Or.inl (val_denormal_grid y)⟩
    by_cases h0 : tinyGridRound v rc = 0
    · rw [hz h0]; cases sgnQ v <;> decide
    · refine lsb_false_of_even (by rw [h]; exact abs_applySign_nat _ _ _) he ?_ ?_
      · have h63 : pow2 (-16382) = 2 ^ 63 * pow2 (-16445) := by
          rw [← pow2_natCast, ← pow2_add]; congr 1
        rw [tinyGridRound, h63] at ht
        have := (mul_le_mul_iff_left₀ (pow2_pos _)).mp ht
        have : rInt (|v| / pow2 (-16445)) (sgnQ v) rc ≤ 2 ^ 63 := by exact_mod_cast this
        omega
      · rcases canonical_cases (hc h0) with h' | h'
        · exact .inr h'.2.2.1
        · exact .inl h'.2.2.2.1

/-- A finite result does not pass a bound that is a point of a grid no finer than those `RoundX` uses. -/
theorem roundX_le {v : ℚ} (hv : v ≠ 0) (rc : RoundingMode) (force : Bool) {n : ℕ} {h : ℤ} (hle : |v| ≤ n * pow2 h)
    (hg : ilog2 v - 63 ≤ h) (hd : -16445 ≤ h) (hf : isFinite (roundX v rc force).1 = true) :
    |val (roundX v rc force).1| ≤ n * pow2 h := by
  have key : ∀ g : ℤ, g ≤ h → (rInt (|v| / pow2 g) (sgnQ v) rc : ℚ) * pow2 g ≤ n * pow2 h := by
    intro g hgh
    obtain ⟨k, hk⟩ := mul_pow2_regrid n hgh
    rw [hk] at hle ⊢
    have : rInt (|v| / pow2 g) (sgnQ v) rc ≤ k :=
      rInt_le_of_le (div_nonneg (abs_nonneg v) (pow2_pos g).le) ((div_le_iff₀ (pow2_pos g)).mpr hle) _ _
    exact mul_le_mul_of_nonneg_right (by exact_mod_cast this) (pow2_pos g).le
  rcases roundX_cases hv rc force with ⟨hb, _, _⟩ | ⟨_, _, _, _, _, _, h, _⟩ | ⟨_, _, _, _, _, h, _, _, _⟩
  · exact (abs_val_lt hf).le.trans (hb.trans (key _ hg))
  · rw [h, abs_applySign, binadeRound, abs_of_nonneg (mul_nonneg (Nat.cast_nonneg _) (pow2_pos _).le)]
    exact key _ hg
  · rw [h, abs_applySign, tinyGridRound, abs_of_nonneg (mul_nonneg (Nat.cast_nonneg _) (pow2_pos _).le)]
    exact key _ hd

/-- A value is its magnitude with its sign. -/
theorem applySign_sgnQ_abs (v : ℚ) : applySign (sgnQ v) |v| = v := by rw [← absQ_eq_abs]; exact applySign_sgnQ_absQ v

end Sys2Proof.Machine
end

