-- ==== Sys2Proof/Laws/State.lean ====
section
/-! SUPPORT. One lemma per field per update of State: what each named operation leaves in each field; the
fields of the packed context word. -/

namespace Sys2Proof.Machine

section setA
variable (s : State) (v : Image)

@[simp] theorem State.setA_a : (s.setA v).a = v := rfl
@[simp] theorem State.setA_b : (s.setA v).b = s.b := rfl
@[simp] theorem State.setA_r : (s.setA v).r = s.r := rfl
@[simp] theorem State.setA_ctx : (s.setA v).ctx = s.ctx := rfl
@[simp] theorem State.setA_cc : (s.setA v).cc = s.cc := rfl
@[simp] theorem State.setA_q : (s.setA v).q = s.q := rfl
@[simp] theorem State.setA_written : (s.setA v).written = { s.written with a := true } := rfl
@[simp] theorem State.setA_par : (s.setA v).par = s.par := rfl
@[simp] theorem State.setA_stream : (s.setA v).stream = s.stream := rfl
@[simp] theorem State.setA_draws : (s.setA v).draws = s.draws := rfl
@[simp] theorem State.setA_port : (s.setA v).port = s.port := rfl

end setA

section setB
variable (s : State) (v : Image)

@[simp] theorem State.setB_a : (s.setB v).a = s.a := rfl
@[simp] theorem State.setB_b : (s.setB v).b = v := rfl
@[simp] theorem State.setB_r : (s.setB v).r = s.r := rfl
@[simp] theorem State.setB_ctx : (s.setB v).ctx = s.ctx := rfl
@[simp] theorem State.setB_cc : (s.setB v).cc = s.cc := rfl
@[simp] theorem State.setB_q : (s.setB v).q = s.q := rfl
@[simp] theorem State.setB_written : (s.setB v).written = { s.written with b := true } := rfl
@[simp] theorem State.setB_par : (s.setB v).par = s.par := rfl
@[simp] theorem State.setB_stream : (s.setB v).stream = s.stream := rfl
@[simp] theorem State.setB_draws : (s.setB v).draws = s.draws := rfl
@[simp] theorem State.setB_port : (s.setB v).port = s.port := rfl

end setB

section setR
variable (s : State) (v : Image)

@[simp] theorem State.setR_a : (s.setR v).a = s.a := rfl
@[simp] theorem State.setR_b : (s.setR v).b = s.b := rfl
@[simp] theorem State.setR_r : (s.setR v).r = v := rfl
@[simp] theorem State.setR_ctx : (s.setR v).ctx = s.ctx := rfl
@[simp] theorem State.setR_cc : (s.setR v).cc = s.cc := rfl
@[simp] theorem State.setR_q : (s.setR v).q = s.q := rfl
@[simp] theorem State.setR_written : (s.setR v).written = { s.written with r := true } := rfl
@[simp] theorem State.setR_par : (s.setR v).par = s.par := rfl
@[simp] theorem State.setR_stream : (s.setR v).stream = s.stream := rfl
@[simp] theorem State.setR_draws : (s.setR v).draws = s.draws := rfl
@[simp] theorem State.setR_port : (s.setR v).port = s.port := rfl

end setR

section setCC
variable (s : State) (v : CompletionCode)

@[simp] theorem State.setCC_a : (s.setCC v).a = s.a := rfl
@[simp] theorem State.setCC_b : (s.setCC v).b = s.b := rfl
@[simp] theorem State.setCC_r : (s.setCC v).r = s.r := rfl
@[simp] theorem State.setCC_ctx : (s.setCC v).ctx = s.ctx := rfl
@[simp] theorem State.setCC_cc : (s.setCC v).cc = v := rfl
@[simp] theorem State.setCC_q : (s.setCC v).q = s.q := rfl
@[simp] theorem State.setCC_written : (s.setCC v).written = { s.written with cc := true } := rfl
@[simp] theorem State.setCC_par : (s.setCC v).par = s.par := rfl
@[simp] theorem State.setCC_stream : (s.setCC v).stream = s.stream := rfl
@[simp] theorem State.setCC_draws : (s.setCC v).draws = s.draws := rfl
@[simp] theorem State.setCC_port : (s.setCC v).port = s.port := rfl

end setCC

section setQ
variable (s : State) (v : QuotBits)

@[simp] theorem State.setQ_a : (s.setQ v).a = s.a := rfl
@[simp] theorem State.setQ_b : (s.setQ v).b = s.b := rfl
@[simp] theorem State.setQ_r : (s.setQ v).r = s.r := rfl
@[simp] theorem State.setQ_ctx : (s.setQ v).ctx = s.ctx := rfl
@[simp] theorem State.setQ_cc : (s.setQ v).cc = s.cc := rfl
@[simp] theorem State.setQ_q : (s.setQ v).q = v := rfl
@[simp] theorem State.setQ_written : (s.setQ v).written = { s.written with q := true } := rfl
@[simp] theorem State.setQ_par : (s.setQ v).par = s.par := rfl
@[simp] theorem State.setQ_stream : (s.setQ v).stream = s.stream := rfl
@[simp] theorem State.setQ_draws : (s.setQ v).draws = s.draws := rfl
@[simp] theorem State.setQ_port : (s.setQ v).port = s.port := rfl

end setQ

section raise
variable (s : State) (fs : FlagSet)

@[simp] theorem State.raise_a : (s.raise fs).a = s.a := rfl
@[simp] theorem State.raise_b : (s.raise fs).b = s.b := rfl
@[simp] theorem State.raise_r : (s.raise fs).r = s.r := rfl
@[simp] theorem State.raise_ctx : (s.raise fs).ctx = { s.ctx with flags := s.ctx.flags ||| fs } := rfl
@[simp] theorem State.raise_cc : (s.raise fs).cc = s.cc := rfl
@[simp] theorem State.raise_q : (s.raise fs).q = s.q := rfl
@[simp] theorem State.raise_written : (s.raise fs).written = s.written := rfl
@[simp] theorem State.raise_par : (s.raise fs).par = s.par := rfl
@[simp] theorem State.raise_stream : (s.raise fs).stream = s.stream := rfl
@[simp] theorem State.raise_draws : (s.raise fs).draws = s.draws := rfl
@[simp] theorem State.raise_port : (s.raise fs).port = s.port := rfl

end raise

section writeCtx
variable (s : State) (rc pc : BitVec 2) (fl : FlagSet)

@[simp] theorem State.writeCtx_a : (s.writeCtx rc pc fl).a = s.a := rfl
@[simp] theorem State.writeCtx_b : (s.writeCtx rc pc fl).b = s.b := rfl
@[simp] theorem State.writeCtx_r : (s.writeCtx rc pc fl).r = s.r := rfl
@[simp] theorem State.writeCtx_ctx : (s.writeCtx rc pc fl).ctx = ⟨rc, pc, fl⟩ := rfl
@[simp] theorem State.writeCtx_cc : (s.writeCtx rc pc fl).cc = s.cc := rfl
@[simp] theorem State.writeCtx_q : (s.writeCtx rc pc fl).q = s.q := rfl
@[simp] theorem State.writeCtx_written : (s.writeCtx rc pc fl).written =
    { s.written with rc := true, pc := true, flags := true } := rfl
@[simp] theorem State.writeCtx_par : (s.writeCtx rc pc fl).par = s.par := rfl
@[simp] theorem State.writeCtx_stream : (s.writeCtx rc pc fl).stream = s.stream := rfl
@[simp] theorem State.writeCtx_draws : (s.writeCtx rc pc fl).draws = s.draws := rfl
@[simp] theorem State.writeCtx_port : (s.writeCtx rc pc fl).port = s.port := rfl

end writeCtx

section writeFlags
variable (s : State) (fl : FlagSet)

@[simp] theorem State.writeFlags_a : (s.writeFlags fl).a = s.a := rfl
@[simp] theorem State.writeFlags_b : (s.writeFlags fl).b = s.b := rfl
@[simp] theorem State.writeFlags_r : (s.writeFlags fl).r = s.r := rfl
@[simp] theorem State.writeFlags_ctx : (s.writeFlags fl).ctx = { s.ctx with flags := fl } := rfl
@[simp] theorem State.writeFlags_cc : (s.writeFlags fl).cc = s.cc := rfl
@[simp] theorem State.writeFlags_q : (s.writeFlags fl).q = s.q := rfl
@[simp] theorem State.writeFlags_written : (s.writeFlags fl).written = { s.written with flags := true } := rfl
@[simp] theorem State.writeFlags_par : (s.writeFlags fl).par = s.par := rfl
@[simp] theorem State.writeFlags_stream : (s.writeFlags fl).stream = s.stream := rfl
@[simp] theorem State.writeFlags_draws : (s.writeFlags fl).draws = s.draws := rfl
@[simp] theorem State.writeFlags_port : (s.writeFlags fl).port = s.port := rfl

end writeFlags

/-! The packed context word (R30) -/

@[simp] theorem Ctx.word_rc (c : Ctx) : c.word.extractLsb' 8 2 = c.rc := by
  apply BitVec.eq_of_getLsbD_eq
  intro i hi
  simp only [Ctx.word, BitVec.getLsbD_extractLsb', BitVec.getLsbD_append]
  simp [hi, show ¬ 8 + i < 6 by omega, show ¬ 8 + i - 6 < 2 by omega, show 8 + i - 6 - 2 = i by omega]

@[simp] theorem Ctx.word_pc (c : Ctx) : c.word.extractLsb' 6 2 = c.pc := by
  apply BitVec.eq_of_getLsbD_eq
  intro i hi
  simp only [Ctx.word, BitVec.getLsbD_extractLsb', BitVec.getLsbD_append]
  simp [hi, show ¬ 6 + i < 6 by omega]

@[simp] theorem Ctx.word_flags (c : Ctx) : c.word.extractLsb' 0 6 = c.flags := by
  apply BitVec.eq_of_getLsbD_eq
  intro i hi
  simp only [Ctx.word, BitVec.getLsbD_extractLsb', BitVec.getLsbD_append]
  simp [hi]

@[simp] theorem Ctx.ofWord_word (c : Ctx) : Ctx.ofWord c.word = c := by
  simp only [Ctx.ofWord, Ctx.word_rc, Ctx.word_pc, Ctx.word_flags]

end Sys2Proof.Machine
end

