-- ==== Sys2Proof/Laws/Ops.lean ====
section
/-! SUPPORT. The shared ends of the three command families, field by field, and the meaning of every command as the one
shared end applied to the command's own result function. -/

namespace Sys2Proof.Machine

section commitRemFields
variable (s : State) (o : RemOut)

@[simp] theorem State.commitRem_a : (s.commitRem o).a = o.a := rfl
@[simp] theorem State.commitRem_b : (s.commitRem o).b = s.b := rfl
@[simp] theorem State.commitRem_r : (s.commitRem o).r = s.r := rfl
@[simp] theorem State.commitRem_ctx :
    (s.commitRem o).ctx = { s.ctx with flags := s.ctx.flags ||| o.fs } := rfl
@[simp] theorem State.commitRem_cc : (s.commitRem o).cc = o.cc := rfl
@[simp] theorem State.commitRem_q : (s.commitRem o).q = o.q := rfl
@[simp] theorem State.commitRem_written :
    (s.commitRem o).written = { s.written with a := true, cc := true, q := true } := rfl
@[simp] theorem State.commitRem_par : (s.commitRem o).par = s.par := rfl
@[simp] theorem State.commitRem_stream : (s.commitRem o).stream = s.stream := rfl
@[simp] theorem State.commitRem_draws : (s.commitRem o).draws = s.draws := rfl
@[simp] theorem State.commitRem_port : (s.commitRem o).port = s.port := rfl

end commitRemFields

section commitTrigFields
variable (s : State) (o : TrigOut)

@[simp] theorem State.commitTrig_a : (s.commitTrig o).a = o.a := by
  cases h : o.b <;> simp [State.commitTrig, State.setB?, h]
@[simp] theorem State.commitTrig_b : (s.commitTrig o).b = o.b.getD s.b := by
  cases h : o.b <;> simp [State.commitTrig, State.setB?, h]
@[simp] theorem State.commitTrig_r : (s.commitTrig o).r = s.r := by
  cases h : o.b <;> simp [State.commitTrig, State.setB?, h]
@[simp] theorem State.commitTrig_ctx :
    (s.commitTrig o).ctx = { s.ctx with flags := s.ctx.flags ||| o.fs } := by
  cases h : o.b <;> simp [State.commitTrig, State.setB?, h]
@[simp] theorem State.commitTrig_cc : (s.commitTrig o).cc = o.cc := by
  cases h : o.b <;> simp [State.commitTrig, State.setB?, h]
@[simp] theorem State.commitTrig_q : (s.commitTrig o).q = s.q := by
  cases h : o.b <;> simp [State.commitTrig, State.setB?, h]
@[simp] theorem State.commitTrig_written :
    (s.commitTrig o).written = { s.written with a := true, b := s.written.b || o.b.isSome, cc := true } := by
  cases h : o.b <;> simp [State.commitTrig, State.setB?, h]
@[simp] theorem State.commitTrig_par : (s.commitTrig o).par = s.par := by
  cases h : o.b <;> simp [State.commitTrig, State.setB?, h]
@[simp] theorem State.commitTrig_stream : (s.commitTrig o).stream = s.stream := by
  cases h : o.b <;> simp [State.commitTrig, State.setB?, h]
@[simp] theorem State.commitTrig_draws : (s.commitTrig o).draws = s.draws := by
  cases h : o.b <;> simp [State.commitTrig, State.setB?, h]
@[simp] theorem State.commitTrig_port : (s.commitTrig o).port = s.port := by
  cases h : o.b <;> simp [State.commitTrig, State.setB?, h]

end commitTrigFields

/-- The image a by-value outcome writes to `R`, given the stream and the count of free draws. -/
def ByValue.image (stream draws : Nat) : ByValue → Image
  | .out z _ => z
  | .anyValue => Config.freeImage stream draws

/-- The flags a by-value outcome raises, given the stream and the count of free draws. -/
def ByValue.flags (stream draws : Nat) : ByValue → FlagSet
  | .out _ fs => fs
  | .anyValue => Config.freeFlags stream draws

/-- How many free values a by-value outcome draws. -/
def ByValue.drawn : ByValue → Nat
  | .out _ _ => 0
  | .anyValue => 1

section commitRFields
variable (s : State) (o : ByValue)

@[simp] theorem State.commitR_a : (s.commitR o).a = s.a := by cases o <;> rfl
@[simp] theorem State.commitR_b : (s.commitR o).b = s.b := by cases o <;> rfl
@[simp] theorem State.commitR_r : (s.commitR o).r = o.image s.stream s.draws := by cases o <;> rfl
@[simp] theorem State.commitR_ctx :
    (s.commitR o).ctx = { s.ctx with flags := s.ctx.flags ||| o.flags s.stream s.draws } := by cases o <;> rfl
@[simp] theorem State.commitR_cc : (s.commitR o).cc = s.cc := by cases o <;> rfl
@[simp] theorem State.commitR_q : (s.commitR o).q = s.q := by cases o <;> rfl
@[simp] theorem State.commitR_written : (s.commitR o).written = { s.written with r := true } := by
  cases o <;> rfl
@[simp] theorem State.commitR_par : (s.commitR o).par = s.par := by cases o <;> rfl
@[simp] theorem State.commitR_stream : (s.commitR o).stream = s.stream := by cases o <;> rfl
@[simp] theorem State.commitR_draws : (s.commitR o).draws = s.draws + o.drawn := by cases o <;> rfl
@[simp] theorem State.commitR_port : (s.commitR o).port = s.port := by cases o <;> rfl

end commitRFields

/-- What each command leaves, as one state: the family's shared end applied to the command's result. -/
def effect (i : Instr) (s : State) : State :=
  let k := Config.kernels.toKernelFns
  match i with
  | .abs => s.commitR (.out (absImage s.a) noFlags)
  | .negate => s.commitR (.out (negateImage s.a) noFlags)
  | .remIeee => s.commitRem (remOut s.par rneQ s.a s.b)
  | .remLegacy => s.commitRem (remOut s.par truncQ s.a s.b)
  | .f2xm1 => s.commitR (f2xm1Out k s.par s.rounding s.a)
  | .fyl2x => s.commitR (fyl2xOut k s.par s.rounding s.a s.b)
  | .fyl2xp1 => s.commitR (fyl2xp1Out k s.par s.rounding s.a s.b)
  | .fpatan => s.commitR (fpatanOut k s.par s.rounding s.a s.b)
  | .fsin => s.commitTrig (fsinOut k s.par s.rounding s.a)
  | .fcos => s.commitTrig (fcosOut k s.par s.rounding s.a)
  | .ftan => s.commitTrig (ftanOut k s.par s.rounding s.a)
  | .fsincos => s.commitTrig (fsincosOut k s.par s.rounding s.a)

/-- The shared ends, as the states of Safety. -/
theorem State.commitR_out (s : State) (z : Image) (fs : FlagSet) : s.commitR (.out z fs) = s.afterByValue z fs := rfl

theorem State.commitR_rounded (s : State) (zf : Image × FlagSet) (fs : FlagSet) :
    s.commitR (.rounded zf fs) = s.afterByValue zf.1 (fs ||| zf.2) := rfl

theorem State.commitR_anyValue (s : State) : s.commitR .anyValue = s.afterUndefined := rfl

theorem State.commitRem_eq (s : State) (z : Image) (cc : CompletionCode) (q : QuotBits) (fs : FlagSet) :
    s.commitRem ⟨z, cc, q, fs⟩ = s.afterRem z cc q fs := rfl

theorem State.commitTrig_none (s : State) (z : Image) (cc : CompletionCode) (fs : FlagSet) :
    s.commitTrig ⟨z, none, cc, fs⟩ = s.afterTrig z cc fs := rfl

theorem State.commitTrig_some (s : State) (zs zc : Image) (cc : CompletionCode) (fs : FlagSet) :
    s.commitTrig ⟨zs, some zc, cc, fs⟩ = s.afterSincos zs zc cc fs := rfl

theorem State.raise_noFlags (s : State) : s.raise noFlags = s := by
  simp [State.raise, noFlags]

/-- Everything a command can do: it answers a next state, and that state is its effect (R133). -/
theorem exec_eq_effect (i : Instr) (s : State) : exec i s = .next (effect i s) := by
  cases i
  case abs => simp [exec, execAbs, effect, State.commitR, State.raise_noFlags]
  case negate => simp [exec, execNegate, effect, State.commitR, State.raise_noFlags]
  all_goals rfl

/-- No command touches the parameters, the host's operations, `RC` or `PC` (R39, R40). -/
theorem effect_par (i : Instr) (s : State) : (effect i s).par = s.par := by cases i <;> simp [effect]

theorem effect_stream (i : Instr) (s : State) : (effect i s).stream = s.stream := by cases i <;> simp [effect]

theorem effect_port (i : Instr) (s : State) : (effect i s).port = s.port := by cases i <;> simp [effect]

theorem effect_rc (i : Instr) (s : State) : (effect i s).ctx.rc = s.ctx.rc := by cases i <;> simp [effect]

theorem effect_pc (i : Instr) (s : State) : (effect i s).ctx.pc = s.ctx.pc := by cases i <;> simp [effect]

theorem exec_next_iff {i : Instr} {s t : State} : exec i s = .next t ↔ effect i s = t := by
  rw [exec_eq_effect]; exact ⟨fun h => by injection h, fun h => by rw [h]⟩

end Sys2Proof.Machine
end

