-- ==== Sys2Proof/Laws/Classes.lean ====
section
/-! SUPPORT. What the class tests say of one another, and the flags that depend on the operands' classes alone. -/

namespace Sys2Proof.Machine

/-- A finite image is neither unsupported, nor a NaN, nor an infinity (R110). -/
theorem finite_class {x : Image} (h : isFinite x = true) :
    isUnsupported x = false ∧ isNan x = false ∧ isInf x = false := by
  simp only [isUnsupported, isNan, isInf, isFinite] at *
  cases hc : classify x <;> simp_all [FClass.isNan, FClass.isFinite]

/-- An infinity is in no other class (R110). -/
theorem inf_class {x : Image} (h : isInf x = true) :
    isUnsupported x = false ∧ isNan x = false ∧ isZero x = false ∧ isFinite x = false := by
  simp only [isUnsupported, isNan, isZero, isInf, isFinite] at *
  cases hc : classify x <;> simp_all [FClass.isNan, FClass.isFinite]

/-- A NaN is in no other class (R110). -/
theorem nan_class {x : Image} (h : isNan x = true) :
    isUnsupported x = false ∧ isInf x = false ∧ isZero x = false ∧ isFinite x = false := by
  simp only [isUnsupported, isNan, isZero, isInf, isFinite] at *
  cases hc : classify x <;> simp_all [FClass.isNan, FClass.isFinite]

/-- A zero is finite, of value 0 and in no other class (R22, R110). -/
theorem zero_class {x : Image} (h : isZero x = true) :
    isUnsupported x = false ∧ isNan x = false ∧ isInf x = false ∧ isFinite x = true ∧ val x = 0 := by
  have hv : val x = 0 := by
    have := (classify_zero_iff x).mp (by simpa [isZero] using h)
    rw [← abs_eq_zero, abs_val, this.2]
    simp
  simp only [isUnsupported, isNan, isZero, isInf, isFinite] at *
  cases hc : classify x <;> simp_all [FClass.isNan, FClass.isFinite]

/-- What is neither unsupported nor a NaN is finite or an infinity (R110). -/
theorem finite_or_inf {x : Image} (hu : isUnsupported x = false) (hn : isNan x = false) :
    isFinite x = true ∨ isInf x = true := by
  simp only [isUnsupported, isNan, isInf, isFinite] at *
  cases hc : classify x <;> simp_all [FClass.isNan, FClass.isFinite]

/-- A finite image of value 0 is a zero (R21 to R23). -/
theorem isZero_of_val {x : Image} (h : isFinite x = true) (hv : val x = 0) : isZero x = true := by
  by_contra hz
  exact val_ne_zero h (by simpa using hz) hv

/-- The sign bit of a nonzero value (R20). -/
theorem signBit_eq_decide {x : Image} (h : val x ≠ 0) : signBit x = decide (val x < 0) := by
  rw [← sgnQ_val h]; rfl

/-- IE for a signaling operand (R117 (b)). -/
theorem snanFlags1_eq (x : Image) : snanFlags1 x = if classify x = .snan then IE else noFlags := by
  simp only [snanFlags1, flagsIf, isSnan, beq_iff_eq]

/-- IE for a signaling operand (R117 (b)). -/
theorem snanFlags2_eq (x y : Image) :
    snanFlags2 x y = if classify x = .snan ∨ classify y = .snan then IE else noFlags := by
  simp only [snanFlags2, flagsIf, isSnan, beq_iff_eq, Bool.or_eq_true]

/-- DE for a denormal operand (R120). -/
theorem denormalFlags1_eq (x : Image) : denormalFlags1 x = if isDenormal x = true then DE else noFlags := rfl

/-- DE for a denormal operand (R120). -/
theorem denormalFlags2_eq (x y : Image) :
    denormalFlags2 x y = if isDenormal x = true ∨ isDenormal y = true then DE else noFlags := by
  simp only [denormalFlags2, flagsIf, Bool.or_eq_true]

/-- DE or nothing (R120). -/
theorem denormalFlags1_cases (x : Image) : denormalFlags1 x = noFlags ∨ denormalFlags1 x = DE := by
  unfold denormalFlags1 flagsIf
  split <;> simp

/-- DE or nothing (R120). -/
theorem denormalFlags2_cases (x y : Image) : denormalFlags2 x y = noFlags ∨ denormalFlags2 x y = DE := by
  unfold denormalFlags2 flagsIf
  split <;> simp

/-- A flag is in a union when it is in one of the sets (R34). -/
theorem hasFlag_or (a b : FlagSet) (f : Flag) : hasFlag (a ||| b) f = (hasFlag a f || hasFlag b f) := by
  simp [hasFlag]

end Sys2Proof.Machine
end

