-- ==== Sys2Proof/Laws/Meanings.lean ====
section
/-! SUPPORT. What the constraints on the parameters give (R8), and what the shared steps of FYL2X, FPATAN and the trig
commands compute on finite operands. -/

namespace Sys2Proof.Machine

/-- `CONST_PI` lies between 2 and 4 (R8, R151). -/
theorem pi_bounds {p : Params} (h : p.legal = true) : 2 < p.constPi ∧ p.constPi < 4 := by
  simp only [Params.legal, Params.piLegal, Bool.and_eq_true, decide_eq_true_eq] at h
  exact h.1.1.2.1

/-- `1 <= S <= T - 2` and `T >= 3` (R8). -/
theorem steps_bounds {p : Params} (h : p.legal = true) :
    3 ≤ p.threshold ∧ 1 ≤ p.partialStep ∧ p.partialStep + 2 ≤ p.threshold := by
  simp only [Params.legal, Params.stepsLegal, Bool.and_eq_true, decide_eq_true_eq] at h
  exact ⟨h.1.1.1.1.1, h.1.1.1.1.2, h.1.1.1.2⟩

/-- `DEFAULT_NAN` is a quiet NaN (R8, R121). -/
theorem nan_legal {p : Params} (h : p.legal = true) : classify p.defaultNan = .qnan := by
  simp only [Params.legal, Params.nanLegal, Bool.and_eq_true] at h
  exact (isQuietNan_iff _).mp h.1.2

/-- `N_TXU` is at least one (R8, R340). -/
theorem count_legal {p : Params} (h : p.legal = true) : 1 ≤ p.nTxu := by
  simp only [Params.legal, Params.countLegal, Bool.and_eq_true, decide_eq_true_eq] at h
  exact h.2

/-- FYL2X of a power of two rounds the exact product (R230). -/
theorem fyl2xGeneral_some (k : KernelFns) (rc : RoundingMode) {x : Image} (y : Image) {n : Int} (h : val x = pow2 n) :
    fyl2xGeneral k rc x y = .rounded (roundX (val y * n) rc false) (denormalFlags2 x y) := by
  unfold fyl2xGeneral; rw [log2Exact_eq_some_iff.mpr h]

/-- FYL2X of anything else goes through the kernel (R231). -/
theorem fyl2xGeneral_none (k : KernelFns) (rc : RoundingMode) {x : Image} (y : Image) (h : ∀ n, val x ≠ pow2 n) :
    fyl2xGeneral k rc x y = .rounded (roundX (val y * k.kLog2 (val x)) rc true) (denormalFlags2 x y) := by
  unfold fyl2xGeneral; rw [log2Exact_eq_none_iff.mpr h]

/-- `TrigCore` of a finite nonzero operand: a partial step above the threshold, else the full reduction (R283, R288). -/
theorem trigCore_finite (k : KernelFns) (p : Params) (rc : RoundingMode) {x : Image} (hf : isFinite x = true)
    (hz : isZero x = false) :
    trigCore k p rc x =
      if (p.threshold : ℤ) < ilog2 (val x) then trigPartial p rc (signBit x) |val x| (ilog2 (val x))
      else trigValues k p (signBit x) |val x| (denormalFlags1 x) := by
  obtain ⟨a, b, c⟩ := finite_class hf
  simp only [trigCore, a, b, c, hz, Bool.false_eq_true, if_false, absQ_eq_abs, ilog2_abs]

/-- The full reduction: the operand is `n` moduli and a residue of at most half a modulus, `n` even at a tie (R284). -/
theorem trig_reduction {p : Params} (h : p.legal = true) {a : ℚ} (ha : 0 ≤ a) :
    a = trigQuotient p a * (p.constPi / 2) + trigResidue p a ∧ 0 ≤ trigQuotient p a ∧
      |trigResidue p a| ≤ p.constPi / 4 ∧ (|trigResidue p a| = p.constPi / 4 → trigQuotient p a % 2 = 0) := by
  obtain ⟨p1, p2⟩ := pi_bounds h
  have hP : (0 : ℚ) < trigModulus p := by unfold trigModulus; linarith
  obtain ⟨h1, h2⟩ := rneQ_spec (a / trigModulus p)
  have hr : |trigResidue p a| = |a / trigModulus p - rneQ (a / trigModulus p)| * trigModulus p := by
    nth_rw 3 [← abs_of_pos hP]
    rw [← abs_mul, sub_mul, div_mul_cancel₀ _ hP.ne']; rfl
  refine ⟨by simp only [trigResidue, trigModulus]; ring, ?_, ?_, ?_⟩
  · have h0 : 0 ≤ a / trigModulus p := div_nonneg ha hP.le
    have := (abs_le.mp h1).2
    have : (-1 : ℚ) < rneQ (a / trigModulus p) := by linarith
    have : -1 < rneQ (a / trigModulus p) := by exact_mod_cast this
    unfold trigQuotient; omega
  · rw [hr, show p.constPi / 4 = 1 / 2 * trigModulus p by unfold trigModulus; ring]
    exact mul_le_mul_of_nonneg_right h1 hP.le
  · intro h; rw [hr, show p.constPi / 4 = 1 / 2 * trigModulus p by unfold trigModulus; ring] at h
    exact h2 (mul_right_cancel₀ hP.ne' h)

/-- The quadrant table of R285 as two chains of cases. -/
theorem quadrant_eq (n : ℤ) (s0 c0 : ℚ) : quadrant n s0 c0 =
    (if n % 4 = 0 then s0 else if n % 4 = 1 then c0 else if n % 4 = 2 then -s0 else -c0,
      if n % 4 = 0 then c0 else if n % 4 = 1 then -s0 else if n % 4 = 2 then -c0 else s0) := by
  have h0 : 0 ≤ n % 4 := Int.emod_nonneg _ (by norm_num)
  have h1 : n % 4 < 4 := Int.emod_lt_of_pos _ (by norm_num)
  unfold quadrant
  rcases (by omega : n % 4 = 0 ∨ n % 4 = 1 ∨ n % 4 = 2 ∨ n % 4 = 3) with h | h | h | h <;> rw [h] <;> rfl

/-- A completed trig rounding always raises PE (R286). -/
theorem roundT_pe (v : ℚ) (s : Bool) (rc : RoundingMode) : hasFlag (roundT v s rc).2 .pe = true := by
  unfold roundT
  split
  · exact show hasFlag PE .pe = true by decide
  · next h => exact roundX_force h _

end Sys2Proof.Machine
end

