-- ==== Sys2Proof/Laws/Remainder.lean ====
section
/-! SUPPORT. The remainders are exactly representable (R189), what a partial step leaves (R186, R287), and how far it
lowers the exponent difference (R194, R295). -/

namespace Sys2Proof.Machine

/-- The image of an exact remainder that lies on a grid of 64 bits: nothing is lost, and it is canonical (R129). -/
theorem encOrZero_exact (s : Bool) {v : ℚ} {k : ℕ} {g : ℤ} (hk : |v| = k * pow2 g) (h64 : |v| < pow2 (g + 64))
    (hg : -16445 ≤ g) (hlt : |v| < pow2 16384) :
    isFinite (encOrZero s v) = true ∧ val (encOrZero s v) = v ∧ (v = 0 → encOrZero s v = zeroImage s) ∧
      (v ≠ 0 → canonicalNonzero (encOrZero s v) = true ∧ signBit (encOrZero s v) = sgnQ v) := by
  by_cases h0 : v = 0
  · have he : encOrZero s v = zeroImage s := by simp only [encOrZero, h0, if_true]
    rw [he]
    exact ⟨by simp [isFinite, FClass.isFinite], by rw [val_zeroImage, h0], fun _ => rfl, fun h => absurd h0 h⟩
  · have hk64 : k < 2 ^ 64 := by
      rw [hk, show g + 64 = ((64 : ℕ) : ℤ) + g by push_cast; ring, pow2_add, pow2_natCast] at h64
      exact_mod_cast lt_of_mul_lt_mul_right h64 (pow2_pos g).le
    obtain ⟨h1, h2⟩ := enc_exact h0 hk64 hg hk hlt
    have he : encOrZero s v = enc v := by simp only [encOrZero, h0, if_false]
    rw [he]
    exact ⟨h1, h2, fun h => absurd h h0, fun _ =>
      ⟨roundX_canonical h0 _ _ h1 (show val (enc v) ≠ 0 by rw [h2]; exact h0), signBit_roundX h0 _ _⟩⟩

/-- A value is its signed significand times its last place. -/
theorem val_int_grid (x : Image) : ∃ k : ℤ, val x = k * pow2 (scaleOf x) := by
  refine ⟨if signBit x then -((sigField x).toNat : ℤ) else (sigField x).toNat, ?_⟩
  unfold val applySign
  cases signBit x <;> simp

/-- A magnitude is below `2^64` last places. -/
theorem abs_val_lt_grid (x : Image) : |val x| < pow2 (scaleOf x + 64) := by
  rw [abs_val, show scaleOf x + 64 = ((64 : ℕ) : ℤ) + scaleOf x by push_cast; ring, pow2_add, pow2_natCast]
  exact mul_lt_mul_of_pos_right (by exact_mod_cast (sigField x).isLt) (pow2_pos _)

/-- An integer multiple of a power of two is one of every smaller power of two. -/
theorem int_regrid (n : ℤ) {g g' : ℤ} (h : g' ≤ g) : ∃ k : ℤ, (n : ℚ) * pow2 g = k * pow2 g' := by
  refine ⟨n * 2 ^ (g - g').toNat, ?_⟩
  push_cast
  rw [← pow2_natCast, mul_assoc, ← pow2_add]
  congr 2
  omega

/-- The magnitude of an integer combination of two multiples of powers of two is a multiple of the smaller power. -/
theorem combination_grid (m n c : ℤ) (g h : ℤ) :
    ∃ k : ℕ, |(m : ℚ) * pow2 g - c * (n * pow2 h)| = k * pow2 (min g h) := by
  obtain ⟨k1, e1⟩ := int_regrid m (min_le_left g h)
  obtain ⟨k2, e2⟩ := int_regrid n (min_le_right g h)
  refine ⟨(k1 - c * k2).natAbs, ?_⟩
  rw [e1, e2, show (k1 : ℚ) * pow2 (min g h) - c * (k2 * pow2 (min g h)) = ((k1 - c * k2 : ℤ) : ℚ) * pow2 (min g h) by
    push_cast; ring, abs_mul, abs_of_pos (pow2_pos _), Nat.cast_natAbs]
  push_cast
  rfl

/-- The remainder by an integer quotient that is no farther from the true one than 1 and than 0 is exactly representable
(R189). -/
theorem remainder_exact {x y : Image} (hy : isFinite y = true) (n : ℤ)
    (h1 : |val x - n * val y| ≤ |val y|) (h2 : |val x - n * val y| ≤ |val x|) (s : Bool) :
    isFinite (encOrZero s (val x - n * val y)) = true ∧
      val (encOrZero s (val x - n * val y)) = val x - n * val y ∧
      (val x - n * val y = 0 → encOrZero s (val x - n * val y) = zeroImage s) ∧
      (val x - n * val y ≠ 0 → canonicalNonzero (encOrZero s (val x - n * val y)) = true ∧
        signBit (encOrZero s (val x - n * val y)) = sgnQ (val x - n * val y)) := by
  obtain ⟨mx, ex⟩ := val_int_grid x
  obtain ⟨my, ey⟩ := val_int_grid y
  obtain ⟨k, hk⟩ := combination_grid mx my n (scaleOf x) (scaleOf y)
  rw [← ex, ← ey] at hk
  refine encOrZero_exact s hk ?_ (le_min (scaleOf_ge x) (scaleOf_ge y)) (h1.trans_lt (abs_val_lt hy))
  rcases min_choice (scaleOf x) (scaleOf y) with h | h <;> rw [h]
  · exact h2.trans_lt (abs_val_lt_grid x)
  · exact h1.trans_lt (abs_val_lt_grid y)

/-- The nearest integer is no farther than 0 is. -/
theorem abs_sub_rneQ_le (q : ℚ) : |q - rneQ q| ≤ |q| := by
  rcases lt_or_ge |q| (1 / 2) with h | h
  · rw [rneQ_eq_of_abs_lt (n := 0) (by simpa using h)]
    simp
  · exact (rneQ_spec q).1.trans h

/-- Truncation: less than 1 away, no farther than 0, on the side of 0 (R11). -/
theorem truncQ_spec (q : ℚ) : |q - truncQ q| < 1 ∧ |q - truncQ q| ≤ |q| ∧ 0 ≤ q * (q - truncQ q) := by
  rcases lt_or_ge q 0 with h | h
  · have e : (truncQ q : ℚ) = -((-q).floor : ℤ) := by simp [truncQ, h]
    have h1 := floor_le (-q)
    have h2 := lt_floor_add_one (-q)
    have h3 : (0 : ℚ) ≤ ((-q).floor : ℤ) := by exact_mod_cast Int.floor_nonneg.mpr (by linarith : 0 ≤ -q)
    rw [e, abs_of_nonpos (by linarith : q - -((-q).floor : ℚ) ≤ 0), abs_of_neg h]
    exact ⟨by linarith, by linarith, by nlinarith⟩
  · have e : (truncQ q : ℚ) = (q.floor : ℤ) := by simp [truncQ, not_lt.mpr h]
    have h1 := floor_le q
    have h2 := lt_floor_add_one q
    have h3 : (0 : ℚ) ≤ (q.floor : ℤ) := by exact_mod_cast Int.floor_nonneg.mpr h
    rw [e, abs_of_nonneg (by linarith : 0 ≤ q - (q.floor : ℚ)), abs_of_nonneg h]
    exact ⟨by linarith, by linarith, by nlinarith⟩

/-- The remainder in terms of the quotient. -/
theorem remainder_eq {a b : ℚ} (hb : b ≠ 0) (n : ℤ) : a - n * b = (a / b - n) * b := by
  rw [sub_mul, div_mul_cancel₀ _ hb]

/-- The remainder of a partial step lies between zero and the scaled modulus, and is the operand less a multiple of it
(R186, R287). -/
theorem partialRemainder_spec (S : ℕ) {a m : ℚ} (ha : 0 ≤ a) (hm : 0 < m) (d : ℤ) :
    0 ≤ partialQuotient S a m d ∧ 0 ≤ partialRemainder S a m d ∧ partialRemainder S a m d < m * pow2 (d - S) ∧
      partialRemainder S a m d = a - partialQuotient S a m d * (m * pow2 (d - S)) := by
  have hM : 0 < m * pow2 (d - S) := mul_pos hm (pow2_pos _)
  have h1 := floor_le (a / (m * pow2 (d - S)))
  have h2 := lt_floor_add_one (a / (m * pow2 (d - S)))
  rw [le_div_iff₀ hM] at h1
  rw [div_lt_iff₀ hM] at h2
  refine ⟨?_, ?_, ?_, rfl⟩
  · exact Int.floor_nonneg.mpr (div_nonneg ha hM.le)
  · simp only [partialRemainder, partialQuotient, scaledModulus]
    linarith
  · simp only [partialRemainder, partialQuotient, scaledModulus]
    linarith

/-- The partial quotient has `S` or `S + 1` bits (R186). -/
theorem partialQuotient_bounds {S : ℕ} (hS : 1 ≤ S) {a m : ℚ} (ha : a ≠ 0) (hm : m ≠ 0) :
    2 ^ (S - 1) ≤ partialQuotient S |a| |m| (ilog2 a - ilog2 m) ∧
      partialQuotient S |a| |m| (ilog2 a - ilog2 m) < 2 ^ (S + 1) := by
  obtain ⟨a1, a2⟩ := ilog2_spec ha
  obtain ⟨m1, m2⟩ := ilog2_spec hm
  have hM : 0 < |m| * pow2 (ilog2 a - ilog2 m - S) := mul_pos (abs_pos.mpr hm) (pow2_pos _)
  unfold partialQuotient scaledModulus
  rw [floor_eq]
  constructor
  · refine Int.le_floor.mpr ?_
    rw [le_div_iff₀ hM]
    refine le_trans ?_ a1
    have h : |m| * pow2 (ilog2 a - ilog2 m - S) ≤ pow2 (ilog2 m + 1) * pow2 (ilog2 a - ilog2 m - S) :=
      mul_le_mul_of_nonneg_right m2.le (pow2_pos _).le
    push_cast
    calc (2 : ℚ) ^ (S - 1) * (|m| * pow2 (ilog2 a - ilog2 m - S))
        ≤ 2 ^ (S - 1) * (pow2 (ilog2 m + 1) * pow2 (ilog2 a - ilog2 m - S)) := mul_le_mul_of_nonneg_left h (by positivity)
      _ = pow2 (ilog2 a) := by
          rw [← pow2_natCast, ← pow2_add, ← pow2_add]
          congr 1
          omega
  · refine Int.floor_lt.mpr ?_
    rw [div_lt_iff₀ hM]
    refine a2.trans_le ?_
    have h : pow2 (ilog2 m) * pow2 (ilog2 a - ilog2 m - S) ≤ |m| * pow2 (ilog2 a - ilog2 m - S) :=
      mul_le_mul_of_nonneg_right m1 (pow2_pos _).le
    push_cast
    refine le_trans (le_of_eq ?_) (mul_le_mul_of_nonneg_left h (by positivity : (0 : ℚ) ≤ 2 ^ (S + 1)))
    rw [← pow2_natCast, ← pow2_add, ← pow2_add]
    congr 1
    omega

/-- The remainder of a partial step of a remainder command is exactly representable (R189). -/
theorem partialRemainder_exact {x y : Image} (hx : isFinite x = true) (hy : val y ≠ 0) (S : ℕ) {d : ℤ} (hd : S ≤ d)
    (s : Bool) :
    let v := applySign s (partialRemainder S |val x| |val y| d)
    isFinite (encOrZero s v) = true ∧ val (encOrZero s v) = v ∧ (v = 0 → encOrZero s v = zeroImage s) ∧
      (v ≠ 0 → canonicalNonzero (encOrZero s v) = true ∧ signBit (encOrZero s v) = sgnQ v) := by
  obtain ⟨hq, h0, hlt, he⟩ := partialRemainder_spec S (abs_nonneg (val x)) (abs_pos.mpr hy) d
  have hle : partialRemainder S |val x| |val y| d ≤ |val x| := by
    rw [he]
    have : (0 : ℚ) ≤ partialQuotient S |val x| |val y| d := by exact_mod_cast hq
    have := mul_nonneg this (mul_pos (abs_pos.mpr hy) (pow2_pos (d - S))).le
    linarith
  obtain ⟨k, hk⟩ := combination_grid (sigField x).toNat (sigField y).toNat (partialQuotient S |val x| |val y| d)
    (scaleOf x) (scaleOf y + (d - S))
  have hk' : |partialRemainder S |val x| |val y| d| = k * pow2 (min (scaleOf x) (scaleOf y + (d - S))) := by
    rw [← hk, he, abs_val x, abs_val y, pow2_add]
    congr 1
    push_cast
    ring
  intro v
  have hv : |v| = partialRemainder S |val x| |val y| d := by rw [abs_applySign, abs_of_nonneg h0]
  refine encOrZero_exact s (k := k) (g := min (scaleOf x) (scaleOf y + (d - S))) ?_ ?_ ?_ ?_
  · rw [abs_applySign, hk']
  · rw [show |applySign s _| = _ from hv]
    rcases min_choice (scaleOf x) (scaleOf y + (d - S)) with h | h <;> rw [h]
    · exact hle.trans_lt (abs_val_lt_grid x)
    · refine hlt.trans ?_
      rw [show scaleOf y + (d - S) + 64 = (scaleOf y + 64) + (d - S) by ring, pow2_add]
      exact mul_lt_mul_of_pos_right (abs_val_lt_grid y) (pow2_pos _)
  · have := scaleOf_ge x
    have := scaleOf_ge y
    exact le_min (by omega) (by omega)
  · rw [show |applySign s _| = _ from hv]
    exact hle.trans_lt (abs_val_lt hx)

/-- A remainder command on finite nonzero operands takes the general path (R184). -/
theorem remOut_finite (p : Params) (round : ℚ → ℤ) {x y : Image} (hx : isFinite x = true) (hy : isFinite y = true)
    (hzx : isZero x = false) (hzy : isZero y = false) :
    remOut p round x y = remGeneral p round x y := by
  obtain ⟨a, b, c⟩ := finite_class hx; obtain ⟨u, v, w⟩ := finite_class hy
  simp only [remOut, a, b, c, u, v, w, hzx, hzy, Bool.or_self, Bool.false_eq_true, if_false]

/-- The magnitude of a remainder in terms of the quotient's error. -/
theorem abs_rem {a b : ℚ} (hb : b ≠ 0) (n : ℤ) : |a - n * b| = |a / b - n| * |b| := by
  rw [remainder_eq hb, abs_mul]

/-- The quotient's error bounds the remainder. -/
theorem rem_bound {a b : ℚ} (hb : b ≠ 0) {n : ℤ} {c : ℚ} (h : |a / b - n| ≤ c) : |a - n * b| ≤ c * |b| := by
  rw [abs_rem hb]; exact mul_le_mul_of_nonneg_right h (abs_nonneg _)

/-- A quotient no farther than 0 leaves a remainder no greater than the dividend. -/
theorem rem_bound' {a b : ℚ} (hb : b ≠ 0) {n : ℤ} (h : |a / b - n| ≤ |a / b|) : |a - n * b| ≤ |a| := by
  refine (rem_bound hb h).trans (le_of_eq ?_)
  rw [← abs_mul, div_mul_cancel₀ _ hb]

/-- Values whose product is not negative have one sign. -/
theorem sgnQ_of_mul_nonneg {a r : ℚ} (h : 0 ≤ a * r) (hr : r ≠ 0) (ha : a ≠ 0) : sgnQ r = sgnQ a := by
  rcases lt_or_gt_of_ne ha with h1 | h1 <;> rcases lt_or_gt_of_ne hr with h2 | h2
  · rw [sgnQ_of_neg h1, sgnQ_of_neg h2]
  · nlinarith [mul_neg_of_neg_of_pos h1 h2]
  · nlinarith [mul_neg_of_pos_of_neg h1 h2]
  · rw [sgnQ_of_pos h1, sgnQ_of_pos h2]

/-- A partial step of a remainder command, from the state before it (R186). -/
theorem rem_partial {i : Instr} {s : State} (hi : i = .remIeee ∨ i = .remLegacy) (hx : isFinite s.a = true)
    (hy : isFinite s.b = true) (hzx : isZero s.a = false) (hzy : isZero s.b = false)
    (hD : (s.par.threshold : ℤ) < ilog2 (val s.a) - ilog2 (val s.b)) :
    effect i s = s.afterRem
      (encOrZero (signBit s.a) (applySign (signBit s.a) (partialRemainder s.par.partialStep |val s.a| |val s.b|
          (ilog2 (val s.a) - ilog2 (val s.b))))) .partialReductionNeeded
      (quotBits (partialQuotient s.par.partialStep |val s.a| |val s.b| (ilog2 (val s.a) - ilog2 (val s.b))))
      (denormalFlags2 s.a s.b) := by
  rcases hi with rfl | rfl <;>
    simp only [effect, remOut_finite _ _ hx hy hzx hzy, remGeneral, hD, if_true, absQ_eq_abs, State.commitRem_eq]

/-- Only the general path above the threshold asks for a retry (R184, R186). -/
theorem remOut_partial {p : Params} {f : ℚ → ℤ} {x y : Image}
    (h : (remOut p f x y).cc = .partialReductionNeeded) :
    isFinite x = true ∧ isFinite y = true ∧ isZero x = false ∧ isZero y = false ∧
      (p.threshold : ℤ) < ilog2 (val x) - ilog2 (val y) := by
  unfold remOut at h
  split_ifs at h with h1 h2 h3 h4
  · simp [remInvalid] at h
  · simp [remInvalid] at h
  · simp [remInvalid] at h
  · simp only [Bool.or_eq_true, not_or, Bool.not_eq_true] at h1 h2 h3 h4
    have hx := (finite_or_inf h1.1 h2.1).resolve_right (by simp [h3.2])
    have hy := (finite_or_inf h1.2 h2.2).resolve_right (by simp [h4.1])
    refine ⟨hx, hy, h4.2, h3.1, ?_⟩
    unfold remGeneral at h
    by_contra hc
    simp [hc] at h

/-- After a partial step the dividend is zero or at least `S` binades closer to the divisor (R194). -/
theorem rem_partial_drop {i : Instr} {s : State} (hi : i = .remIeee ∨ i = .remLegacy) (hl : s.par.legal = true)
    (h : (effect i s).cc = .partialReductionNeeded) :
    (s.par.threshold : ℤ) < ilog2 (val s.a) - ilog2 (val s.b) ∧ isZero s.a = false ∧ (effect i s).b = s.b ∧
      (isZero (effect i s).a = true ∨ isZero (effect i s).a = false ∧
        ilog2 (val (effect i s).a) - ilog2 (val s.b) + s.par.partialStep ≤ ilog2 (val s.a) - ilog2 (val s.b)) := by
  obtain ⟨hx, hy, hzx, hzy, hD⟩ : isFinite s.a = true ∧ isFinite s.b = true ∧ isZero s.a = false ∧ isZero s.b = false ∧
      (s.par.threshold : ℤ) < ilog2 (val s.a) - ilog2 (val s.b) := by
    rcases hi with rfl | rfl
    · exact remOut_partial (p := s.par) h
    · exact remOut_partial (p := s.par) h
  obtain ⟨t1, t2, t3⟩ := steps_bounds hl
  have hb := val_ne_zero hy hzy
  refine ⟨hD, hzx, by rcases hi with rfl | rfl <;> rfl, ?_⟩
  rw [rem_partial hi hx hy hzx hzy hD]
  simp only [State.afterRem]
  obtain ⟨d, hd⟩ : ∃ d, d = ilog2 (val s.a) - ilog2 (val s.b) := ⟨_, rfl⟩
  rw [← hd] at hD ⊢
  obtain ⟨e1, e2, e3, _⟩ := partialRemainder_exact (y := s.b) hx hb s.par.partialStep (d := d) (by omega) (signBit s.a)
  obtain ⟨_, q2, q3, _⟩ := partialRemainder_spec s.par.partialStep (abs_nonneg (val s.a)) (abs_pos.mpr hb) d
  by_cases h0 : applySign (signBit s.a) (partialRemainder s.par.partialStep |val s.a| |val s.b| d) = 0
  · left
    rw [e3 h0]
    simp [isZero]
  · right
    constructor
    · by_contra hc
      have := (zero_class (by simpa using hc)).2.2.2.2
      rw [e2] at this
      exact h0 this
    · rw [e2]
      have := (ilog2_lt_iff h0 (e := ilog2 (val s.b) + 1 + (d - s.par.partialStep))).mpr (by
        rw [abs_applySign, abs_of_nonneg q2, pow2_add]
        exact q3.trans (mul_lt_mul_of_pos_right (ilog2_spec hb).2 (pow2_pos _)))
      omega

/-- Everything a remainder command can answer: Invalid with IE alone, a quiet NaN and `Q = 0`, or an outcome that raises
DE at most (R182 to R189). -/
theorem remOut_cases {p : Params} (hl : p.legal = true) (f : ℚ → ℤ) (x y : Image) :
    ((remOut p f x y).cc = .invalid ∧ (remOut p f x y).fs = IE ∧ classify (remOut p f x y).a = .qnan ∧
        (remOut p f x y).q = 0) ∨
      ((remOut p f x y).cc ≠ .invalid ∧ ((remOut p f x y).fs = noFlags ∨ (remOut p f x y).fs = DE)) := by
  unfold remOut
  split_ifs with h1 h2 h3 h4
  · exact Or.inl ⟨rfl, rfl, nan_legal hl, rfl⟩
  · exact Or.inl ⟨rfl, rfl, classify_propNan h2, rfl⟩
  · exact Or.inl ⟨rfl, rfl, nan_legal hl, rfl⟩
  · exact Or.inr ⟨by simp, Or.inl rfl⟩
  · unfold remGeneral
    simp only []
    split_ifs
    · exact Or.inr ⟨by simp, denormalFlags2_cases x y⟩
    · exact Or.inr ⟨by simp, denormalFlags2_cases x y⟩

end Sys2Proof.Machine
end

