-- ==== Sys2Proof/Laws/Trig.lean ====
section
/-! SUPPORT. The trig commands: when they take a partial step and what it leaves (R287, R295). -/

namespace Sys2Proof.Machine

/-- Only a finite nonzero operand above the threshold takes a partial step (R283, R288). -/
theorem trigCore_stepped {k : KernelFns} {p : Params} {rc : RoundingMode} {x z : Image} {fs : FlagSet}
    (h : trigCore k p rc x = .stepped z fs) :
    isFinite x = true ∧ isZero x = false ∧ (p.threshold : ℤ) < ilog2 (val x) ∧
      trigPartial p rc (signBit x) |val x| (ilog2 (val x)) = .stepped z fs := by
  have key : isFinite x = true ∧ isZero x = false := by
    unfold trigCore at h
    split_ifs at h with h1 h2 h3 h4
    simp only [Bool.not_eq_true] at h1 h2 h3 h4
    exact ⟨(finite_or_inf h1 h2).resolve_right (by simp [h3]), h4⟩
  rw [trigCore_finite _ _ _ key.1 key.2] at h
  split_ifs at h with hD
  · exact ⟨key.1, key.2, hD, h⟩
  · cases h

/-- What a partial trig step leaves: a finite remainder, no overflow, and, unless it is zero, at least `S` binades less,
for a stored pi that leaves room for one rounding (R287, R295). -/
theorem trigPartial_spec {p : Params} (hl : p.legal = true) (rc : RoundingMode) {x z : Image} {fs : FlagSet}
    (hx : isFinite x = true) (hD : (p.threshold : ℤ) < ilog2 (val x))
    (h : trigPartial p rc (signBit x) |val x| (ilog2 (val x)) = .stepped z fs) :
    isFinite z = true ∧ hasFlag fs .oe = false ∧ (fs = noFlags ∨ fs = PE ∨ fs = UE ||| PE) ∧
      (p.constPi ≤ 7 / 2 → isZero z = false → ilog2 (val z) + p.partialStep ≤ ilog2 (val x)) := by
  obtain ⟨p1, p2⟩ := pi_bounds hl
  obtain ⟨t1, t2, t3⟩ := steps_bounds hl
  have hv0 : val x ≠ 0 := by
    intro h0; rw [h0] at hD
    have : ilog2 (0 : ℚ) = -1 := by decide
    omega
  have hil : ilog2 (val x) ≤ 16383 := by
    have := (ilog2_lt_iff hv0).mpr (abs_val_lt hx); omega
  obtain ⟨_, q2, q3, _⟩ := partialRemainder_spec p.partialStep (abs_nonneg (val x))
    (show 0 < trigModulus p by unfold trigModulus; linarith) (ilog2 (val x))
  obtain ⟨rp, hrp⟩ : ∃ rp, rp = partialRemainder p.partialStep |val x| (trigModulus p) (ilog2 (val x)) := ⟨_, rfl⟩
  rw [← hrp] at q2 q3
  unfold trigPartial at h
  simp only [← hrp] at h
  split_ifs at h with h0
  · injection h with h1 h2
    subst h1 h2
    exact ⟨by simp [isFinite, FClass.isFinite], by decide, Or.inl rfl, fun _ h => by simp [isZero] at h⟩
  · injection h with h1 h2
    have hne : applySign (signBit x) (rp) ≠ 0 := fun h => h0 (applySign_eq_zero.mp h)
    have habs : |applySign (signBit x) (rp)| = rp := by rw [abs_applySign, abs_of_nonneg q2]
    have hlt : rp < pow2 (ilog2 (val x) - p.partialStep + 1) := by
      refine q3.trans ?_
      rw [pow2_succ]
      exact mul_lt_mul_of_pos_right (by unfold trigModulus; linarith) (pow2_pos _)
    obtain ⟨f1, f2⟩ := roundX_no_overflow hne (v := applySign (signBit x) rp)
      (by rw [habs]; exact hlt.trans_le (pow2_le_iff.mpr (by omega))) rc false
    rw [h1] at f1; rw [h2] at f2
    refine ⟨f1, f2, ?_, ?_⟩
    · have := roundX_flags hne rc false
      rw [h2] at this
      rcases this with h | h | h | h
      · exact Or.inl h
      · exact Or.inr (Or.inl h)
      · exact Or.inr (Or.inr h)
      · rw [h] at f2; exact absurd f2 (by decide)
    · intro hpi hz
      have hzv := val_ne_zero f1 hz
      have hb : |val z| ≤ (7 : ℕ) * pow2 (ilog2 (val x) - p.partialStep - 2) := by
        rw [← h1]
        refine roundX_le hne rc false ?_ ?_ ?_ (by rw [h1]; exact f1)
        · rw [habs]
          refine q3.le.trans ?_
          rw [show ilog2 (val x) - (p.partialStep : ℤ) = 2 + (ilog2 (val x) - p.partialStep - 2) by ring, pow2_add,
            ← mul_assoc]
          rw [show 2 + (ilog2 (val x) - (p.partialStep : ℤ) - 2) - 2 = (ilog2 (val x) - p.partialStep - 2) by ring]
          refine mul_le_mul_of_nonneg_right ?_ (pow2_pos _).le
          rw [show pow2 2 = 4 by rfl]; unfold trigModulus; push_cast; linarith
        · have := (ilog2_lt_iff hne).mpr (by rw [habs]; exact hlt); omega
        · omega
      have hb' : |val z| < pow2 (ilog2 (val x) - p.partialStep + 1) := by
        refine hb.trans_lt ?_
        rw [show ilog2 (val x) - (p.partialStep : ℤ) + 1 = 3 + (ilog2 (val x) - p.partialStep - 2) by ring, pow2_add]
        exact mul_lt_mul_of_pos_right (by rw [show pow2 3 = 8 by rfl]; norm_num) (pow2_pos _)
      have := (ilog2_lt_iff hzv).mpr hb'
      omega

/-- A trig command that asks for a retry has taken a partial step and leaves `B` (R287). -/
theorem trig_outs_partial {k : KernelFns} {p : Params} {rc : RoundingMode} {x : Image} {o : TrigOut}
    (ho : o = fsinOut k p rc x ∨ o = fcosOut k p rc x ∨ o = ftanOut k p rc x ∨ o = fsincosOut k p rc x)
    (h : o.cc = .partialReductionNeeded) :
    ∃ z fs, trigCore k p rc x = .stepped z fs ∧ o = ⟨z, none, .partialReductionNeeded, fs⟩ := by
  rcases ho with rfl | rfl | rfl | rfl
  · unfold fsinOut at h ⊢; split at h <;> simp_all [trigComplete]
  · unfold fcosOut at h ⊢; split at h <;> simp_all [trigComplete]
  · unfold ftanOut at h ⊢; split at h <;> try simp_all
    split at h <;> simp_all [trigComplete]
  · unfold fsincosOut at h ⊢; split at h <;> simp_all

/-- The end of a trig command. -/
theorem effect_trig {i : Instr} (hi : i ∈ [Instr.fsin, .fcos, .ftan, .fsincos]) (s : State) :
    let k := Config.kernels.toKernelFns
    ∃ o : TrigOut, effect i s = s.commitTrig o ∧
      (o = fsinOut k s.par s.rounding s.a ∨ o = fcosOut k s.par s.rounding s.a ∨
        o = ftanOut k s.par s.rounding s.a ∨ o = fsincosOut k s.par s.rounding s.a) := by
  simp only [List.mem_cons, List.not_mem_nil, or_false] at hi
  rcases hi with rfl | rfl | rfl | rfl
  · exact ⟨_, rfl, Or.inl rfl⟩
  · exact ⟨_, rfl, Or.inr (Or.inl rfl)⟩
  · exact ⟨_, rfl, Or.inr (Or.inr (Or.inl rfl))⟩
  · exact ⟨_, rfl, Or.inr (Or.inr (Or.inr rfl))⟩

/-- The machine's sine and cosine on the residues of a full reduction: at most 1, the cosine never zero, the sine zero
only at zero (R160, R161). -/
theorem kernel_bounds {pi r : ℚ} (h2 : 2 < pi) (h4 : pi < 4) (h : |r| ≤ pi / 4) :
    |Config.kernels.kSin pi r| ≤ 1 ∧ |Config.kernels.kCos pi r| ≤ 1 ∧ Config.kernels.kCos pi r ≠ 0 ∧
      (Config.kernels.kSin pi r = 0 → r = 0) := by
  obtain ⟨h5, h6⟩ := abs_le.mp h
  have c1 := Config.kernels.kCos_gt_half pi r h2 h4 h5 h6
  have c2 := Config.kernels.kCos_le_one pi r h2 h4 h5 h6
  have hs : |Config.kernels.kSin pi r| ≤ 1 ∧ (Config.kernels.kSin pi r = 0 → r = 0) := by
    rcases lt_trichotomy r 0 with hr | hr | hr
    · have n := Config.kernels.kSin_neg pi r h2 h4 h5 h6
      have p1 := Config.kernels.kSin_pos pi (-r) h2 h4 (by linarith) (by linarith)
      have p2 := Config.kernels.kSin_lt_one pi (-r) h2 h4 (by linarith) (by linarith)
      rw [n] at p1 p2
      exact ⟨abs_le.mpr ⟨by linarith, by linarith⟩, fun h => by linarith⟩
    · subst hr
      rw [Config.kernels.kSin_zero]
      simp
    · have p1 := Config.kernels.kSin_pos pi r h2 h4 hr h6
      have p2 := Config.kernels.kSin_lt_one pi r h2 h4 hr h6
      exact ⟨abs_le.mpr ⟨by linarith, by linarith⟩, fun h => by linarith⟩
  exact ⟨hs.1, abs_le.mpr ⟨by linarith, c2⟩, by linarith, hs.2⟩

/-- A denormal is far below one half (R23). -/
theorem denormal_small {x : Image} (h : isDenormal x = true) : |val x| < 1 / 2 := by
  have h1 := (classify_denormal_iff x).mp (by simpa [isDenormal] using h)
  rw [abs_val, show scaleOf x = -16445 by unfold scaleOf; omega]
  calc ((sigField x).toNat : ℚ) * pow2 (-16445) < 2 ^ 64 * pow2 (-16445) :=
        mul_lt_mul_of_pos_right (by exact_mod_cast (sigField x).isLt) (pow2_pos _)
    _ = pow2 (-16381) := by
        rw [show (-16381 : ℤ) = ((64 : ℕ) : ℤ) + (-16445) by norm_num, pow2_add, pow2_natCast]
    _ < pow2 (-1) := pow2_lt_iff.mpr (by norm_num)
    _ = 1 / 2 := by rw [pow2_eq_zpow]; norm_num

/-- What a full reduction gives: a sine and a cosine of at most 1, and a nonzero cosine for a denormal (R284, R285). -/
theorem trigValues_spec {p : Params} (hl : p.legal = true) (x : Image) (fs : FlagSet) :
    ∃ vs vc, trigValues Config.kernels.toKernelFns p (signBit x) |val x| fs = .values vs vc fs ∧ |vs| ≤ 1 ∧ |vc| ≤ 1 ∧
      (vc = 0 → isDenormal x = false) := by
  obtain ⟨p1, p2⟩ := pi_bounds hl
  obtain ⟨r1, r2, r3, r4⟩ := trig_reduction hl (abs_nonneg (val x))
  obtain ⟨k1, k2, k3, k4⟩ := kernel_bounds p1 p2 r3
  refine ⟨_, _, rfl, ?_, ?_, ?_⟩
  · rw [abs_applySign, quadrant_eq]
    simp only []
    split_ifs <;> (try rw [abs_neg]) <;> assumption
  · rw [quadrant_eq]
    simp only []
    split_ifs <;> (try rw [abs_neg]) <;> assumption
  · intro h0
    by_contra hd
    have hlt := denormal_small (by simpa using hd)
    have hP : 0 < trigModulus p := by unfold trigModulus; linarith
    have hn : trigQuotient p |val x| = 0 := by
      apply rneQ_eq_of_abs_lt
      rw [Int.cast_zero, sub_zero, abs_of_nonneg (div_nonneg (abs_nonneg _) hP.le), div_lt_iff₀ hP]
      unfold trigModulus
      linarith
    rw [hn, quadrant_eq] at h0
    exact k3 h0

/-- Everything `TrigCore` can answer (R281 to R288). -/
theorem trigCore_cases {p : Params} (hl : p.legal = true) (rc : RoundingMode) (x : Image) :
    let c := trigCore Config.kernels.toKernelFns p rc x
    (∃ z, c = .invalid z ∧ classify z = .qnan ∧ isFinite x = false) ∨
      (c = .zero ∧ isZero x = true) ∨
      (∃ z fs, c = .stepped z fs ∧ isFinite x = true ∧ isZero x = false ∧ isFinite z = true ∧
        (fs = noFlags ∨ fs = PE ∨ fs = UE ||| PE)) ∨
      (∃ vs vc, c = .values vs vc (denormalFlags1 x) ∧ isFinite x = true ∧ isZero x = false ∧ |vs| ≤ 1 ∧ |vc| ≤ 1 ∧
        (vc = 0 → isDenormal x = false)) := by
  intro c
  by_cases hu : isUnsupported x = true
  · exact Or.inl ⟨_, by simp only [c, trigCore, hu, if_true], nan_legal hl,
      by simp only [isUnsupported, isFinite, beq_iff_eq] at *; rw [hu]; rfl⟩
  by_cases hn : isNan x = true
  · exact Or.inl ⟨quiet x, by simp only [c, trigCore, hu, hn, if_true, Bool.false_eq_true, if_false], classify_quiet hn,
      (nan_class hn).2.2.2⟩
  rw [Bool.not_eq_true] at hu hn
  rcases finite_or_inf hu hn with hf | hi
  · right
    by_cases hz : isZero x = true
    · exact Or.inl ⟨by simp only [c, trigCore, hu, hn, (finite_class hf).2.2, hz, if_true, Bool.false_eq_true, if_false],
        hz⟩
    · right
      rw [Bool.not_eq_true] at hz
      have hc : c = _ := trigCore_finite _ _ _ hf hz
      split_ifs at hc with hD
      · left
        rcases hs : trigPartial p rc (signBit x) |val x| (ilog2 (val x)) with z | _ | ⟨z, fs⟩ | ⟨_, _, _⟩
        · simp only [trigPartial] at hs; split_ifs at hs
        · simp only [trigPartial] at hs; split_ifs at hs
        · obtain ⟨g1, _, g3, _⟩ := trigPartial_spec hl rc hf hD hs
          exact ⟨z, fs, hc.trans hs, hf, hz, g1, g3⟩
        · simp only [trigPartial] at hs; split_ifs at hs
      · right
        obtain ⟨vs, vc, h1, h2, h3, h4⟩ := trigValues_spec hl x (denormalFlags1 x)
        exact ⟨vs, vc, hc.trans h1, hf, hz, h2, h3, h4⟩
  · exact Or.inl ⟨_, by simp only [c, trigCore, hu, hn, hi, if_true, Bool.false_eq_true, if_false], nan_legal hl,
      (inf_class hi).2.2.2⟩

/-- The rounding of a value of at most 1: at most 1, PE, perhaps UE (R286). -/
theorem roundT_bounded {v : ℚ} (h : |v| ≤ 1) (s0 : Bool) (rc : RoundingMode) :
    isFinite (roundT v s0 rc).1 = true ∧ |val (roundT v s0 rc).1| ≤ 1 ∧
      ((roundT v s0 rc).2 = PE ∨ (roundT v s0 rc).2 = UE ||| PE) := by
  unfold roundT
  split_ifs with h0
  · exact ⟨by simp [isFinite, FClass.isFinite], by simp, Or.inl rfl⟩
  · have hlt : |v| < pow2 1 := lt_of_le_of_lt h (by rw [show pow2 1 = 2 by rfl]; norm_num)
    obtain ⟨f1, f2⟩ := roundX_no_overflow h0 (hlt.trans (pow2_lt_iff.mpr (by norm_num))) rc true
    have hp := roundX_force h0 rc
    have h1 : pow2 0 = 1 := rfl
    refine ⟨f1, ?_, ?_⟩
    · have := roundX_le h0 rc true (n := 1) (h := 0) (by rw [h1]; simpa using h)
        (by have := (ilog2_lt_iff h0).mpr hlt; omega) (by norm_num) f1
      simpa [h1] using this
    · rcases roundX_flags h0 rc true with h | h | h | h
      · rw [h] at hp; exact absurd hp (by decide)
      · exact Or.inl h
      · exact Or.inr h
      · rw [h] at f2; exact absurd f2 (by decide)

/-- The flags of a completed trig rounding (R286). -/
theorem roundT_flags (v : ℚ) (s0 : Bool) (rc : RoundingMode) :
    (roundT v s0 rc).2 = PE ∨ (roundT v s0 rc).2 = UE ||| PE ∨ (roundT v s0 rc).2 = OE ||| PE := by
  unfold roundT
  split_ifs with h0
  · exact Or.inl rfl
  · have hp := roundX_force h0 rc
    rcases roundX_flags h0 rc true with h | h | h | h
    · rw [h] at hp; exact absurd hp (by decide)
    · exact Or.inl h
    · exact Or.inr (Or.inl h)
    · exact Or.inr (Or.inr h)

/-- FSIN, FCOS and FTAN never write `B` (R280). -/
@[simp] theorem fsinOut_b (k : KernelFns) (p : Params) (rc : RoundingMode) (x : Image) : (fsinOut k p rc x).b = none := by
  unfold fsinOut
  split <;> rfl

@[simp] theorem fcosOut_b (k : KernelFns) (p : Params) (rc : RoundingMode) (x : Image) : (fcosOut k p rc x).b = none := by
  unfold fcosOut
  split <;> rfl

@[simp] theorem ftanOut_b (k : KernelFns) (p : Params) (rc : RoundingMode) (x : Image) : (ftanOut k p rc x).b = none := by
  unfold ftanOut
  split <;> try rfl
  split <;> rfl

/-- What a completed trig command raises: DE or nothing, beside one rounding's flags or none (R286). -/
def completedFlags (fs : FlagSet) : Prop :=
  fs = noFlags ∨ ∃ d r, (d = noFlags ∨ d = DE) ∧ (r = PE ∨ r = UE ||| PE ∨ r = OE ||| PE) ∧ fs = d ||| r

/-- Everything one of the four trig commands can answer: Invalid with IE alone and a quiet NaN, a partial step, or
Complete (R281, R282, R286, R287, R294). -/
def TrigOut.Shape (o : TrigOut) : Prop :=
  (o.cc = .invalid ∧ o.fs = IE ∧ classify o.a = .qnan ∧ (o.b = none ∨ o.b = some o.a)) ∨
    (o.cc = .partialReductionNeeded ∧ o.b = none ∧ isFinite o.a = true ∧ (o.fs = noFlags ∨ o.fs = PE ∨ o.fs = UE ||| PE)) ∨
    (o.cc = .complete ∧ completedFlags o.fs)

theorem fsinOut_shape {p : Params} (hl : p.legal = true) (rc : RoundingMode) (x : Image) :
    (fsinOut Config.kernels.toKernelFns p rc x).Shape := by
  unfold fsinOut
  rcases trigCore_cases hl rc x with ⟨z, hc, hz, _⟩ | ⟨hc, _⟩ | ⟨z, fs, hc, _, _, h1, h2⟩ | ⟨vs, vc, hc, _⟩ <;> rw [hc]
  · exact Or.inl ⟨rfl, rfl, hz, Or.inl rfl⟩
  · exact Or.inr (Or.inr ⟨rfl, Or.inl rfl⟩)
  · exact Or.inr (Or.inl ⟨rfl, rfl, h1, h2⟩)
  · exact Or.inr (Or.inr ⟨rfl, Or.inr ⟨_, _, denormalFlags1_cases x, roundT_flags _ _ _, rfl⟩⟩)

theorem fcosOut_shape {p : Params} (hl : p.legal = true) (rc : RoundingMode) (x : Image) :
    (fcosOut Config.kernels.toKernelFns p rc x).Shape := by
  unfold fcosOut
  rcases trigCore_cases hl rc x with ⟨z, hc, hz, _⟩ | ⟨hc, _⟩ | ⟨z, fs, hc, _, _, h1, h2⟩ | ⟨vs, vc, hc, _⟩ <;> rw [hc]
  · exact Or.inl ⟨rfl, rfl, hz, Or.inl rfl⟩
  · exact Or.inr (Or.inr ⟨rfl, Or.inl rfl⟩)
  · exact Or.inr (Or.inl ⟨rfl, rfl, h1, h2⟩)
  · exact Or.inr (Or.inr ⟨rfl, Or.inr ⟨_, _, denormalFlags1_cases x, roundT_flags _ _ _, rfl⟩⟩)

theorem ftanOut_shape {p : Params} (hl : p.legal = true) (rc : RoundingMode) (x : Image) :
    (ftanOut Config.kernels.toKernelFns p rc x).Shape := by
  unfold ftanOut
  rcases trigCore_cases hl rc x with ⟨z, hc, hz, _⟩ | ⟨hc, _⟩ | ⟨z, fs, hc, _, _, h1, h2⟩ | ⟨vs, vc, hc, _, _, _, _, hd⟩ <;>
    rw [hc]
  · exact Or.inl ⟨rfl, rfl, hz, Or.inl rfl⟩
  · exact Or.inr (Or.inr ⟨rfl, Or.inl rfl⟩)
  · exact Or.inr (Or.inl ⟨rfl, rfl, h1, h2⟩)
  · simp only []
    split_ifs with h0
    · exact Or.inl ⟨rfl, by simp only [denormalFlags1_eq, hd h0, Bool.false_eq_true, if_false]; rfl, nan_legal hl,
        Or.inl rfl⟩
    · exact Or.inr (Or.inr ⟨rfl, Or.inr ⟨_, _, denormalFlags1_cases x, roundT_flags _ _ _, rfl⟩⟩)

theorem fsincosOut_shape {p : Params} (hl : p.legal = true) (rc : RoundingMode) (x : Image) :
    (fsincosOut Config.kernels.toKernelFns p rc x).Shape ∧
      ((fsincosOut Config.kernels.toKernelFns p rc x).cc ≠ .partialReductionNeeded →
        (fsincosOut Config.kernels.toKernelFns p rc x).b ≠ none) := by
  unfold fsincosOut
  rcases trigCore_cases hl rc x with ⟨z, hc, hz, _⟩ | ⟨hc, _⟩ | ⟨z, fs, hc, _, _, h1, h2⟩ | ⟨vs, vc, hc, _, _, hs, hcs, _⟩ <;>
    rw [hc]
  · exact ⟨Or.inl ⟨rfl, rfl, hz, Or.inr rfl⟩, fun _ => by simp⟩
  · exact ⟨Or.inr (Or.inr ⟨rfl, Or.inl rfl⟩), fun _ => by simp⟩
  · exact ⟨Or.inr (Or.inl ⟨rfl, rfl, h1, h2⟩), fun h => absurd rfl h⟩
  · refine ⟨Or.inr (Or.inr ⟨rfl, Or.inr ⟨_, (roundT vs (signBit x) rc).2 ||| (roundT vc false rc).2,
      denormalFlags1_cases x, ?_, by simp only [BitVec.or_assoc]⟩⟩), fun _ => by simp⟩
    rcases (roundT_bounded hs (signBit x) rc).2.2 with h | h <;>
      rcases (roundT_bounded hcs false rc).2.2 with h' | h' <;> rw [h, h']
    · exact Or.inl (by decide)
    · exact Or.inr (Or.inl (by decide))
    · exact Or.inr (Or.inl (by decide))
    · exact Or.inr (Or.inl (by decide))

/-- The shape of every trig command's result, and that FSINCOS writes `B` unless it asks for a retry. -/
theorem effect_trig_shape {i : Instr} (hi : i ∈ [Instr.fsin, .fcos, .ftan, .fsincos]) {s : State}
    (hl : s.par.legal = true) :
    ∃ o : TrigOut, effect i s = s.commitTrig o ∧ o.Shape ∧
      (i = .fsincos → o.cc ≠ .partialReductionNeeded → o.b ≠ none) := by
  simp only [List.mem_cons, List.not_mem_nil, or_false] at hi
  rcases hi with rfl | rfl | rfl | rfl
  · exact ⟨_, rfl, fsinOut_shape hl _ _, fun h => by cases h⟩
  · exact ⟨_, rfl, fcosOut_shape hl _ _, fun h => by cases h⟩
  · exact ⟨_, rfl, ftanOut_shape hl _ _, fun h => by cases h⟩
  · exact ⟨_, rfl, (fsincosOut_shape hl _ _).1, fun _ => (fsincosOut_shape hl _ _).2⟩

end Sys2Proof.Machine
end

