-- ==== Sys2Proof/Laws/ByValue.lean ====
section
/-! SUPPORT. The flags the four by-value commands of ExpLog and Fpatan can raise (R220, R327). -/

namespace Sys2Proof.Machine

/-- DE or nothing, beside the flags of one rounding (R120, R125 to R128). -/
def roundedFlags (fs : FlagSet) : Prop :=
  ∃ d r, (d = noFlags ∨ d = DE) ∧ (r = noFlags ∨ r = PE ∨ r = UE ||| PE ∨ r = OE ||| PE) ∧ fs = d ||| r

/-- An undefined result, an invalid operation, or a value with the flags of one rounding. -/
def ByValue.Shape : ByValue → Prop
  | .anyValue => True
  | .out _ fs => fs = IE ∨ roundedFlags fs

theorem roundedFlags_none : roundedFlags noFlags := ⟨noFlags, noFlags, Or.inl rfl, Or.inl rfl, rfl⟩

theorem snanFlags1_shape (x : Image) : snanFlags1 x = IE ∨ roundedFlags (snanFlags1 x) := by
  unfold snanFlags1 flagsIf
  split
  · exact Or.inl rfl
  · exact Or.inr roundedFlags_none

theorem snanFlags2_shape (x y : Image) : snanFlags2 x y = IE ∨ roundedFlags (snanFlags2 x y) := by
  unfold snanFlags2 flagsIf
  split
  · exact Or.inl rfl
  · exact Or.inr roundedFlags_none

/-- The flags of a rounding beside DE. -/
theorem rounded_shape1 {v : ℚ} (hv : v ≠ 0) (rc : RoundingMode) (force : Bool) (x : Image) :
    (ByValue.rounded (roundX v rc force) (denormalFlags1 x)).Shape :=
  Or.inr ⟨_, _, denormalFlags1_cases x, roundX_flags hv rc force, rfl⟩

theorem rounded_shape2 {v : ℚ} (hv : v ≠ 0) (rc : RoundingMode) (force : Bool) (x y : Image) :
    (ByValue.rounded (roundX v rc force) (denormalFlags2 x y)).Shape :=
  Or.inr ⟨_, _, denormalFlags2_cases x y, roundX_flags hv rc force, rfl⟩

theorem f2xm1Out_shape (p : Params) (rc : RoundingMode) (x : Image) :
    (f2xm1Out Config.kernels.toKernelFns p rc x).Shape := by
  unfold f2xm1Out
  split_ifs with h1 h2 h3 h4 h5 h6
  · exact Or.inl rfl
  · exact snanFlags1_shape x
  · exact Or.inr roundedFlags_none
  · trivial
  · exact Or.inr roundedFlags_none
  · exact Or.inr roundedFlags_none
  · simp only [Bool.not_eq_true] at h1 h2 h3 h4
    have hv := val_ne_zero ((finite_or_inf h1 h2).resolve_right (by simp [h4])) h3
    refine rounded_shape1 ?_ _ _ _
    rcases lt_or_gt_of_ne hv with h | h
    · exact (Config.kernels.k2xm1_neg _ h).ne
    · exact (Config.kernels.k2xm1_pos _ h).ne'

theorem fyl2xp1Out_shape (p : Params) (rc : RoundingMode) (x y : Image) :
    (fyl2xp1Out Config.kernels.toKernelFns p rc x y).Shape := by
  unfold fyl2xp1Out
  split_ifs with h1 h2 h3 h4 h5 h6
  · exact Or.inl rfl
  · exact snanFlags2_shape x y
  · trivial
  · exact Or.inl rfl
  · exact Or.inr roundedFlags_none
  · exact Or.inr roundedFlags_none
  · simp only [Bool.or_eq_true, not_or, Bool.not_eq_true] at h1 h2 h3 h4 h6
    have h7 : isInf x = false ∧ |val x| ≤ Config.kernels.log2p1Bound := by
      simpa [outsideLog2p1, h6.1, absQ_eq_abs] using h3
    have hvx := val_ne_zero ((finite_or_inf h1.1 h2.1).resolve_right (by simp [h7.1])) h6.1
    have hvy := val_ne_zero ((finite_or_inf h1.2 h2.2).resolve_right (by simp [h4])) h6.2
    obtain ⟨h8, h9⟩ := abs_le.mp h7.2
    refine rounded_shape2 (mul_ne_zero hvy ?_) _ _ _ _
    rcases lt_or_gt_of_ne hvx with h | h
    · exact (Config.kernels.kLog2p1_neg _ h h8).ne
    · exact (Config.kernels.kLog2p1_pos _ h h9).ne'

theorem fyl2xOut_shape (p : Params) (rc : RoundingMode) (x y : Image) :
    (∃ z, fyl2xOut Config.kernels.toKernelFns p rc x y = .out z (IE ||| ZE)) ∨
      (fyl2xOut Config.kernels.toKernelFns p rc x y).Shape := by
  unfold fyl2xOut
  split_ifs with h1 h2 h3 h4
  · exact Or.inr (Or.inl rfl)
  · exact Or.inr (snanFlags2_shape x y)
  · unfold fyl2xNonPositive
    split_ifs
    · exact Or.inr (Or.inl rfl)
    · by_cases hz : isZero x = true
      · exact Or.inl ⟨_, by simp only [hz, flagsIf, if_true]; rfl⟩
      · exact Or.inr (Or.inl (by simp only [flagsIf, hz, Bool.false_eq_true, if_false]; rfl))
  · exact Or.inr (snanFlags2_shape x y)
  · right
    simp only [Bool.or_eq_true, not_or, Bool.not_eq_true] at h1 h2 h3 h4
    unfold fyl2xPositive
    split_ifs with h5 h6 h7 h8 h9 h10
    · exact Or.inl rfl
    · exact Or.inr roundedFlags_none
    · exact Or.inl rfl
    · exact Or.inr roundedFlags_none
    · exact Or.inr roundedFlags_none
    · exact Or.inr roundedFlags_none
    · rw [Bool.not_eq_true] at h5 h7 h10
      have hvx := val_ne_zero ((finite_or_inf h1.1 h2).resolve_right (by simp [h5])) h3.1
      have hvy := val_ne_zero ((finite_or_inf h1.2 h4).resolve_right (by simp [h7])) h10
      have hpos : 0 < val x := by
        have := signBit_eq_decide hvx
        rw [h3.2] at this
        exact lt_of_le_of_ne (by simpa using this) hvx.symm
      by_cases hk : ∃ n, val x = pow2 n
      · obtain ⟨n, hn⟩ := hk
        rw [fyl2xGeneral_some _ _ _ hn]
        refine rounded_shape2 (mul_ne_zero hvy ?_) _ _ _ _
        rw [Int.cast_ne_zero]
        rintro rfl
        exact h9 (by rw [hn]; rfl)
      · rw [fyl2xGeneral_none _ _ _ (not_exists.mp hk)]
        refine rounded_shape2 (mul_ne_zero hvy ?_) _ _ _ _
        have hk' : ∀ n : ℤ, val x ≠ (2 : ℚ) ^ n := fun n h => hk ⟨n, by rw [h, pow2_eq_zpow]⟩
        rcases lt_or_gt_of_ne h9 with h | h
        · exact (Config.kernels.kLog2_neg _ hpos h hk').ne
        · exact (Config.kernels.kLog2_pos _ h hk').ne'

/-- The angle of two finite nonzero operands lies strictly between 0 and the stored pi (R162, R268). -/
theorem atanTheta_bounds {p : Params} (hl : p.legal = true) {y x : Image} (hy : val y ≠ 0) (hx : val x ≠ 0) :
    0 < atanTheta Config.kernels.toKernelFns p.constPi y x ∧
      atanTheta Config.kernels.toKernelFns p.constPi y x < p.constPi := by
  obtain ⟨p1, p2⟩ := pi_bounds hl
  have hy := abs_pos.mpr hy
  have hx := abs_pos.mpr hx
  simp only [atanTheta, absQ_eq_abs, atanCompose, decide_eq_true_eq]
  split_ifs with h1 h2 h2
  · have := Config.kernels.kAtan_pos p.constPi _ _ p1 p2 hy h1
    have := Config.kernels.kAtan_le p.constPi _ _ p1 p2 hy h1
    constructor <;> linarith
  · have := Config.kernels.kAtan_pos p.constPi _ _ p1 p2 hy h1
    have := Config.kernels.kAtan_le p.constPi _ _ p1 p2 hy h1
    constructor <;> linarith
  · have := Config.kernels.kAtan_pos p.constPi _ _ p1 p2 hx (not_le.mp h1).le
    have := Config.kernels.kAtan_le p.constPi _ _ p1 p2 hx (not_le.mp h1).le
    constructor <;> linarith
  · have := Config.kernels.kAtan_pos p.constPi _ _ p1 p2 hx (not_le.mp h1).le
    have := Config.kernels.kAtan_le p.constPi _ _ p1 p2 hx (not_le.mp h1).le
    constructor <;> linarith

/-- A value below 4 rounds without OE (R326). -/
theorem roundX_small_flags {v : ℚ} (hv : v ≠ 0) (h : |v| < 4) (rc : RoundingMode) (force : Bool) :
    (roundX v rc force).2 = noFlags ∨ (roundX v rc force).2 = PE ∨ (roundX v rc force).2 = UE ||| PE := by
  have h4 : pow2 2 = 4 := rfl
  have h1 := (roundX_no_overflow hv ((h4 ▸ h : |v| < pow2 2).trans (pow2_lt_iff.mpr (by norm_num))) rc force).2
  rcases roundX_flags hv rc force with h | h | h | h
  · exact Or.inl h
  · exact Or.inr (Or.inl h)
  · exact Or.inr (Or.inr h)
  · rw [h] at h1
    exact absurd h1 (by decide)

/-- FPATAN: an invalid operation, or the flags of a rounding without OE (R326). -/
theorem fpatanOut_shape {p : Params} (hl : p.legal = true) (rc : RoundingMode) (y x : Image) :
    ∃ z fs, fpatanOut Config.kernels.toKernelFns p rc y x = .out z fs ∧
      (fs = IE ∨ ∃ d r, (d = noFlags ∨ d = DE) ∧ (r = noFlags ∨ r = PE ∨ r = UE ||| PE) ∧ fs = d ||| r) := by
  obtain ⟨p1, p2⟩ := pi_bounds hl
  have hpi : ∀ k : ℕ, 1 ≤ k → k ≤ 4 → ∀ s, ∃ z fs, piResult p rc k s = .out z fs ∧
      (fs = IE ∨ ∃ d r, (d = noFlags ∨ d = DE) ∧ (r = noFlags ∨ r = PE ∨ r = UE ||| PE) ∧ fs = d ||| r) := by
    intro k h1 h4 s
    have h1' : (1 : ℚ) ≤ k := by exact_mod_cast h1
    have h4' : (k : ℚ) ≤ 4 := by exact_mod_cast h4
    have h0 : 0 < k * p.constPi / 4 := by positivity
    refine ⟨_, _, rfl, Or.inr ⟨_, _, Or.inl rfl, roundX_small_flags ?_ ?_ _ _, rfl⟩⟩
    · exact fun h => h0.ne' (applySign_eq_zero.mp h)
    · rw [abs_applySign, abs_of_pos h0]
      nlinarith
  have hzero : ∀ z, ∃ z' fs, ByValue.out z noFlags = .out z' fs ∧
      (fs = IE ∨ ∃ d r, (d = noFlags ∨ d = DE) ∧ (r = noFlags ∨ r = PE ∨ r = UE ||| PE) ∧ fs = d ||| r) := fun z =>
    ⟨_, _, rfl, Or.inr ⟨noFlags, noFlags, Or.inl rfl, Or.inl rfl, rfl⟩⟩
  have hax : ∀ sy sx, ∃ z fs, axisX p rc sy sx = .out z fs ∧
      (fs = IE ∨ ∃ d r, (d = noFlags ∨ d = DE) ∧ (r = noFlags ∨ r = PE ∨ r = UE ||| PE) ∧ fs = d ||| r) := by
    intro sy sx
    unfold axisX
    split
    · exact hpi 4 (by norm_num) (le_refl _) _
    · exact hzero _
  unfold fpatanOut
  simp only []
  split_ifs with h1 h2 h3 h4 h5 h6 h7 h8 h9
  · exact ⟨_, _, rfl, Or.inl rfl⟩
  · refine ⟨_, _, rfl, ?_⟩
    unfold snanFlags2 flagsIf
    split
    · exact Or.inl rfl
    · exact Or.inr ⟨noFlags, noFlags, Or.inl rfl, Or.inl rfl, rfl⟩
  · exact ⟨_, _, rfl, Or.inl rfl⟩
  · exact hpi 3 (by norm_num) (by norm_num) _
  · exact hpi 1 (by norm_num) (by norm_num) _
  · exact hpi 2 (by norm_num) (by norm_num) _
  · exact hax _ _
  · exact hpi 2 (by norm_num) (by norm_num) _
  · exact hax _ _
  · simp only [Bool.or_eq_true, not_or, Bool.not_eq_true] at *
    have hy := val_ne_zero ((finite_or_inf h1.1 h2.1).resolve_right (by simp [*])) ‹isZero y = false›
    have hx := val_ne_zero ((finite_or_inf h1.2 h2.2).resolve_right (by simp [*])) ‹isZero x = false›
    obtain ⟨t1, t2⟩ := atanTheta_bounds hl hy hx
    refine ⟨_, _, rfl, Or.inr ⟨_, _, denormalFlags2_cases y x, roundX_small_flags ?_ ?_ _ _, rfl⟩⟩
    · exact fun h => t1.ne' (applySign_eq_zero.mp h)
    · rw [abs_applySign, abs_of_pos t1]
      linarith

end Sys2Proof.Machine
end

