-- ==== Sys2Proof/Laws/PerInstr.lean ====
section
/-! SUPPORT. The family of statements made for every command: its listing byte is a well-formed command word. -/

namespace Sys2Proof.Laws.Encoding

/-- The command's listing byte has a zero high nibble (R91), is no reserved code (R84) and decodes to the command, which is
well formed (R82, R85). -/
def Statement (i : Instr) : Prop :=
  (encode i).extractLsb' 4 4 = 0#4 ∧ i.code < 0xC#4 ∧ decode (encode i) = .instr i ∧ i.wf = true

theorem abs : Statement .abs := by unfold Statement; decide

theorem negate : Statement .negate := by unfold Statement; decide

theorem remIeee : Statement .remIeee := by unfold Statement; decide

theorem remLegacy : Statement .remLegacy := by unfold Statement; decide

theorem f2xm1 : Statement .f2xm1 := by unfold Statement; decide

theorem fyl2x : Statement .fyl2x := by unfold Statement; decide

theorem fyl2xp1 : Statement .fyl2xp1 := by unfold Statement; decide

theorem fpatan : Statement .fpatan := by unfold Statement; decide

theorem fsin : Statement .fsin := by unfold Statement; decide

theorem fcos : Statement .fcos := by unfold Statement; decide

theorem ftan : Statement .ftan := by unfold Statement; decide

theorem fsincos : Statement .fsincos := by unfold Statement; decide

end Sys2Proof.Laws.Encoding
end

