-- ==== Sys2Proof/Laws/Retry.lean ====
section
/-! SUPPORT. The retry loop: one pass of it, and the bound its measure gives (R194, R295, R356). -/

namespace Sys2Proof.Machine

/-- One pass of the loop, in terms of the command's effect. -/
theorem step_reduce {s : State} {byte : Byte} {rest : List HostOp} {i : Instr} (hp : s.port = .reduce byte :: rest)
    (hd : decode byte = .instr i) (hw : i.writesCC = true) :
    step s = .next ((effect i { s with port := rest }).retry byte) := by
  simp [step, stepPort, hp, hostOp, reduceByte, hd, hw, exec_eq_effect]

/-- A run whose first step answers a next state goes on from it. -/
theorem run_succ {s t : State} (h : step s = .next t) (k : ℕ) : core.run (k + 1) s = core.run k t := by
  simp [Host.Core.run, core, h]

/-- If every pass that asks for a retry comes from a state whose measure exceeds `T`, keeps what the passes need, and
either lowers the measure by `S` or brings it to `T` or below, then the loop ends after at most `ceil((measure - T)/S)`
such passes and one more. -/
theorem retry_loop_ends {byte : Byte} {i : Instr} {rest : List HostOp} (hd : decode byte = .instr i)
    (hw : i.writesCC = true) {T : ℤ} {S : ℕ} (hS : 1 ≤ S) (μ : State → ℤ) (I : State → Prop)
    (hstep : ∀ s t : State, I s → s.port = .reduce byte :: rest → step s = .next t → t.cc = .partialReductionNeeded →
      T < μ s ∧ I t ∧ (μ t ≤ T ∨ μ t + S ≤ μ s)) :
    ∀ (n : ℕ) (s : State), (μ s - T).toNat ≤ n → I s → s.port = .reduce byte :: rest →
      ∃ (k : ℕ) (t : State), core.run (k + 1) s = .next t ∧ t.port = rest ∧ t.cc ≠ .partialReductionNeeded ∧
        k * S ≤ (μ s - T).toNat + (S - 1) := by
  intro n
  induction n with
  | zero =>
    intro s hn hI hp
    have h := step_reduce hp hd hw
    refine ⟨0, _, by rw [run_succ h]; rfl, ?_⟩
    have hcc : (effect i { s with port := rest }).cc ≠ .partialReductionNeeded := by
      intro hc
      have := (hstep s _ hI hp h (by rw [State.retry, if_pos hc]; exact hc)).1
      omega
    rw [State.retry, if_neg hcc]
    exact ⟨effect_port _ _, hcc, by simp⟩
  | succ n ih =>
    intro s hn hI hp
    have h := step_reduce hp hd hw
    by_cases hcc : (effect i { s with port := rest }).cc = .partialReductionNeeded
    · obtain ⟨s1, h1⟩ : ∃ s1, s1 = (effect i { s with port := rest }).retry byte := ⟨_, rfl⟩
      rw [← h1] at h
      rw [State.retry, if_pos hcc, effect_port] at h1
      obtain ⟨h2, h3, h4⟩ := hstep s s1 hI hp h (by rw [h1]; exact hcc)
      obtain ⟨k, t, e1, e2, e3, e4⟩ := ih s1 (by omega) h3 (by rw [h1])
      refine ⟨k + 1, t, by rw [run_succ h]; exact e1, e2, e3, ?_⟩
      rw [add_mul, one_mul]
      rcases le_or_gt (μ s1) T with h5 | h5
      · obtain rfl : k = 0 := by
          by_contra hk
          have := Nat.mul_le_mul_right S (Nat.one_le_iff_ne_zero.mpr hk)
          omega
        omega
      · omega
    · refine ⟨0, _, by rw [run_succ h]; rfl, ?_⟩
      rw [State.retry, if_neg hcc]
      exact ⟨effect_port _ _, hcc, by simp⟩

end Sys2Proof.Machine
end

