-- ==== Sys2Proof/Laws/Sign.lean ====
section
/-! SUPPORT. The sign utilities as masks (R112, R113), and the bytes of an image (R61). -/

namespace Sys2Proof.Machine

/-- ABS is the mask of R112. -/
theorem absImage_eq (x : Image) : absImage x = x &&& 0x7FFFFFFFFFFFFFFFFFFF#80 := by
  have : (0x7FFFFFFFFFFFFFFFFFFF#80) = (0#1 ++ BitVec.allOnes 79 : BitVec 80) := by decide
  apply BitVec.eq_of_getLsbD_eq
  intro i hi
  rw [this, absImage, BitVec.getLsbD_and, BitVec.getLsbD_append, BitVec.getLsbD_append]
  by_cases h : i < 79
  · rw [if_pos h, if_pos h, BitVec.getLsbD_allOnes, BitVec.getLsbD_extractLsb']; simp [h]
  · simp [h]

/-- NEGATE is the flip of bit 79 (R113). -/
theorem negateImage_eq (x : Image) : negateImage x = x ^^^ (1#80 <<< 79) := by
  have : (1#80 <<< 79) = (1#1 ++ 0#79 : BitVec 80) := by decide
  apply BitVec.eq_of_getLsbD_eq
  intro i hi
  rw [this, negateImage, BitVec.getLsbD_xor, BitVec.getLsbD_append, BitVec.getLsbD_append]
  by_cases h : i < 79
  · simp [h]
  · have : i = 79 := by omega
    subst this
    simp [signBit]

/-- Flipping the sign twice restores the image (R113). -/
theorem xor_sign_twice (x : Image) : x ^^^ (1#80 <<< 79) ^^^ (1#80 <<< 79) = x := by
  rw [BitVec.xor_assoc, BitVec.xor_self, BitVec.xor_zero]

/-- Ten bytes, least significant first, hold the image (R61). -/
theorem imageOfBytes_little (x : Image) : BitVec.ofNat 80 (bytesValue ((List.range 10).map fun i => x.extractLsb' (8 * i) 8)) = x := by
  apply BitVec.eq_of_toNat_eq
  have := x.isLt
  simp [List.range_succ, bytesValue, BitVec.extractLsb'_toNat, Nat.shiftRight_eq_div_pow]
  omega

end Sys2Proof.Machine
end

