-- ==== Sys2Proof/Laws/System.lean ====
section
/-! SUPPORT. The system of instances: no step writes what the instances share, and everything a step of one instance can
do. -/

namespace Sys2Proof.Machine

/-- No host operation writes the parameters or the stream (R37, R340). -/
theorem hostOp_shared {op : HostOp} {s t : State} (h : hostOp op s = .next t) : t.par = s.par ∧ t.stream = s.stream := by
  cases op <;> simp only [hostOp] at h
  case issue byte =>
    unfold issueByte at h
    split at h
    · rw [exec_next_iff] at h; rw [← h]; exact ⟨effect_par _ _, effect_stream _ _⟩
    · cases h
  case reduce byte =>
    unfold reduceByte at h
    split at h
    · split at h
      · rw [exec_eq_effect] at h
        injection h with h
        rw [← h, State.retry]
        split <;> exact ⟨effect_par _ _, effect_stream _ _⟩
      · cases h
    · cases h
  all_goals (injection h with h; subst h; exact ⟨rfl, rfl⟩)

/-- No step writes the parameters or the stream (R37, R340). -/
theorem step_shared {s t : State} (h : step s = .next t) : t.par = s.par ∧ t.stream = s.stream := by
  unfold step stepPort at h
  split at h
  · injection h with h; rw [h]; exact ⟨rfl, rfl⟩
  · obtain ⟨h1, h2⟩ := hostOp_shared h; exact ⟨h1, h2⟩

/-- A state is its own part with what it is given. -/
@[simp] theorem State.own_state (s : State) : s.own.state s.par s.stream = s := rfl

@[simp] theorem Txu.state_own (u : Txu) (p : Params) (k : ℕ) : (u.state p k).own = u := rfl
@[simp] theorem Txu.state_par (u : Txu) (p : Params) (k : ℕ) : (u.state p k).par = p := rfl
@[simp] theorem Txu.state_stream (u : Txu) (p : Params) (k : ℕ) : (u.state p k).stream = k := rfl

/-- The instance a view shows, the shared parameters and the position as stream. -/
theorem System.view_eq_some {sys : System} {k : ℕ} {s : State} :
    sys.view k = some s ↔ sys.units[k]? = some s.own ∧ s.par = sys.par ∧ s.stream = k := by
  simp only [System.view, Option.map_eq_some_iff]
  constructor
  · rintro ⟨u, hu, rfl⟩; exact ⟨hu, rfl, rfl⟩
  · rintro ⟨hu, h2, h3⟩; exact ⟨_, hu, by rw [← h2, ← h3, State.own_state]⟩

/-- There is a view exactly of the instances there are. -/
theorem System.view_eq_none {sys : System} {k : ℕ} : sys.view k = none ↔ sys.units.length ≤ k := by
  simp [System.view]

/-- Everything a step of one instance can do: nothing where the instance does not exist, else its own step in its place
(R67, R340). -/
theorem stepUnit_next_iff {k : ℕ} {sys sys' : System} : stepUnit k sys = .next sys' ↔
    (sys.units.length ≤ k ∧ sys' = sys) ∨
      ∃ s t, sys.view k = some s ∧ step s = .next t ∧ sys' = { sys with units := sys.units.set k t.own } := by
  unfold stepUnit
  rcases h : sys.view k with _ | s
  · have := System.view_eq_none.mp h
    simp [this, eq_comm]
  · have : ¬sys.units.length ≤ k := fun h' => by rw [System.view_eq_none.mpr h'] at h; cases h
    rcases hs : step s with t | r | r <;> simp [hs, this, eq_comm]

/-- Storing an instance changes what is seen of it, and of no other. -/
theorem System.view_set (sys : System) (k j : ℕ) (u : Txu) :
    ({ sys with units := sys.units.set k u } : System).view j =
      if j = k ∧ k < sys.units.length then some (u.state sys.par k) else sys.view j := by
  by_cases hj : j = k
  · subst hj
    by_cases hl : j < sys.units.length
    · simp [System.view, hl]
    · simp [System.view, hl]
  · simp [System.view, hj, List.getElem?_set_ne (Ne.symm hj)]

end Sys2Proof.Machine
end

