-- ==== Sys2Proof/Tests/Slice0.lean ====
section
/-! SUPPORT. Tests: every command's listing byte, the ill-formed terms the checks refuse, single commands against the
vectors of spec/95_test_vectors.md, and for every statement with hypotheses a witness that meets them. -/

namespace Sys2Proof.Tests

-- One theorem at a time: the checker's memory limit has no room for a thread per `decide +kernel`.
set_option Elab.async false

open Sys2Proof.Machine

/-! The operand names of spec/95_test_vectors.md -/

def plusZero : Image := 0x00000000000000000000#80
def minusZero : Image := 0x80000000000000000000#80
def one : Image := 0x3FFF8000000000000000#80
def minusOne : Image := 0xBFFF8000000000000000#80
def half : Image := 0x3FFE8000000000000000#80
def threeQuarters : Image := 0x3FFEC000000000000000#80
def two : Image := 0x40008000000000000000#80
def minusTwo : Image := 0xC0008000000000000000#80
def three : Image := 0x4000C000000000000000#80
def five : Image := 0x4001A000000000000000#80
def minusFive : Image := 0xC001A000000000000000#80
def plusInf : Image := 0x7FFF8000000000000000#80
def minusInf : Image := 0xFFFF8000000000000000#80
def qnan : Image := 0x7FFFC000000000000123#80
def snan : Image := 0x7FFF8000000000000456#80
def minusSnan : Image := 0xFFFF8000000000000789#80
/-- the least denormal -/
def d1 : Image := 0x00000000000000000001#80
/-- the greatest denormal -/
def dmax : Image := 0x00007FFFFFFFFFFFFFFF#80
/-- the pseudo-denormal -/
def pden : Image := 0x00008000000000000000#80
/-- the least normal -/
def nmin : Image := 0x00018000000000000000#80
/-- the greatest finite image -/
def fmax : Image := 0x7FFEFFFFFFFFFFFFFFFF#80
/-- an unnormal, a pseudo-infinity, a pseudo-NaN -/
def unn : Image := 0x40004000000000000000#80
def pinf : Image := 0x7FFF0000000000000000#80
def pnan : Image := 0x7FFF0000000000000001#80
/-- `2^64`, the greatest power of two the trig commands reduce in one step, and `2^65` -/
def pow64 : Image := 0x403F8000000000000000#80
def pow65 : Image := 0x40408000000000000000#80

/-- Operands in `A` and `B`. -/
def regs (a b : Image) : State :=
  { State.reset with a := a, b := b }

/-- Host operations to perform. -/
def host (ops : List HostOp) : State :=
  { State.reset with port := ops }

/-- Every register written. -/
def allWritten : State :=
  { State.reset with written := ⟨true, true, true, true, true, true, true, true⟩ }

/-- A system of three instances. -/
def threeUnits (s : State) : System :=
  ⟨{ Params.default with nTxu := 3 }, [State.own (regs one 0), s.own, State.own (regs two 0)]⟩

/-- The kernels of R167, over any others. -/
def exampleFns : KernelFns := exampleKernels {}

/-- The stored pi of S20, exactly 3. -/
def piIsThree : Params := { Params.default with constPi := 3 }

/-! Decoding: each listing byte written out from R82 and R91 -/

theorem test_decode_abs : decode 0b0000_0000#8 = .instr .abs := by decide
theorem test_decode_negate : decode 0b0000_0001#8 = .instr .negate := by decide
theorem test_decode_remIeee : decode 0b0000_0010#8 = .instr .remIeee := by decide
theorem test_decode_remLegacy : decode 0b0000_0011#8 = .instr .remLegacy := by decide
theorem test_decode_f2xm1 : decode 0b0000_0100#8 = .instr .f2xm1 := by decide
theorem test_decode_fyl2x : decode 0b0000_0101#8 = .instr .fyl2x := by decide
theorem test_decode_fyl2xp1 : decode 0b0000_0110#8 = .instr .fyl2xp1 := by decide
theorem test_decode_fpatan : decode 0b0000_0111#8 = .instr .fpatan := by decide
theorem test_decode_fsin : decode 0b0000_1000#8 = .instr .fsin := by decide
theorem test_decode_fcos : decode 0b0000_1001#8 = .instr .fcos := by decide
theorem test_decode_ftan : decode 0b0000_1010#8 = .instr .ftan := by decide
theorem test_decode_fsincos : decode 0b0000_1011#8 = .instr .fsincos := by decide

/-- R84. -/
theorem test_decode_reserved : decode 0x0C#8 = .rejected (.reservedCode 0xC#4) ∧
    decode 0x0F#8 = .rejected (.reservedCode 0xF#4) := by decide

/-- R91: a listing byte has a zero high nibble. -/
theorem test_decode_high_nibble : decode 0x10#8 = .rejected (.badListingByte 0x10#8) := by decide

theorem test_table_word : decodeTableWord 8 0xB = some .fsincos ∧ decodeTableWord 8 0xC = none := by decide

/-- The word placed by `withFetchWord` is what the next step performs. -/
theorem test_fetch_first : step (State.reset.withFetchWord 8 0) = exec .abs State.reset := rfl

/-! The checks refuse an ill-formed term -/

theorem test_wf_steps : Params.stepsLegal { Params.default with partialStep := 63 } = false ∧
    Params.stepsLegal { Params.default with partialStep := 0 } = false ∧
    Params.stepsLegal { Params.default with partialStep := 62 } = true := by decide

theorem test_wf_pi : Params.piLegal { Params.default with constPi := 2 } = false ∧
    Params.piLegal { Params.default with constPi := 22 / 7 } = false ∧ piIsThree.piLegal = true := by decide +kernel

theorem test_wf_nan : Params.nanLegal { Params.default with defaultNan := snan } = false ∧
    Params.nanLegal { Params.default with defaultNan := pnan } = false ∧ Params.default.nanLegal = true := by decide

/-- R8: at least one instance; the defaults of `BYTE_ORDER` and `N_TXU`. -/
theorem test_wf_count : Params.countLegal { Params.default with nTxu := 0 } = false ∧
    Params.default.countLegal = true ∧ Params.default.byteOrder = .little ∧ Params.default.nTxu = 1 := by decide

/-- R156, R157: a coefficient table is not empty, and its entries fit `W_SIG` bits. -/
theorem test_wf_table : isTable 64 [] = false ∧ isTable 64 [1, -3 / 8, 0] = true ∧ isTable 64 [1 / 3] = false ∧
    isTable 64 [2 ^ 64 + 1] = false := by decide +kernel

theorem test_wf_system : (System.reset Params.default).wf = true ∧ System.wf ⟨Params.default, []⟩ = false := by
  decide +kernel

theorem test_wf_reduce : HostOp.wf (.reduce 0x04#8) = false ∧ HostOp.wf (.reduce 0x0C#8) = false ∧
    HostOp.wf (.reduce 0x0B#8) = true := by decide

/-! The host's layouts -/

/-- R61: one, in the default order; the context word of R30. -/
theorem test_store_image : storeImage Params.default one = [0, 0, 0, 0, 0, 0, 0, 0x80#8, 0xFF#8, 0x3F#8] ∧
    Ctx.word ⟨2#2, 1#2, 0x21#6⟩ = 0b10_01_100001#10 := by decide

/-! Rounding (spec/95_test_vectors.md 2.3) -/

/-- `2^16384 - 2^16319`, negative: the overflow threshold. -/
theorem test_round_overflow : roundX (-(pow2 16384 - pow2 16319)) .nearestEven false = (minusInf, OE ||| PE) ∧
    roundX (-(pow2 16384 - pow2 16319)) .up false = (0xFFFEFFFFFFFFFFFFFFFF#80, PE) := by decide +kernel

/-- `2^-16382 - 2^-16446` and `2^-16382 - 2^-16447`: tiny after rounding, or not. -/
theorem test_round_tiny_boundary : roundX (pow2 (-16382) - pow2 (-16446)) .nearestEven false = (nmin, UE ||| PE) ∧
    roundX (pow2 (-16382) - pow2 (-16447)) .nearestEven false = (nmin, PE) ∧
    roundX (pow2 (-16382) - pow2 (-16447)) .towardZero false = (dmax, UE ||| PE) := by decide +kernel

/-! One command at a time, on the vectors of spec/95_test_vectors.md -/

/-- 2.1: `-snan` stays signaling. -/
theorem test_abs : exec .abs (regs minusSnan 0) = .next { regs minusSnan 0 with
    r := 0x7FFF8000000000000789#80, written := { Written.none with r := true } } := rfl

/-- 2.1: an unnormal only has its sign flipped, with no IE. -/
theorem test_negate : exec .negate (regs 0xC0004000000000000000#80 0) = .next { regs 0xC0004000000000000000#80 0 with
    r := unn, written := { Written.none with r := true } } := rfl

/-- 3.1: 7 by 2 is a tie that goes to the even 4. -/
theorem test_remIeee_tie : remOut Params.default rneQ 0x4001E000000000000000#80 two =
    ⟨minusOne, .complete, 4#3, noFlags⟩ := by decide +kernel

/-- 3.4: `D = 64` is a full reduction. -/
theorem test_remIeee_threshold : remOut Params.default rneQ pow65 three = ⟨minusOne, .complete, 3#3, noFlags⟩ := by
  decide +kernel

/-- 3.1: -7 by 2. -/
theorem test_remLegacy_sign : remOut Params.default truncQ 0xC001E000000000000000#80 two =
    ⟨minusOne, .complete, 3#3, noFlags⟩ := by decide +kernel

/-- 3.4: `D = 65` with a zero partial remainder still asks for a retry. -/
theorem test_remLegacy_partial : remOut Params.default truncQ 0xC0408000000000000000#80 one =
    ⟨minusZero, .partialReductionNeeded, 0#3, noFlags⟩ := by decide +kernel

/-- 2.2: a signaling NaN. -/
theorem test_f2xm1_snan : f2xm1Out {} Params.default .nearestEven snan = .out 0x7FFFC000000000000456#80 IE := by
  decide +kernel

/-- 5.1: `-1`. -/
theorem test_f2xm1_minus_one : f2xm1Out {} Params.default .nearestEven minusOne =
    .out 0xBFFE8000000000000000#80 noFlags := by decide +kernel

/-- 5.3: `x = 8`, `y` about a third: a tie of the exact product. -/
theorem test_fyl2x_tie : fyl2xOut {} Params.default .up 0x40028000000000000000#80 0x3FFDAAAAAAAAAAAAAAAB#80 =
    .out 0x3FFF8000000000000001#80 PE := by decide +kernel

/-- 5.3: half and the least denormal. -/
theorem test_fyl2x_denormal : fyl2xOut {} Params.default .down half d1 = .out 0x80000000000000000001#80 DE := by
  decide +kernel

/-- 5.5: a zero `x`. -/
theorem test_fyl2xp1_zero : fyl2xp1Out {} Params.default .nearestEven plusZero minusTwo = .out minusZero noFlags := by
  decide +kernel

/-- 2.2: a NaN is tested before the domain. -/
theorem test_fyl2xp1_nan_first : fyl2xp1Out {} Params.default .nearestEven plusInf qnan = .out qnan noFlags := by
  decide +kernel

/-- 6.2: one over zero is half the stored pi. -/
theorem test_fpatan_axis : fpatanOut {} Params.default .nearestEven one minusZero =
    .out 0x3FFFC90FDAA22168C235#80 PE := by decide +kernel

/-- 6.2: two infinities, the quadrant of a negative `x`. -/
theorem test_fpatan_infinities : fpatanOut {} Params.default .nearestEven minusInf minusInf =
    .out 0xC00096CBE3F9990E91A8#80 PE := by decide +kernel

/-- 4.3, example kernels: the sine of -2 under RD. -/
theorem test_fsin_rd : fsinOut exampleFns Params.default .down minusTwo =
    ⟨0xBFFEE8C7B7568DA22EFE#80, none, .complete, PE⟩ := by decide +kernel

/-- 4.4: the partial step of `2^65` under RU. -/
theorem test_fsin_partial : fsinOut exampleFns Params.default .up pow65 =
    ⟨0x401EF5E135CAFF0A7540#80, none, .partialReductionNeeded, PE⟩ := by decide +kernel

/-- 4.3, example kernels: the cosine of 3. -/
theorem test_fcos : fcosOut exampleFns Params.default .nearestEven three =
    ⟨0xBFFEFD7025F42F2E9308#80, none, .complete, PE⟩ := by decide +kernel

/-- 4.3, example kernels, S19: the tangent at half the stored pi. -/
theorem test_ftan_half_pi : ftanOut exampleFns Params.default .nearestEven 0x3FFFC90FDAA22168C235#80 =
    ⟨0xC0408A51E04DAABDA35E#80, none, .complete, PE⟩ := by decide +kernel

/-- S20: a literal zero cosine. -/
theorem test_ftan_zero_cosine : ftanOut exampleFns piIsThree .nearestEven 0x3FFFC000000000000000#80 =
    ⟨0xFFFFC000000000000000#80, none, .invalid, IE⟩ := by decide +kernel

/-- 4.3, example kernels: the sine and cosine of 1 under RU. -/
theorem test_fsincos_ru : fsincosOut exampleFns Params.default .up one =
    ⟨0x3FFED76AA47848677021#80, some 0x3FFE8A51407DA8345C92#80, .complete, PE⟩ := by decide +kernel

/-- 2.2: `-inf` writes both registers. -/
theorem test_fsincos_inf : fsincosOut exampleFns Params.default .nearestEven minusInf =
    ⟨0xFFFFC000000000000000#80, some 0xFFFFC000000000000000#80, .invalid, IE⟩ := by decide +kernel

/-! Witnesses: states and operands that meet the hypotheses of each statement, one for every clause -/

theorem witness_DecodeInvertsEncode : Instr.wf .abs = true ∧ Instr.wf .fsincos = true := by decide

theorem witness_ReservedCodeRefused :
    (0xC#4 ≤ 0xC#4 ∧ (host [.issue (0#4 ++ 0xC#4)]).port = [.issue (0#4 ++ 0xC#4)]) ∧
    (0xC#4 ≤ 0xF#4 ∧ (host [.issue (0#4 ++ 0xF#4)]).port = [.issue (0#4 ++ 0xF#4)]) := by decide

theorem witness_ImageBytesRoundTrip : 0 < 10 ∧ 9 < 10 ∧ Params.default.byteOrder = .little := by decide

/-- Each class has its images, at the boundaries of the field ranges. -/
theorem witness_ClassesFollowFields : classify nmin = .normal ∧ classify fmax = .normal ∧ classify minusZero = .zero ∧
    classify d1 = .denormal ∧ classify pden = .denormal ∧ classify minusInf = .inf ∧
    classify 0x7FFFC000000000000000#80 = .qnan ∧ classify 0x7FFF8000000000000001#80 = .snan ∧
    classify 0x7FFFBFFFFFFFFFFFFFFF#80 = .snan ∧ classify 0x00017FFFFFFFFFFFFFFF#80 = .unsupported ∧
    classify pinf = .unsupported := by decide

theorem witness_QuietSetsBit62 : 79 < 80 ∧ isNan snan = true ∧ classify qnan = .qnan := by decide

theorem witness_RoundXFixesRepresentable : canonicalNonzero d1 = true ∧ canonicalNonzero dmax = true ∧
    canonicalNonzero nmin = true ∧ canonicalNonzero fmax = true ∧ canonicalNonzero minusOne = true := by decide

/-- An inexact value, one that is tiny after rounding, one that is not, and one that overflows. -/
theorem witness_RoundXFixesRepresentable_flags :
    (1 + pow2 (-64) ≠ 0 ∧ isFinite (roundX (1 + pow2 (-64)) .up false).1 = true) ∧
    (pow2 (-16382) - pow2 (-16446) ≠ 0 ∧
      isFinite (roundX (pow2 (-16382) - pow2 (-16446)) .nearestEven false).1 = true) ∧
    (pow2 (-16382) - pow2 (-16447) ≠ 0 ∧
      isFinite (roundX (pow2 (-16382) - pow2 (-16447)) .nearestEven false).1 = true) ∧
    (pow2 16384 ≠ 0 ∧ isFinite (roundX (pow2 16384) .up false).1 = false) := by decide +kernel

/-- A tie, a value below the least denormal, and the last value that rounds to the greatest finite image. -/
theorem witness_RoundXNearest :
    (∀ v ∈ [1 + pow2 (-64), pow2 (-16446), pow2 16384 - pow2 16319 - pow2 16255],
      v ≠ 0 ∧ isFinite (roundX v .nearestEven false).1 = true) ∧ isFinite fmax = true := by decide +kernel

/-- `1 + 2^-64` lies half way between one and the next value, `1 + 2^-63`. -/
theorem witness_RoundXNearest_tie :
    isFinite 0x3FFF8000000000000001#80 = true ∧
    |val 0x3FFF8000000000000001#80 - (1 + pow2 (-64))| =
      |val (roundX (1 + pow2 (-64)) .nearestEven false).1 - (1 + pow2 (-64))| ∧
    val 0x3FFF8000000000000001#80 ≠ val (roundX (1 + pow2 (-64)) .nearestEven false).1 := by
  rw [← absQ_eq_abs, ← absQ_eq_abs]
  decide +kernel

theorem witness_RoundXDirected :
    (∀ v ∈ [1 + pow2 (-64), -1 - pow2 (-64), pow2 (-16446)], ∀ rc ∈ [RoundingMode.towardZero, .down, .up],
      v ≠ 0 ∧ isFinite (roundX v rc true).1 = true) ∧ isFinite nmin = true := by decide +kernel

/-- The least magnitude that overflows, for each mode and sign: `2^16384 - 2^16319` under RN, the next value after the
greatest finite one in the directions away from zero, `2^16384` toward zero. -/
theorem witness_OverflowResultByMode :
    (¬roundsBelow (pow2 16384 - pow2 16319) .nearestEven 16384 ∧ pow2 16384 - pow2 16319 ≠ 0) ∧
    (¬roundsBelow (pow2 16384) .towardZero 16384 ∧ pow2 16384 ≠ 0) ∧
    ¬roundsBelow (pow2 16384 - pow2 16320 + 1) .up 16384 ∧ ¬roundsBelow (-pow2 16384) .up 16384 ∧
    ¬roundsBelow (pow2 16384) .down 16384 ∧ ¬roundsBelow (-(pow2 16384 - pow2 16320 + 1)) .down 16384 := by
  simp only [roundsBelow, ← pow2_eq_zpow, ← absQ_eq_abs]
  decide +kernel

/-- The greatest magnitude that does not overflow toward zero. -/
theorem witness_OverflowResultByMode_below : roundsBelow (pow2 16384 - 1) .towardZero 16384 := by
  simp only [roundsBelow, ← pow2_eq_zpow, ← absQ_eq_abs]
  decide +kernel

theorem witness_RoundXMirrors : pow2 (-16446) ≠ 0 := by decide +kernel

theorem witness_NegateFlipsSign : (host [.issue 0x01#8, .movAR, .issue 0x01#8]).port =
    .issue 0x01#8 :: .movAR :: .issue 0x01#8 :: [] := rfl

theorem witness_UnsupportedOperand :
    (isUnsupported (regs unn one).a = true ∧ isUnsupported (regs pinf one).a = true) ∧
    (isUnsupported (regs one pnan).b = true ∧ Instr.fpatan ∈ [Instr.fyl2x, .fyl2xp1, .fpatan] ∧
      Instr.remLegacy ∈ [Instr.remIeee, .remLegacy] ∧ Instr.ftan ∈ [Instr.fsin, .fcos, .ftan]) := by decide

theorem witness_NanOperandInPlace :
    (isNan (regs qnan one).a = true ∧ isUnsupported (regs qnan one).a = false ∧
      isUnsupported (regs qnan one).b = false) ∧
    (isNan (regs plusInf snan).b = true ∧ isUnsupported (regs plusInf snan).a = false ∧
      isUnsupported (regs plusInf snan).b = false) := by decide

theorem witness_NanOperandByValue :
    (isNan (regs qnan snan).a = true ∧ isUnsupported (regs qnan snan).b = false) ∧
    (isUnsupported (regs d1 snan).a = false ∧ isNan (regs d1 snan).a = false ∧ isNan (regs d1 snan).b = true ∧
      isZero (regs d1 snan).a = false ∧ signBit (regs d1 snan).a = false) := by decide

theorem witness_RemInvalidOperands :
    (isZero (regs five minusZero).b = true ∧ isNan (regs five minusZero).a = false ∧
      isUnsupported (regs five minusZero).a = false ∧ isUnsupported (regs five minusZero).b = false ∧
      isNan (regs five minusZero).b = false) ∧
    (isInf (regs minusInf plusInf).a = true ∧ isNan (regs minusInf plusInf).b = false ∧
      isUnsupported (regs minusInf plusInf).b = false) := by decide

theorem witness_RemExactSpecialCases :
    (isFinite (regs minusZero plusInf).a = true ∧ isInf (regs minusZero plusInf).b = true) ∧
    (isZero (regs minusZero d1).a = true ∧ isFinite (regs minusZero d1).b = true ∧
      isZero (regs minusZero d1).b = false) := by decide

/-- `D = 64 = T`, and a denormal divisor. -/
theorem witness_RemFullReductions : ∀ s ∈ [regs pow65 three, regs dmax d1, regs pden five],
    isFinite s.a = true ∧ isFinite s.b = true ∧ isZero s.a = false ∧ isZero s.b = false ∧
      ilog2 (val s.a) - ilog2 (val s.b) ≤ s.par.threshold := by decide +kernel

/-- `D = 65 = T + 1`, and the greatest `D` there is; both partial-step statements and their retry loop. -/
theorem witness_RemPartialSteps : ∀ s ∈ [regs 0x40418000000000000001#80 three, regs pow65 one, regs fmax d1],
    s.par.legal = true ∧ isFinite s.a = true ∧ isFinite s.b = true ∧ isZero s.a = false ∧ isZero s.b = false ∧
      (s.par.threshold : ℤ) < ilog2 (val s.a) - ilog2 (val s.b) := by decide +kernel

theorem witness_RemPartialStepSurvives : ∃ t, exec .remIeee (regs pow65 one) = .next t ∧ isZero t.a = true :=
  ⟨(regs pow65 one).commitRem (remOut Params.default rneQ pow65 one), rfl, by decide +kernel⟩

theorem witness_RemPartialStepSurvives_nonzero : ∃ t, exec .remLegacy (regs fmax d1) = .next t ∧ isZero t.a = false :=
  ⟨(regs fmax d1).commitRem (remOut Params.default truncQ fmax d1), rfl, by decide +kernel⟩

theorem witness_RemRetryLoopEnds : ∃ s : State, s.port = .reduce 0x03#8 :: [] ∧ 0x03#8 = encode .remLegacy ∧
    0x02#8 = encode .remIeee ∧ s.par.legal = true :=
  ⟨{ regs fmax d1 with port := [.reduce 0x03#8] }, rfl, rfl, rfl, by decide +kernel⟩

theorem witness_F2xm1ExactCases : isZero (regs minusZero 0).a = true ∧
    (isFinite (regs one 0).a = true ∧ val (regs one 0).a = 1) ∧
    (isFinite (regs minusOne 0).a = true ∧ val (regs minusOne 0).a = -1) := by decide +kernel

theorem witness_F2xm1GeneralPath :
    (isFinite (regs d1 0).a = true ∧ isZero (regs d1 0).a = false ∧ val (regs d1 0).a ≠ 1 ∧ val (regs d1 0).a ≠ -1) ∧
    (isFinite (regs minusTwo 0).a = true ∧ isZero (regs minusTwo 0).a = false ∧ val (regs minusTwo 0).a ≠ 1 ∧
      val (regs minusTwo 0).a ≠ -1) := by decide +kernel

theorem witness_F2xm1OfInfinity : isInf (regs plusInf 0).a = true ∧ isInf (regs minusInf 0).a = true := by decide

theorem witness_Fyl2xNonPositive :
    (isUnsupported (regs minusZero qnan).a = false ∧ isUnsupported (regs minusZero qnan).b = false ∧
      isNan (regs minusZero qnan).a = false ∧ isZero (regs minusZero qnan).a = true ∧
      isNan (regs minusZero qnan).b = true) ∧
    (isUnsupported (regs plusZero minusInf).b = false ∧ isNan (regs plusZero minusInf).b = false ∧
      isZero (regs plusZero minusInf).a = true) ∧
    (isUnsupported (regs minusInf two).a = false ∧ isNan (regs minusInf two).a = false ∧
      signBit (regs minusInf two).a = true ∧ isZero (regs minusInf two).a = false) := by decide

theorem witness_Fyl2xOfOne : isFinite (regs one d1).a = true ∧ val (regs one d1).a = 1 ∧
    isFinite (regs one d1).b = true ∧ isInf (regs one minusInf).b = true := by decide +kernel

theorem witness_Fyl2xInfinityAndZero :
    (isInf plusInf = true ∧ signBit plusInf = false ∧ isZero minusZero = true) ∧
    (isZero d1 = false ∧ isFinite d1 = true ∧ isZero minusInf = false ∧ isInf minusInf = true) ∧
    (isFinite three = true ∧ 1 < val three) ∧ (isFinite d1 = true ∧ 0 < val d1 ∧ val d1 < 1) := by decide +kernel

/-- The ends of the range of exponents, and `k = -1`. -/
theorem witness_Fyl2xPowerOfTwo :
    (isFinite d1 = true ∧ val d1 = (2 : ℚ) ^ (-16445 : ℤ)) ∧
    (isFinite 0x7FFE8000000000000000#80 = true ∧ val 0x7FFE8000000000000000#80 = (2 : ℚ) ^ (16383 : ℤ)) ∧
    val half = (2 : ℚ) ^ (-1 : ℤ) ∧ (isFinite d1 = true ∧ isZero d1 = false) := by
  rw [← pow2_eq_zpow, ← pow2_eq_zpow, ← pow2_eq_zpow]
  decide +kernel

/-- Above one and below one. -/
theorem witness_Fyl2xGeneralPath :
    (isFinite three = true ∧ 0 < val three ∧ ∀ k : ℤ, val three ≠ (2 : ℚ) ^ k) ∧
    (isFinite threeQuarters = true ∧ 0 < val threeQuarters ∧ ∀ k : ℤ, val threeQuarters ≠ (2 : ℚ) ^ k) ∧
    (isFinite d1 = true ∧ isZero d1 = false) := by
  refine ⟨⟨by decide, by decide +kernel, fun k => ?_⟩, ⟨by decide, by decide +kernel, fun k => ?_⟩, by decide⟩
  · rw [← pow2_eq_zpow]; exact log2Exact_eq_none_iff.1 (by decide +kernel) k
  · rw [← pow2_eq_zpow]; exact log2Exact_eq_none_iff.1 (by decide +kernel) k

theorem witness_Fyl2xp1OfZero : isZero (regs minusZero minusTwo).a = true ∧ isFinite (regs minusZero minusTwo).b = true ∧
    isInf (regs plusZero plusInf).b = true := by decide

/-- The least denormal lies inside the domain of the default kernels, and `y` is infinite, zero, finite. -/
theorem witness_Fyl2xp1InsideDomain :
    (isFinite (regs d1 one).a = true ∧ isZero (regs d1 one).a = false ∧
      |val (regs d1 one).a| ≤ ({} : Kernels).log2p1Bound) ∧
    isInf (regs d1 minusInf).b = true ∧ isZero (regs d1 minusZero).b = true ∧
    (isFinite (regs d1 one).b = true ∧ isZero (regs d1 one).b = false) := by
  refine ⟨⟨by decide, by decide, ?_⟩, by decide, by decide, by decide⟩
  rw [abs_le]
  decide +kernel

theorem witness_Fyl2xp1OutsideDomain : isInf (regs plusInf plusZero).a = true ∧
    (isFinite (regs half minusInf).a = true ∧ Config.kernels.log2p1Bound < |val (regs half minusInf).a|) ∧
    (isUnsupported (regs half minusInf).b = false ∧ isNan (regs half minusInf).b = false) := by
  refine ⟨by decide, ⟨by decide, Config.kernels.log2p1Bound_lt_half.trans_le ?_⟩, by decide⟩
  exact le_abs.2 (.inl (by decide +kernel))

theorem witness_FpatanTwoZeros : isZero (regs plusZero minusZero).a = true ∧ isZero (regs plusZero minusZero).b = true := by
  decide

theorem witness_FpatanAxes :
    (isFinite d1 = true ∧ isZero d1 = false ∧ isZero minusZero = true) ∧
    (isFinite five = true ∧ isZero five = false ∧ signBit five = false) ∧
    (isFinite minusFive = true ∧ isZero minusFive = false ∧ signBit minusFive = true) ∧
    (isInf plusInf = true ∧ signBit plusInf = false) ∧ (isInf minusInf = true ∧ signBit minusInf = true) := by decide

/-- Equal magnitudes, and one above, for both signs of `x`. -/
theorem witness_FpatanGeneralPath : (∀ s ∈ [regs one one, regs two one, regs two minusOne, regs one minusOne],
      s.par.legal = true ∧ isFinite s.a = true ∧ isZero s.a = false ∧ isFinite s.b = true ∧ isZero s.b = false) ∧
    val one = 1 ∧ val two = 2 ∧ val minusOne = -1 ∧ signBit one = false ∧ signBit minusOne = true := by decide +kernel

theorem witness_TrigOfInfinity : isInf (regs plusInf 0).a = true ∧ isInf (regs minusInf 0).a = true := by decide

theorem witness_TrigOfZero : isZero (regs plusZero 0).a = true ∧ isZero (regs minusZero 0).a = true := by decide

theorem witness_TrigPartialStep : ∀ s ∈ [regs pow65 0, regs (pow65 ||| minusZero) 0, regs fmax 0],
    isFinite s.a = true ∧ isZero s.a = false ∧ (s.par.threshold : ℤ) < ilog2 (val s.a) := by decide +kernel

/-- The greatest exponent reduced in one step, and the least denormal; for the results of all four commands. -/
theorem witness_TrigResults : ∀ s ∈ [regs pow64 0, regs (pow64 ||| minusZero) 0, regs d1 0, regs one 0],
    s.par.legal = true ∧ isFinite s.a = true ∧ isZero s.a = false ∧ ilog2 (val s.a) ≤ s.par.threshold := by
  decide +kernel

theorem witness_TangentOfOddMultiple : ∃ s : State, s.par.legal = true ∧ isFinite s.a = true ∧ isZero s.a = false ∧
    ilog2 (val s.a) ≤ s.par.threshold ∧ (1 : ℤ) % 2 = 1 ∧ |val s.a| = (1 : ℤ) * (s.par.constPi / 2) := by
  refine ⟨{ regs 0x3FFFC000000000000000#80 0 with par := piIsThree }, by decide +kernel, by decide, by decide,
    by decide +kernel, by decide, ?_⟩
  rw [abs_of_pos (by decide +kernel)]
  decide +kernel

theorem witness_SineCosineBounded : ∃ t, exec .fsincos (regs minusZero 0) = .next t ∧ t.cc = .complete ∧
    (regs minusZero 0).par.legal = true ∧ isFinite (regs minusZero 0).a = true :=
  ⟨fsincosWith Config.kernels.toKernelFns (regs minusZero 0), rfl, by decide +kernel, by decide +kernel, by decide⟩

theorem witness_TrigRetryLoopEnds : ∃ s : State, s.port = .reduce (encode .fsincos) :: [] ∧ s.par.legal = true ∧
    s.par.constPi ≤ 7 / 2 ∧ Instr.fsincos ∈ [Instr.fsin, .fcos, .ftan, .fsincos] :=
  ⟨{ regs fmax 0 with port := [.reduce (encode .fsincos)] }, rfl, by decide +kernel, by decide +kernel, by decide⟩

theorem witness_AccessTableWrites : ∃ t, exec .fsincos (regs pow65 0) = .next t ∧ t.cc = .partialReductionNeeded :=
  ⟨fsincosWith Config.kernels.toKernelFns (regs pow65 0), rfl, by decide +kernel⟩

theorem witness_AccessTableWrites_frame : Reg.q ≠ Reg.flags ∧ Reg.q ∉ Instr.writeSet .fsincos ∧
    Instr.addsFlags .abs = false ∧ allWritten.hasWritten .q = true ∧ Reg.a ∈ Instr.writeSet .fsin ∧ Reg.a ≠ Reg.b := by
  decide

/-- Two states that differ in `B`, in `R`, in `CC`, in `Q` and in the flags. -/
theorem witness_DependsOnlyOnReads : ∃ s s' t t' : State, s ≠ s' ∧ (∀ reg ∈ Instr.readSet .fsin, sameReg s s' reg) ∧
    s.par = s'.par ∧ s.stream = s'.stream ∧ s.draws = s'.draws ∧ exec .fsin s = .next t ∧ exec .fsin s' = .next t' ∧
    Reg.a ∈ Instr.writeSet .fsin ∧ ¬(Reg.a = Reg.b ∧ t.cc = .partialReductionNeeded) :=
  ⟨regs one 0, { regs one five with r := two, q := 3, cc := .invalid, ctx := ⟨0, 1, 0x3F#6⟩ },
    fsinWith Config.kernels.toKernelFns (regs one 0), _, by decide, by simp [Instr.readSet, sameReg, regs, State.reset],
    rfl, rfl, rfl, rfl, rfl, by decide, by decide⟩

theorem witness_InvalidMeansQuietNan : ∃ s t : State, Instr.writesCC .fsincos = true ∧ s.par.legal = true ∧
    exec .fsincos s = .next t ∧ t.cc = .invalid ∧ hasFlag s.ctx.flags .ie = false ∧ hasFlag t.ctx.flags .ie = true :=
  ⟨regs plusInf 0, fsincosWith Config.kernels.toKernelFns (regs plusInf 0), by decide, by decide +kernel, rfl,
    by decide +kernel, by decide, by decide +kernel⟩

/-- IE with ZE: the logarithm of zero. -/
theorem witness_FlagCombinations_ze : ∃ s t : State, s.par.legal = true ∧ s.ctx.flags = noFlags ∧
    exec .fyl2x s = .next t ∧ t.draws = s.draws ∧ hasFlag t.ctx.flags .ie = true ∧ hasFlag t.ctx.flags .ze = true :=
  ⟨regs minusZero one, fyl2xWith Config.kernels.toKernelFns (regs minusZero one), by decide +kernel, by decide, rfl,
    by decide +kernel, by decide +kernel, by decide +kernel⟩

/-- OE: the logarithm of `2^16383` times `2^16383`. -/
theorem witness_FlagCombinations_oe : ∃ s t : State, s.par.legal = true ∧ s.ctx.flags = noFlags ∧
    exec .fyl2x s = .next t ∧ t.draws = s.draws ∧ hasFlag t.ctx.flags .oe = true :=
  let s := regs 0x7FFE8000000000000000#80 0x7FFE8000000000000000#80
  ⟨s, fyl2xWith Config.kernels.toKernelFns s, by decide +kernel, by decide, rfl, by decide +kernel, by decide +kernel⟩

/-- UE: with `T = 3`, `S = 1` and a stored pi just below 3, the partial step of 24 leaves half the least denormal. -/
theorem witness_FlagCombinations_ue : ∃ s t : State, s.par.legal = true ∧ s.ctx.flags = noFlags ∧
    exec .fsin s = .next t ∧ t.draws = s.draws ∧ hasFlag t.ctx.flags .ue = true :=
  let s : State := { regs 0x4003C000000000000000#80 0 with
    par := { Params.default with threshold := 3, partialStep := 1, constPi := 3 - pow2 (-16449) } }
  ⟨s, fsinWith Config.kernels.toKernelFns s, by decide +kernel, by decide, rfl, by decide +kernel, by decide +kernel⟩

theorem witness_NoOverflowThere_partial : ∃ t : State, (regs pow65 0).par.legal = true ∧ exec .ftan (regs pow65 0) = .next t ∧
    t.cc = .partialReductionNeeded ∧ Instr.ftan ∈ [Instr.fsin, .fcos, .ftan, .fsincos] :=
  ⟨ftanWith Config.kernels.toKernelFns (regs pow65 0), by decide +kernel, rfl, by decide +kernel, by decide⟩

theorem witness_NoOverflowThere_rem : ∃ t : State, (regs fmax d1).par.legal = true ∧
    exec .remIeee (regs fmax d1) = .next t ∧ (Instr.remIeee = .remIeee ∨ Instr.remIeee = .remLegacy) :=
  ⟨(regs fmax d1).commitRem (remOut Params.default rneQ fmax d1), by decide +kernel, rfl, .inl rfl⟩

theorem witness_NoOverflowThere_fpatan : ∃ t : State, (regs fmax d1).par.legal = true ∧
    exec .fpatan (regs fmax d1) = .next t :=
  ⟨fpatanWith Config.kernels.toKernelFns (regs fmax d1), by decide +kernel, rfl⟩

theorem witness_StepRunsIssuedCommand : (host [.issue 0x0B#8]).port = .issue 0x0B#8 :: [] ∧
    decode 0x0B#8 = .instr .fsincos ∧ Instr.wf .fsincos = true := by decide

theorem witness_HostOperations : (host []).port = [] ∧
    ∀ op ∈ [HostOp.wrA fmax, .wrB fmax, .wrCtx 3 3 0x3F#6, .clrF, .rd .r, .movAR, .movBR],
      (host [op]).port = op :: [] := by decide

theorem witness_RetryLoopPass : (host [.reduce 0x02#8]).port = .reduce 0x02#8 :: [] ∧
    decode 0x02#8 = .instr .remIeee ∧ Instr.writesCC .remIeee = true := by decide

/-- A command that is ready, one that is not, a move and reads of unwritten registers, a write. -/
theorem witness_UnwrittenReadRefused : allWritten.readyOp (.issue 0x08#8) = true ∧
    State.reset.readyOp (.issue 0x08#8) = false ∧ State.reset.readyOp .movAR = false ∧
    State.reset.readyOp (.rd .ctx) = false ∧ State.reset.readyOp (.rd .q) = false ∧
    allWritten.readyOp (.rd .ctx) = true ∧ State.reset.readyOp (.wrCtx 0 0 0) = true ∧
    decode 0x08#8 = .instr .fsin ∧ (HostReg.q, Reg.q) ∈ [(HostReg.a, Reg.a), (.b, .b), (.r, .r), (.cc, .cc), (.q, .q)] ∧
    (host [.rd .ctx]).port = .rd .ctx :: [] := by decide

/-- `RDCTX` needs all three fields written. -/
theorem test_ready_context : State.readyOp { allWritten with written := { allWritten.written with pc := false } }
    (.rd .ctx) = false := by decide

theorem witness_HostDutiesMakeReady :
    (host [.wrCtx 0 3 0, .wrA one, .wrB two]).port = [.wrCtx 0 3 0, .wrA one, .wrB two] ++ [] ∧
    (host [.wrB two, .wrA one, .wrCtx 0 3 0]).port = [.wrB two, .wrA one, .wrCtx 0 3 0] ++ [] := by decide

/-- Two instances with a step each, in a system of three. -/
theorem witness_InstancesIsolated : (threeUnits (host [.clrF])).wf = true ∧
    (∃ sys' other, stepUnit 1 (threeUnits (host [.clrF])) = .next sys' ∧
      stepUnit 0 (threeUnits (host [.clrF])) = .next other) ∧
    1 < (threeUnits (host [.clrF])).units.length ∧ 0 ≠ 1 :=
  ⟨by decide +kernel, ⟨_, _, rfl, rfl⟩, by decide, by decide⟩

theorem witness_ResetUnwritten : Params.legal { Params.default with nTxu := 3 } = true := by decide +kernel

theorem witness_StepKeepsInvariant : State.Inv { allWritten with port := [.clrF] } ∧
    step { allWritten with port := [.clrF] } = .next allWritten :=
  ⟨⟨by decide +kernel, by decide, by decide, by decide, by decide, by decide, by decide, by decide, by decide,
    by decide⟩, rfl⟩

end Sys2Proof.Tests
end

section
/-! SUPPORT. What one step can do: the operation at the head of the host's list, performed on the state without it; and
what issuing a byte and one pass of the retry loop answer, in terms of the command's effect. -/

namespace Sys2Proof.Machine

/-- With an operation pending, a step is that operation on the state with it taken off the list (R66, R90). -/
theorem step_of_port {s : State} {op : HostOp} {rest : List HostOp} (hp : s.port = op :: rest) :
    step s = hostOp op { s with port := rest } := by
  simp only [step, stepPort, hp]

/-- A byte that decodes to a command is issued as that command (R13, R91). -/
theorem issueByte_of_decode {byte : Byte} {i : Instr} (hd : decode byte = .instr i) (s : State) :
    issueByte byte s = exec i s := by
  simp only [issueByte, hd]

/-- Everything a step that answers can do: nothing where the host asks for nothing, else the oldest operation. -/
theorem step_next_iff {s t : State} : step s = .next t ↔
    (s.port = [] ∧ s = t) ∨ ∃ op rest, s.port = op :: rest ∧ hostOp op { s with port := rest } = .next t := by
  rcases hp : s.port with _ | ⟨op, rest⟩
  · simp [step, stepPort, hp]
  · simp [step_of_port hp]

/-- Issuing a byte answers exactly where the byte is a command, with the command's effect. -/
theorem issueByte_next_iff {byte : Byte} {s t : State} :
    issueByte byte s = .next t ↔ ∃ i, decode byte = .instr i ∧ effect i s = t := by
  rcases hd : decode byte with i | why
  · simp [issueByte_of_decode hd, exec_eq_effect]
  · simp [issueByte, hd]

/-- One pass of `REDUCE` answers exactly where the byte is a command with a completion code: the command's effect, with
the loop put back on the list where `CC` asks for it (R90, R356). -/
theorem reduceByte_next_iff {byte : Byte} {s t : State} : reduceByte byte s = .next t ↔
    ∃ i, decode byte = .instr i ∧ i.writesCC = true ∧ (effect i s).retry byte = t := by
  rcases hd : decode byte with i | why
  · by_cases hw : i.writesCC = true <;> simp [reduceByte, hd, hw, exec_eq_effect]
  · simp [reduceByte, hd]

end Sys2Proof.Machine
end

section
/-! SUPPORT. The invariant: each named operation over the registers keeps it, so the shared ends of the three command
families do, so every command and every host operation does. -/

namespace Sys2Proof.Machine

/-- The defaults of R8 meet R8's constraints. -/
theorem Params.default_legal : Params.default.legal = true := by decide +kernel

namespace State.Inv
variable {s : State}

theorem reset : State.reset.Inv where
  legal := Params.default_legal
  unwrittenA _ := rfl
  unwrittenB _ := rfl
  unwrittenR _ := rfl
  unwrittenRc _ := rfl
  unwrittenPc _ := rfl
  unwrittenCc _ := rfl
  unwrittenQ _ := rfl
  qWithCc := nofun
  ccWithA := nofun

theorem setA (h : s.Inv) (v : Image) : (s.setA v).Inv :=
  { h with unwrittenA := nofun, ccWithA := fun _ => rfl }

theorem setB (h : s.Inv) (v : Image) : (s.setB v).Inv :=
  { h with unwrittenB := nofun }

theorem setR (h : s.Inv) (v : Image) : (s.setR v).Inv :=
  { h with unwrittenR := nofun }

/-- `CC` may be written where `A` has been. -/
theorem setCC (h : s.Inv) (ha : s.written.a = true) (v : CompletionCode) : (s.setCC v).Inv :=
  { h with unwrittenCc := nofun, qWithCc := fun _ => rfl, ccWithA := fun _ => ha }

/-- `Q` may be written where `CC` has been. -/
theorem setQ (h : s.Inv) (hcc : s.written.cc = true) (v : QuotBits) : (s.setQ v).Inv :=
  { h with unwrittenQ := nofun, qWithCc := fun _ => hcc }

theorem raise (h : s.Inv) (fs : FlagSet) : (s.raise fs).Inv := { h with }

theorem writeCtx (h : s.Inv) (rc pc : BitVec 2) (fl : FlagSet) : (s.writeCtx rc pc fl).Inv :=
  { h with unwrittenRc := nofun, unwrittenPc := nofun }

theorem writeFlags (h : s.Inv) (fl : FlagSet) : (s.writeFlags fl).Inv := { h with }

/-- The invariant does not speak of the host's pending operations. -/
theorem withPort (h : s.Inv) (ops : List HostOp) : State.Inv { s with port := ops } := { h with }

/-- The invariant does not speak of the count of free values. -/
theorem withDraws (h : s.Inv) (n : Nat) : State.Inv { s with draws := n } := { h with }

theorem commitR (h : s.Inv) (o : ByValue) : (s.commitR o).Inv := by
  cases o with
  | out z fs => exact (h.setR z).raise fs
  | anyValue => exact ((h.setR _).raise _).withDraws _

/-- A remainder command writes `A`, then `CC`, then `Q`, the order in which the invariant allows them (R181). -/
theorem commitRem (h : s.Inv) (o : RemOut) : (s.commitRem o).Inv :=
  (((h.setA o.a).setCC rfl o.cc).setQ rfl o.q).raise o.fs

/-- A trig command writes `A` before `CC`, whether or not it writes `B` between them (R280). -/
theorem commitTrig (h : s.Inv) (o : TrigOut) : (s.commitTrig o).Inv := by
  obtain ⟨z, b, cc, fs⟩ := o
  cases b with
  | none => exact ((h.setA z).setCC rfl cc).raise fs
  | some v => exact (((h.setA z).setB v).setCC rfl cc).raise fs

/-- Every command keeps the invariant, by the shared end of its family (R40). -/
theorem effect (h : s.Inv) (i : Instr) : (effect i s).Inv := by
  cases i
  case abs | negate => exact h.commitR (.out _ noFlags)
  case f2xm1 | fyl2x | fyl2xp1 | fpatan => exact h.commitR _
  case remIeee | remLegacy => exact h.commitRem _
  case fsin | fcos | ftan | fsincos => exact h.commitTrig _

/-- Putting the retry loop back on the list keeps the invariant (R356). -/
theorem retry (h : s.Inv) (byte : Byte) : (s.retry byte).Inv := by
  unfold State.retry
  split
  · exact h.withPort _
  · exact h

/-- Every host operation that answers keeps the invariant (R90). -/
theorem hostOp {t : State} (h : s.Inv) {op : HostOp} (ht : hostOp op s = .next t) : t.Inv := by
  cases op with
  | issue byte =>
    obtain ⟨i, -, rfl⟩ := issueByte_next_iff.mp ht
    exact h.effect i
  | reduce byte =>
    obtain ⟨i, -, -, rfl⟩ := reduceByte_next_iff.mp ht
    exact (h.effect i).retry byte
  | wrA v => cases ht; exact h.setA v
  | wrB v => cases ht; exact h.setB v
  | wrCtx rc pc fl => cases ht; exact h.writeCtx rc pc fl
  | wrFlags fl => cases ht; exact h.writeFlags fl
  | rd reg => cases ht; exact h
  | movAR => cases ht; exact h.setA s.r
  | movBR => cases ht; exact h.setB s.r

/-- Every step that answers keeps the invariant. -/
theorem step {t : State} (h : s.Inv) (ht : step s = .next t) : t.Inv := by
  obtain ⟨-, rfl⟩ | ⟨op, rest, -, hop⟩ := step_next_iff.mp ht
  · exact h
  · exact (h.withPort rest).hostOp hop

end State.Inv

end Sys2Proof.Machine
end

section
/-! SUPPORT. Reset: no command is ready before the host has written `A`, and a system starts as `N_TXU` copies of one
reset state. -/

namespace Sys2Proof.Machine

/-- Every command reads `A` (R40). -/
theorem a_mem_readSet (i : Instr) : Reg.a ∈ Instr.readSet i := by
  cases i <;> decide

/-- No command is ready while a register it reads is unwritten (R42). -/
theorem State.ready_eq_false {s : State} {i : Instr} {reg : Reg} (hr : reg ∈ Instr.readSet i)
    (hw : s.hasWritten reg = false) : s.ready i = false := by
  have hall : (Instr.readSet i).all s.hasWritten = false := List.all_eq_false.mpr ⟨reg, hr, by simp [hw]⟩
  simp [State.ready, hall]

theorem State.reset_hasWritten (reg : Reg) : State.reset.hasWritten reg = false := by
  cases reg <;> rfl

theorem System.reset_units_length (p : Params) : (System.reset p).units.length = p.nTxu :=
  List.length_replicate

theorem System.reset_wf {p : Params} (h : p.legal = true) : (System.reset p).wf = true := by
  rw [System.wf, System.reset_units_length, Bool.and_eq_true]
  exact ⟨h, beq_self_eq_true p.nTxu⟩

/-- The default stored pi, as the integer of its two limbs scaled (R151). -/
theorem Params.default_constPi :
    Params.default.constPi = 0xC90FDAA22168C234C4C6628B80DC1CD1 * (2 : ℚ) ^ (-126 : ℤ) := by
  norm_num [Params.default, Params.piOfLimbs, Rat.mkRat_eq_div]

end Sys2Proof.Machine
end

section
/-! The statements of the machine's scope: a step runs the issued command, reset, and the invariant
(spec/00_scope.md). -/

namespace Sys2Proof.Proofs

open Sys2Proof.Machine

/-- Settles O52: the step performs the head of the list, which issues the command its byte decodes to. -/
theorem stepRunsIssuedCommand : Obligations.StepRunsIssuedCommand := by
  intro s byte i rest hp hd _
  rw [step_of_port hp]
  exact issueByte_of_decode hd _

/-- Settles O58: no register is written, every command reads `A`, and the system is `N_TXU` copies of the reset state. -/
theorem resetUnwritten : Obligations.ResetUnwritten := by
  refine ⟨State.reset_hasWritten, fun i => State.ready_eq_false (a_mem_readSet i) (State.reset_hasWritten .a),
    rfl, rfl, Params.default_constPi, rfl, rfl, rfl, rfl, fun p hp => ⟨System.reset_wf hp, ?_, ?_⟩⟩
  · rw [System.reset_units_length]
    exact count_legal hp
  · exact fun u hu => List.eq_of_mem_replicate hu

/-- Settles O59: the defaults are legal, and every register is unwritten and holds its reset value. -/
theorem resetMeetsInvariant : Obligations.ResetMeetsInvariant :=
  State.Inv.reset

/-- Settles O60: each host operation, and with it each command, keeps every clause. -/
theorem stepKeepsInvariant : Obligations.StepKeepsInvariant :=
  fun _ _ hs ht => hs.step ht

end Sys2Proof.Proofs
end

section
/-! SUPPORT. The access table (spec/10_state.md R40): the shared end of each command family writes its registers and no
other, and what it writes is determined by the command's result and, for an undefined result, by the draw. -/

namespace Sys2Proof.Machine

/-- The write columns of R40 as a relation: the step from `s` to `t` leaves every register outside `ws` but the flags, makes
nothing written unwritten, and marks the registers of `ws` written. `B` is not always marked: a partial FSINCOS leaves it
(R287). -/
structure WritesOnly (ws : List Reg) (s t : State) : Prop where
  unchanged : ∀ reg, reg ≠ .flags → reg ∉ ws → sameReg s t reg
  keepsWritten : ∀ reg, s.hasWritten reg = true → t.hasWritten reg = true
  marks : ∀ reg ∈ ws, reg ≠ .b → t.hasWritten reg = true

/-- A by-value command writes `R` alone (R220). -/
theorem State.commitR_writesOnly (s : State) (o : ByValue) : WritesOnly [.r] s (s.commitR o) where
  unchanged reg hf hw := by cases reg <;> simp_all [sameReg]
  keepsWritten reg h := by cases reg <;> simp_all [State.hasWritten]
  marks reg hw _ := by cases reg <;> simp_all [State.hasWritten]

/-- A remainder command writes `A`, `CC` and `Q` (R181). -/
theorem State.commitRem_writesOnly (s : State) (o : RemOut) : WritesOnly [.a, .cc, .q] s (s.commitRem o) where
  unchanged reg hf hw := by cases reg <;> simp_all [sameReg]
  keepsWritten reg h := by cases reg <;> simp_all [State.hasWritten]
  marks reg hw _ := by cases reg <;> simp_all [State.hasWritten]

/-- A trig command writes at most `A`, `B` and `CC` (R280). -/
theorem State.commitTrig_writesOnly (s : State) (o : TrigOut) : WritesOnly [.a, .b, .cc] s (s.commitTrig o) where
  unchanged reg hf hw := by cases reg <;> simp_all [sameReg]
  keepsWritten reg h := by cases reg <;> simp_all [State.hasWritten]
  marks reg hw _ := by cases reg <;> simp_all [State.hasWritten]

/-- A trig command whose result has no image for `B` writes `A` and `CC` alone (R280). -/
theorem State.commitTrig_writesOnly_of_b_none (s : State) {o : TrigOut} (hb : o.b = none) :
    WritesOnly [.a, .cc] s (s.commitTrig o) where
  unchanged reg hf hw := by
    by_cases hreg : reg = .b
    · subst hreg
      simp [sameReg, hb]
    · exact (s.commitTrig_writesOnly o).unchanged reg hf (by simp_all)
  keepsWritten := (s.commitTrig_writesOnly o).keepsWritten
  marks reg hw := (s.commitTrig_writesOnly o).marks reg ((by decide : [Reg.a, .cc] ⊆ [.a, .b, .cc]) hw)

/-- Every command writes the registers of its row of R40 and no other, by the shared end of its family. -/
theorem effect_writesOnly (i : Instr) (s : State) : WritesOnly (Instr.writeSet i) s (effect i s) := by
  cases i
  case abs | negate => exact s.commitR_writesOnly (.out _ noFlags)
  case f2xm1 | fyl2x | fyl2xp1 | fpatan => exact s.commitR_writesOnly _
  case remIeee | remLegacy => exact s.commitRem_writesOnly _
  case fsin => exact s.commitTrig_writesOnly_of_b_none (fsinOut_b ..)
  case fcos => exact s.commitTrig_writesOnly_of_b_none (fcosOut_b ..)
  case ftan => exact s.commitTrig_writesOnly_of_b_none (ftanOut_b ..)
  case fsincos => exact s.commitTrig_writesOnly _

/-- ABS and NEGATE add no flag (R114). -/
theorem effect_flags_of_not_addsFlags {i : Instr} (h : Instr.addsFlags i = false) (s : State) :
    (effect i s).ctx.flags = s.ctx.flags := by
  cases i <;> simp_all [Instr.addsFlags, effect, ByValue.flags, noFlags]

/-- FSINCOS has no image for `B` exactly where it asks for a retry (R287, R293). -/
theorem fsincosOut_b_eq_none_iff {k : KernelFns} {p : Params} {rc : RoundingMode} {x : Image} :
    (fsincosOut k p rc x).b = none ↔ (fsincosOut k p rc x).cc = .partialReductionNeeded := by
  unfold fsincosOut
  split <;> simp

/-- A partial FSINCOS leaves `B` (R287). -/
theorem effect_fsincos_partial_b {s : State} (h : (effect .fsincos s).cc = .partialReductionNeeded) :
    (effect .fsincos s).b = s.b := by
  rw [effect, State.commitTrig_cc, ← fsincosOut_b_eq_none_iff] at h
  rw [effect, State.commitTrig_b, h, Option.getD_none]

/-- The read columns of R40 as a relation: `t` and `t'` hold the same values in the registers of `ws`, `B` excepted after a
partial step, and come from `s` and `s'` by adding the same flags and drawing up to the same count. -/
structure SameWrites (ws : List Reg) (s s' t t' : State) : Prop where
  values : ∀ reg ∈ ws, ¬(reg = Reg.b ∧ t.cc = .partialReductionNeeded) → sameReg t t' reg
  flags : ∃ added : FlagSet, t.ctx.flags = s.ctx.flags ||| added ∧ t'.ctx.flags = s'.ctx.flags ||| added
  draws : t.draws = t'.draws

section sameWrites
variable {s s' : State} (hd : s.draws = s'.draws)
include hd

/-- What a by-value command writes is its outcome, or the next draw of the stream (R220, R225, R236). -/
theorem State.commitR_sameWrites (hs : s.stream = s'.stream) (o : ByValue) :
    SameWrites [.r] s s' (s.commitR o) (s'.commitR o) where
  values reg hw _ := by
    obtain rfl := List.mem_singleton.mp hw
    simp [sameReg, hs, hd]
  flags := ⟨o.flags s.stream s.draws, by simp, by simp [hs, hd]⟩
  draws := by simp [hd]

/-- What a remainder command writes is its result (R181). -/
theorem State.commitRem_sameWrites (o : RemOut) :
    SameWrites [.a, .cc, .q] s s' (s.commitRem o) (s'.commitRem o) where
  values reg hw _ := by cases reg <;> simp_all [sameReg]
  flags := ⟨o.fs, by simp, by simp⟩
  draws := hd

/-- What a trig command writes to `A` and `CC` is its result (R280). -/
theorem State.commitTrig_sameWrites (o : TrigOut) :
    SameWrites [.a, .cc] s s' (s.commitTrig o) (s'.commitTrig o) where
  values reg hw _ := by cases reg <;> simp_all [sameReg]
  flags := ⟨o.fs, by simp, by simp⟩
  draws := by simp [hd]

/-- A trig command whose result lacks an image for `B` only in a partial step determines `B` too (R287, R293). -/
theorem State.commitTrig_sameWrites_b {o : TrigOut} (hb : o.b = none → o.cc = .partialReductionNeeded) :
    SameWrites [.a, .b, .cc] s s' (s.commitTrig o) (s'.commitTrig o) where
  values reg hw hp := by
    by_cases hreg : reg = .b
    · subst hreg
      have hne : o.b ≠ none := fun h => hp ⟨rfl, by rw [State.commitTrig_cc, hb h]⟩
      obtain ⟨v, hv⟩ := Option.ne_none_iff_exists'.mp hne
      simp [sameReg, hv]
    · exact (State.commitTrig_sameWrites hd o).values reg (by simp_all) hp
  flags := (State.commitTrig_sameWrites hd o).flags
  draws := (State.commitTrig_sameWrites hd o).draws

end sameWrites

/-- Every command is determined by the registers of its row of R40, the parameters and the draw: each is the shared end of
its family, applied to a function of what it reads. -/
theorem effect_sameWrites {i : Instr} {s s' : State} (hr : ∀ reg ∈ Instr.readSet i, sameReg s s' reg)
    (hp : s.par = s'.par) (hs : s.stream = s'.stream) (hd : s.draws = s'.draws) :
    SameWrites (Instr.writeSet i) s s' (effect i s) (effect i s') := by
  cases i <;> simp only [Instr.readSet, List.forall_mem_cons, sameReg] at hr
  case abs | negate | f2xm1 | fyl2x | fyl2xp1 | fpatan =>
    simp only [effect, State.rounding, hp, hr]
    exact State.commitR_sameWrites hd hs _
  case remIeee | remLegacy =>
    simp only [effect, hp, hr]
    exact State.commitRem_sameWrites hd _
  case fsin | fcos | ftan =>
    simp only [effect, State.rounding, hp, hr]
    exact State.commitTrig_sameWrites hd _
  case fsincos =>
    simp only [effect, State.rounding, hp, hr]
    exact State.commitTrig_sameWrites_b hd fsincosOut_b_eq_none_iff.mp

end Sys2Proof.Machine
end

section
/-! SUPPORT. The value of an image by its fields (spec/10_state.md R21, R23), and `quiet` bit by bit (R25). -/

namespace Sys2Proof.Machine

/-- The value of an image in the library's powers (R111). -/
theorem val_eq_zpow (x : Image) :
    val x = (if x.getLsbD 79 then -1 else 1) * ((sigField x).toNat * (2 : ℚ) ^ scaleOf x) := by
  rw [val, applySign_eq, pow2_eq_zpow, signBit]

/-- The last place of an image whose exponent field is not zero (R21). -/
theorem scaleOf_of_one_le {x : Image} (h : 1 ≤ (expField x).toNat) : scaleOf x = (expField x).toNat - 16383 - 63 := by
  rw [scaleOf, max_eq_left h]

/-- The last place of an image whose exponent field is zero (R23). -/
theorem scaleOf_of_exp_zero {x : Image} (h : (expField x).toNat = 0) : scaleOf x = -16445 := by
  rw [scaleOf, h]
  rfl

/-- `quiet` sets bit 62 and no other (R25). -/
theorem getLsbD_quiet (x : Image) (i : ℕ) : (quiet x).getLsbD i = (x.getLsbD i || i == 62) := by
  have hbit : (1#80 <<< 62) = BitVec.twoPow 80 62 := by decide
  rw [quiet, BitVec.getLsbD_or, hbit, BitVec.getLsbD_twoPow]
  by_cases hi : i = 62
  · simp [hi]
  · simp [hi, Ne.symm hi]

end Sys2Proof.Machine
end

section
/-! SUPPORT. A system of units (spec/20_memory.md R67; spec/60_exceptions.md R340): what one step of a unit leaves,
as one store into the list of units. -/

namespace Sys2Proof.Machine

/-- A step of a unit that does not exist changes nothing. -/
theorem stepUnit_of_length_le {k : ℕ} {sys : System} (h : sys.units.length ≤ k) : stepUnit k sys = .next sys :=
  stepUnit_next_iff.mpr (.inl ⟨h, rfl⟩)

/-- A step of a unit is its own step, stored in its place. -/
theorem stepUnit_of_view {k : ℕ} {sys : System} {s t : State} (hv : sys.view k = some s) (hs : step s = .next t) :
    stepUnit k sys = .next { sys with units := sys.units.set k t.own } :=
  stepUnit_next_iff.mpr (.inr ⟨s, t, hv, hs, rfl⟩)

/-- No step of a unit writes what the units share, or adds or removes a unit (R37, R340). -/
theorem stepUnit_shared {k : ℕ} {sys sys' : System} (h : stepUnit k sys = .next sys') :
    sys'.par = sys.par ∧ sys'.units.length = sys.units.length := by
  obtain ⟨-, rfl⟩ | ⟨s, t, -, -, rfl⟩ := stepUnit_next_iff.mp h
  · exact ⟨rfl, rfl⟩
  · exact ⟨rfl, List.length_set⟩

/-- A step of a unit leaves every other unit as it was (R67, R340). -/
theorem stepUnit_view_of_ne {k j : ℕ} {sys sys' : System} (h : stepUnit k sys = .next sys') (hj : j ≠ k) :
    sys'.view j = sys.view j := by
  obtain ⟨-, rfl⟩ | ⟨s, t, -, -, rfl⟩ := stepUnit_next_iff.mp h
  · rfl
  · rw [System.view_set, if_neg (hj ·.1)]

/-- A step of a unit that exists is a step of what is seen of it (R67). -/
theorem stepUnit_view_self {k : ℕ} {sys sys' : System} (h : stepUnit k sys = .next sys') (hk : k < sys.units.length) :
    ∃ s t, sys.view k = some s ∧ sys'.view k = some t ∧ step s = .next t ∧ s.par = sys.par := by
  obtain ⟨hle, -⟩ | ⟨s, t, hv, hs, rfl⟩ := stepUnit_next_iff.mp h
  · exact absurd hk (not_lt.mpr hle)
  · obtain ⟨-, hpar, hstream⟩ := System.view_eq_some.mp hv
    obtain ⟨hpar', hstream'⟩ := step_shared hs
    have ht : t.own.state sys.par k = t := by
      rw [← hpar, ← hstream, ← hpar', ← hstream', State.own_state]
    exact ⟨s, t, hv, by rw [System.view_set, if_pos ⟨rfl, hk⟩, ht], hs, hpar⟩

/-- A step of one unit is the same step after another unit has taken one, which stores in another place. -/
theorem stepUnit_comm {k j : ℕ} {sys sys' other : System} (hj : j ≠ k) (hk : stepUnit k sys = .next sys')
    (ho : stepUnit j sys = .next other) : ∃ both, stepUnit j sys' = .next both ∧ stepUnit k other = .next both := by
  have hview := stepUnit_view_of_ne hk hj
  have hview' := stepUnit_view_of_ne ho hj.symm
  obtain ⟨-, hlen⟩ := stepUnit_shared hk
  obtain ⟨-, hlen'⟩ := stepUnit_shared ho
  obtain ⟨hle, rfl⟩ | ⟨s, t, hv, hs, rfl⟩ := stepUnit_next_iff.mp hk
  · exact ⟨other, ho, stepUnit_of_length_le (hlen'.trans_le hle)⟩
  obtain ⟨hle, rfl⟩ | ⟨s', t', hv', hs', rfl⟩ := stepUnit_next_iff.mp ho
  · exact ⟨_, stepUnit_of_length_le (hlen.trans_le hle), hk⟩
  refine ⟨_, stepUnit_of_view (hview.trans hv') hs', ?_⟩
  rw [stepUnit_of_view (hview'.trans hv) hs, List.set_comm _ _ hj]

end Sys2Proof.Machine
end

section
/-! SUPPORT. Readiness (spec/10_state.md R42): when a command or a host operation reads written registers only, and what
the strict step does then and otherwise. -/

namespace Sys2Proof.Machine

/-- A command is ready exactly when the registers it reads, and the flags if it may add to them, are written (R42). -/
theorem State.ready_iff {s : State} {i : Instr} : s.ready i = true ↔
    (∀ reg ∈ Instr.readSet i, s.hasWritten reg = true) ∧
      (Instr.addsFlags i = true → s.hasWritten .flags = true) := by
  simp [State.ready, State.hasWritten, List.all_eq_true, ← Bool.not_eq_true, or_iff_not_imp_left]

/-- Issuing a command and one pass of its retry loop read what the command reads (R42, R90). -/
theorem State.readyOp_of_decode {s : State} {op : HostOp} {byte : Byte} {i : Instr} (hd : decode byte = .instr i)
    (hop : op = .issue byte ∨ op = .reduce byte) : s.readyOp op = s.ready i := by
  obtain rfl | rfl := hop <;> simp only [State.readyOp, State.readyByte, hd]

/-- An operation that reads written registers only is performed as `step` performs it (R42). -/
theorem strictStep_of_ready {s : State} {op : HostOp} {rest : List HostOp} (hp : s.port = op :: rest)
    (h : s.readyOp op = true) : strictStep s = step s := by
  simp only [strictStep, hp, h, if_true]

/-- An operation that reads an unwritten register is refused (R42). -/
theorem strictStep_of_not_ready {s : State} {op : HostOp} {rest : List HostOp} (hp : s.port = op :: rest)
    (h : s.readyOp op = false) : strictStep s = .refused .unwrittenRegister := by
  simp only [strictStep, hp, h, Bool.false_eq_true, if_false]

/-- A ready operation at the head of the list is one strict step, the operation on the state without it. -/
theorem strictStep_of_port {s : State} {op : HostOp} {rest : List HostOp} (hp : s.port = op :: rest)
    (h : s.readyOp op = true) : strictStep s = hostOp op { s with port := rest } := by
  rw [strictStep_of_ready hp h, step_of_port hp]

/-! The host's writes read nothing, so each is a strict step whatever has been written (R42, R90) -/

theorem strictStep_wrA {s : State} {v : Image} {rest : List HostOp} (hp : s.port = .wrA v :: rest) :
    strictStep s = .next (State.setA { s with port := rest } v) :=
  strictStep_of_port hp rfl

theorem strictStep_wrB {s : State} {v : Image} {rest : List HostOp} (hp : s.port = .wrB v :: rest) :
    strictStep s = .next (State.setB { s with port := rest } v) :=
  strictStep_of_port hp rfl

theorem strictStep_wrCtx {s : State} {rc pc : BitVec 2} {fl : FlagSet} {rest : List HostOp}
    (hp : s.port = .wrCtx rc pc fl :: rest) :
    strictStep s = .next (State.writeCtx { s with port := rest } rc pc fl) :=
  strictStep_of_port hp rfl

/-- No command reads `R`, `CC`, `Q` or, but for `RC`, the context (R39, R40). -/
theorem readSet_subset (i : Instr) : Instr.readSet i ⊆ [.a, .b, .rc] := by
  cases i <;> decide

/-- Every command is ready once `A`, `B`, `RC` and the flags are written (R352). -/
theorem State.ready_of_inputs {s : State} (ha : s.written.a = true) (hb : s.written.b = true)
    (hrc : s.written.rc = true) (hfl : s.written.flags = true) (i : Instr) : s.ready i = true := by
  refine State.ready_iff.mpr ⟨fun reg hreg => ?_, fun _ => hfl⟩
  have hmem := readSet_subset i hreg
  simp only [List.mem_cons, List.not_mem_nil, or_false] at hmem
  obtain rfl | rfl | rfl := hmem
  · exact ha
  · exact hb
  · exact hrc

end Sys2Proof.Machine
end

section
/-! The statements of the state: the access table, the float80 format, the units of a system and the host's operations
(spec/10_state.md). -/

namespace Sys2Proof.Proofs

open Sys2Proof.Machine

/-- Settles O47: every command is its effect, which is the shared end of its family and writes that family's registers. -/
theorem accessTableWrites : Obligations.AccessTableWrites := by
  intro i s
  obtain ⟨hunchanged, hkeeps, hmarks⟩ := effect_writesOnly i s
  refine ⟨effect i s, exec_eq_effect i s, hunchanged, (effect_flags_of_not_addsFlags · s), ?_, hkeeps, hmarks,
    effect_par i s, effect_stream i s, effect_port i s⟩
  rintro rfl hcc
  exact effect_fsincos_partial_b hcc

/-- Settles O48: a command's result is a function of the registers it reads, and its family's end writes that result. -/
theorem dependsOnlyOnReads : Obligations.DependsOnlyOnReads := by
  intro i s s' t t' hr hp hs hd ht ht'
  obtain rfl := exec_next_iff.mp ht
  obtain rfl := exec_next_iff.mp ht'
  obtain ⟨hvalues, hflags, hdraws⟩ := effect_sameWrites hr hp hs hd
  exact ⟨hvalues, hflags, hdraws⟩

/-- Settles O5: the condition of each class, and the last place of a normal and of a denormal image. -/
theorem classesFollowFields : Obligations.ClassesFollowFields := by
  intro x
  refine ⟨?_, classify_zero_iff x, classify_denormal_iff x, classify_inf_iff x, classify_qnan_iff x,
    classify_snan_iff x, classify_unsupported_iff x, fun h => ?_, fun h => ?_⟩
  · rw [classify_normal_iff, ← decide_eq_true_iff (p := 2 ^ 63 ≤ _), ← integerBit_iff, integerBit]
  · obtain ⟨hexp, -, -⟩ := (classify_normal_iff x).mp h
    rw [val_eq_zpow, scaleOf_of_one_le hexp]
  · obtain ⟨hexp, -⟩ := (classify_denormal_iff x).mp h
    rw [val_eq_zpow, scaleOf_of_exp_zero hexp]

/-- Settles O6: bit by bit, and on the NaNs. -/
theorem quietSetsBit62 : Obligations.QuietSetsBit62 := by
  refine fun x => ⟨fun i _ => getLsbD_quiet x i, classify_quiet, fun h => ?_⟩
  obtain ⟨-, -, hquiet⟩ := (classify_qnan_iff x).mp h
  exact quiet_of_quiet hquiet

/-- Settles O57: a step of a unit stores in that unit's place alone, so two such steps commute. -/
theorem instancesIsolated : Obligations.InstancesIsolated := by
  intro k sys sys' h
  obtain ⟨hpar, hlen⟩ := stepUnit_shared h
  refine ⟨hpar, hlen, fun hwf => ?_, fun j hj => stepUnit_view_of_ne h hj, stepUnit_view_self h,
    fun j other hj ho => stepUnit_comm hj h ho⟩
  rwa [System.wf, hpar, hlen]

/-- Settles O53: a step is the operation at the head of the list, and each operation but a command is one named write. -/
theorem hostOperations : Obligations.HostOperations := by
  intro s op rest
  refine ⟨fun hp => step_next_iff.mpr (.inl ⟨hp, rfl⟩), fun hp => ?_, rfl, rfl, rfl, rfl,
    ⟨s.ctx.word, rfl, s.ctx.word_rc, s.ctx.word_pc, s.ctx.word_flags, s.ctx.ofWord_word⟩, ?_⟩
  · rw [step_of_port hp]
    refine ⟨?_, ?_, ?_, ?_, ?_, ?_, ?_⟩ <;> intros <;> subst op <;> rfl
  · cases hcc : s.cc <;> simp [State.hostRead, CompletionCode.bits, hcc]

/-- Settles O55: the strict step by the readiness of the operation, and the readiness of each kind of operation. -/
theorem unwrittenReadRefused : Obligations.UnwrittenReadRefused := by
  intro s op rest hp
  refine ⟨strictStep_of_ready hp, strictStep_of_not_ready hp, fun byte i hd hop => ?_, ?_, ?_, rfl, by decide, ?_⟩
  · rw [State.readyOp_of_decode hd hop]
    exact State.ready_iff
  · rintro (rfl | rfl) <;> rfl
  · rintro reg rfl
    exact List.all_eq_true
  · rintro (⟨v, rfl | rfl⟩ | ⟨rc, pc, fl, rfl⟩ | ⟨fl, rfl⟩) <;> rfl

/-- Settles O56: the three writes read nothing, and leave every input of every command written. -/
theorem hostDutiesMakeReady : Obligations.HostDutiesMakeReady := by
  rintro s rc pc fl va vb rest (hp | hp)
  · exact ⟨_, _, _, strictStep_wrCtx hp, strictStep_wrA rfl, strictStep_wrB rfl, rfl, rfl, rfl, rfl,
      State.ready_of_inputs rfl rfl rfl rfl⟩
  · exact ⟨_, _, _, strictStep_wrB hp, strictStep_wrA rfl, strictStep_wrCtx rfl, rfl, rfl, rfl, rfl,
      State.ready_of_inputs rfl rfl rfl rfl⟩

end Sys2Proof.Proofs
end

section
/-! SUPPORT. The ten bytes of an image (spec/20_memory.md R61): the number they hold, least significant byte first, is the
image, and the big-endian bytes are the little-endian ones in reverse. -/

namespace Sys2Proof.Machine

/-- A byte of an image above byte 0 is the byte below of the image moved down by one byte. -/
theorem extractLsb'_byte_succ (x : Image) (i : ℕ) :
    x.extractLsb' (8 * (i + 1)) 8 = (x >>> 8).extractLsb' (8 * i) 8 := by
  ext j
  simp [Nat.mul_succ, Nat.add_comm, Nat.add_left_comm]

/-- The low `n` bytes of a number, least significant first, hold it modulo `2 ^ (8 * n)`: one byte more is the number modulo
256 in front of the bytes of the number divided by 256. -/
theorem bytesValue_map_extractLsb' (n : ℕ) (x : Image) :
    bytesValue ((List.range n).map fun i => x.extractLsb' (8 * i) 8) = x.toNat % 2 ^ (8 * n) := by
  induction n generalizing x with
  | zero => simp [bytesValue, Nat.mod_one]
  | succ n ih =>
    have hpow : 2 ^ (8 * (n + 1)) = 256 * 2 ^ (8 * n) := by ring
    rw [hpow, Nat.mod_mul]
    simp [List.range_succ_eq_map, bytesValue, Function.comp_def, extractLsb'_byte_succ, ih, Nat.shiftRight_eq_div_pow]

theorem imageBytes_big (x : Image) : imageBytes .big x = (imageBytes .little x).reverse := rfl

@[simp] theorem length_imageBytes (order : ByteOrder) (x : Image) : (imageBytes order x).length = 10 := by
  cases order <;> rfl

theorem getElem?_imageBytes_little (x : Image) {i : ℕ} (hi : i < 10) :
    (imageBytes .little x)[i]? = some (x.extractLsb' (8 * i) 8) := by
  simp [imageBytes, hi]

theorem getElem?_imageBytes_big (x : Image) {i : ℕ} (hi : i < 10) :
    (imageBytes .big x)[i]? = some (x.extractLsb' (8 * (9 - i)) 8) := by
  rw [imageBytes_big, List.getElem?_reverse (by simpa using hi), length_imageBytes]
  exact getElem?_imageBytes_little x (by omega)

theorem imageOfBytes_imageBytes_little (x : Image) : imageOfBytes .little (imageBytes .little x) = x := by
  have hval : bytesValue (imageBytes .little x) = x.toNat % 2 ^ 80 := bytesValue_map_extractLsb' 10 x
  rw [imageOfBytes, hval, Nat.mod_eq_of_lt x.isLt, BitVec.ofNat_toNat, BitVec.setWidth_eq]

@[simp] theorem imageOfBytes_imageBytes (order : ByteOrder) (x : Image) :
    imageOfBytes order (imageBytes order x) = x := by
  cases order with
  | little => exact imageOfBytes_imageBytes_little x
  | big =>
    rw [imageOfBytes, imageBytes_big, List.reverse_reverse]
    exact imageOfBytes_imageBytes_little x

end Sys2Proof.Machine
end

section
/-! The statement of the bytes of an image in memory (spec/20_memory.md). -/

namespace Sys2Proof.Proofs

open Sys2Proof.Machine

/-- Settles O4: the bytes hold the image's number, and the default order is little-endian. -/
theorem imageBytesRoundTrip : Obligations.ImageBytesRoundTrip := fun x =>
  ⟨fun order => imageOfBytes_imageBytes order x, fun order => length_imageBytes order x,
    fun _ hi => getElem?_imageBytes_little x hi, fun _ hi => getElem?_imageBytes_big x hi,
    fun p => imageOfBytes_imageBytes p.byteOrder x, fun _ hi => getElem?_imageBytes_little x hi⟩

end Sys2Proof.Proofs
end

section
/-! SUPPORT. The decoder (spec/30_encoding.md R81 to R84, R91): what it answers for a listing byte is what the command
map answers for its low nibble, and the map's inverse is the code of a command. -/

namespace Sys2Proof

/-- A listing byte with a zero high nibble is read by the command map alone (R91). -/
theorem decode_append (op : Code) : decode (0#4 ++ op) = decodeCode op := by
  have hhigh : (0#4 ++ op).extractLsb' 4 4 = 0#4 := BitVec.extractLsb'_append_eq_left
  have hlow : (0#4 ++ op).extractLsb' 0 4 = op := BitVec.extractLsb'_append_eq_right
  rw [decode, if_pos hhigh, hlow]

/-- Only a byte with a zero high nibble is a command (R91; log entry 7). -/
theorem exists_append_of_decode {byte : Byte} {i : Instr} (h : decode byte = .instr i) :
    ∃ op : Code, byte = 0#4 ++ op := by
  by_cases hhigh : byte.extractLsb' 4 4 = 0#4
  · refine ⟨byte.extractLsb' 0 4, ?_⟩
    rw [← hhigh]
    exact (BitVec.extractLsb'_append_extractLsb' (w := 4) (len := 4)).symm
  · rw [decode, if_neg hhigh] at h
    cases h

/-- The command map takes exactly a command's own code to it (R81, R82). -/
theorem decodeCode_eq_instr_iff {op : Code} {i : Instr} : decodeCode op = .instr i ↔ op = i.code := by
  constructor
  · intro h
    unfold decodeCode at h
    split at h <;> cases h
    all_goals exact BitVec.eq_of_toNat_eq ‹_›
  · rintro rfl
    cases i <;> rfl

/-- The codes from `0xC` up are reserved (R84). -/
theorem decodeCode_reserved {op : Code} (h : 0xC#4 ≤ op) : decodeCode op = .rejected (.reservedCode op) := by
  have hle : 12 ≤ op.toNat := h
  unfold decodeCode
  split
  case h_13 => rfl
  all_goals omega

/-- A byte is a command exactly where it is the command's listing byte. -/
theorem decode_eq_instr_iff {byte : Byte} {i : Instr} : decode byte = .instr i ↔ byte = encode i := by
  constructor
  · intro h
    obtain ⟨op, rfl⟩ := exists_append_of_decode h
    rw [decode_append, decodeCode_eq_instr_iff] at h
    rw [h, encode]
  · rintro rfl
    rw [encode, decode_append, decodeCode_eq_instr_iff]

theorem decode_encode (i : Instr) : decode (encode i) = .instr i :=
  decode_eq_instr_iff.mpr rfl

end Sys2Proof
end

section
/-! SUPPORT. The host's two uses of a listing byte (spec/30_encoding.md R84, R90): a rejected byte is refused when
issued; one pass of the retry loop changes nothing but the host's list beside the command's effect, and the loop ends
where a measure falls (R194, R295). -/

namespace Sys2Proof.Machine

/-- A byte that is no command is refused for the decoder's reason (R84, R91). -/
theorem issueByte_of_rejected {byte : Byte} {why : DecodeReject} (hd : decode byte = .rejected why) (s : State) :
    issueByte byte s = .refused (rejectRefusal why) := by
  simp only [issueByte, hd]

/-- The branch of the retry loop writes the host's list alone (R90). -/
theorem State.retry_eq (s : State) (byte : Byte) : s.retry byte =
    { s with port := if s.cc = .partialReductionNeeded then .reduce byte :: s.port else s.port } := by
  unfold State.retry
  split <;> rfl

/-- The retry loop ends within its bound where the command's effect brings a measure down: a command that asks for a
retry starts above the threshold, and either falls to it or below or lowers the measure by the partial step. -/
theorem reduce_ends_of_drop {i : Instr} {rest : List HostOp} {s : State} (hw : i.writesCC = true)
    (hl : s.par.legal = true) (hp : s.port = .reduce (encode i) :: rest) (μ : State → ℤ)
    (hport : ∀ (u : State) (ops : List HostOp), μ { u with port := ops } = μ u)
    (hdrop : ∀ u : State, u.par = s.par → (effect i u).cc = .partialReductionNeeded →
      s.par.threshold < μ u ∧
        (μ (effect i u) ≤ s.par.threshold ∨ μ (effect i u) + s.par.partialStep ≤ μ u)) :
    ∃ (k : ℕ) (t : State), core.run (k + 1) s = .next t ∧ t.port = rest ∧ t.cc ≠ .partialReductionNeeded ∧
      k * s.par.partialStep ≤ (μ s - s.par.threshold).toNat + (s.par.partialStep - 1) := by
  obtain ⟨-, hS, -⟩ := steps_bounds hl
  refine retry_loop_ends (decode_encode i) hw hS μ (·.par = s.par) ?_ _ s le_rfl rfl hp
  intro u t hpar hu ht hcc
  rw [step_reduce hu (decode_encode i) hw, State.retry_eq] at ht
  cases ht
  obtain ⟨hlt, hle⟩ := hdrop { u with port := rest } hpar hcc
  rw [hport u rest] at hlt hle
  exact ⟨hlt, (effect_par i _).trans hpar, by rwa [hport (effect i _)]⟩

/-- How far a remainder command's dividend stands above its divisor, in binades; a zero dividend, which needs no further
pass, stands at the threshold (R184, R185). -/
def State.remDistance (s : State) : ℤ :=
  if isZero s.a then s.par.threshold else ilog2 (val s.a) - ilog2 (val s.b)

theorem State.remDistance_of_zero {s : State} (h : isZero s.a = true) : s.remDistance = s.par.threshold :=
  if_pos h

theorem State.remDistance_of_nonzero {s : State} (h : isZero s.a = false) :
    s.remDistance = ilog2 (val s.a) - ilog2 (val s.b) :=
  if_neg (by simp [h])

/-- A pass of a remainder command that asks for a retry starts above the threshold, and falls to it or by `S` (R194). -/
theorem remDistance_drop {i : Instr} {s : State} (hi : i = .remIeee ∨ i = .remLegacy) (hl : s.par.legal = true)
    (h : (effect i s).cc = .partialReductionNeeded) :
    s.par.threshold < s.remDistance ∧ ((effect i s).remDistance ≤ s.par.threshold ∨
      (effect i s).remDistance + s.par.partialStep ≤ s.remDistance) := by
  obtain ⟨hlt, hz, hb, hzero | ⟨hz', hle⟩⟩ := rem_partial_drop hi hl h
  · rw [State.remDistance_of_nonzero hz, State.remDistance_of_zero hzero, effect_par]
    exact ⟨hlt, .inl le_rfl⟩
  · rw [State.remDistance_of_nonzero hz, State.remDistance_of_nonzero hz', hb]
    exact ⟨hlt, .inr hle⟩

/-- The distance above the threshold is at most that of the exponents, whatever the dividend. -/
theorem State.remDistance_excess_le (s : State) : (s.remDistance - s.par.threshold).toNat ≤
    (ilog2 (val s.a) - ilog2 (val s.b) - s.par.threshold).toNat := by
  cases hz : isZero s.a with
  | true => simp [State.remDistance_of_zero hz]
  | false => rw [State.remDistance_of_nonzero hz]

/-- A pass of a trig command that asks for a retry starts above the threshold, and falls below it, to a zero operand, or
by `S` (R295). -/
theorem trig_partial_drop {i : Instr} {s : State} (hi : i ∈ [Instr.fsin, .fcos, .ftan, .fsincos])
    (hl : s.par.legal = true) (hpi : s.par.constPi ≤ 7 / 2) (h : (effect i s).cc = .partialReductionNeeded) :
    s.par.threshold < ilog2 (val s.a) ∧ (ilog2 (val (effect i s).a) ≤ s.par.threshold ∨
      ilog2 (val (effect i s).a) + s.par.partialStep ≤ ilog2 (val s.a)) := by
  obtain ⟨o, he, ho⟩ := effect_trig hi s
  rw [he, State.commitTrig_cc] at h
  rw [he, State.commitTrig_a]
  obtain ⟨z, fs, hcore, rfl⟩ := trig_outs_partial ho h
  obtain ⟨hfin, -, hlt, hstep⟩ := trigCore_stepped hcore
  obtain ⟨-, -, -, hdrop⟩ := trigPartial_spec hl _ hfin hlt hstep
  refine ⟨hlt, ?_⟩
  cases hz : isZero z with
  | true =>
    obtain ⟨-, -, -, -, hval⟩ := zero_class hz
    have hlog : ilog2 0 = -1 := by decide
    rw [hval, hlog]
    omega
  | false => exact .inr (hdrop hpi hz)

end Sys2Proof.Machine
end

section
/-! The statements of the encoding: the decoder, the refusal of the reserved codes, and the retry loop
(spec/30_encoding.md). -/

namespace Sys2Proof.Proofs

open Sys2Proof.Machine

/-- Settles O1: each of the twelve bytes is the listing byte of its command. -/
theorem specWordsDecode : Obligations.SpecWordsDecode :=
  ⟨decode_encode .abs, decode_encode .negate, decode_encode .remIeee, decode_encode .remLegacy, decode_encode .f2xm1,
    decode_encode .fyl2x, decode_encode .fyl2xp1, decode_encode .fpatan, decode_encode .fsin, decode_encode .fcos,
    decode_encode .ftan, decode_encode .fsincos⟩

/-- Settles O2: the high nibble of a command is zero, and the command map on the low one has the code as its inverse. -/
theorem decodeInvertsEncode : Obligations.DecodeInvertsEncode :=
  fun _ _ _ => decode_eq_instr_iff

/-- Settles O3: the decoder rejects the byte of a reserved code, and the step is the issue of that byte. -/
theorem reservedCodeRefused : Obligations.ReservedCodeRefused := by
  intro s op rest hop hp
  have hd : decode (0#4 ++ op) = .rejected (.reservedCode op) := (decode_append op).trans (decodeCode_reserved hop)
  rw [step_of_port hp]
  exact issueByte_of_rejected hd _

/-- Settles O54: one pass is the command's effect, and the branch writes the host's list alone. -/
theorem retryLoopPass : Obligations.RetryLoopPass := by
  intro s byte i rest hp hd hw
  refine ⟨_, exec_eq_effect i _, ?_⟩
  rw [step_reduce hp hd hw, State.retry_eq, effect_port]

/-- Settles O23: each partial step brings the dividend to zero or at least `S` binades nearer to the divisor. -/
theorem remRetryLoopEnds : Obligations.RemRetryLoopEnds := by
  intro s byte rest hbyte hl hp
  obtain ⟨i, hi, hw, rfl⟩ : ∃ i, (i = .remIeee ∨ i = .remLegacy) ∧ i.writesCC = true ∧ byte = encode i := by
    obtain rfl | rfl := hbyte
    · exact ⟨.remIeee, .inl rfl, rfl, rfl⟩
    · exact ⟨.remLegacy, .inr rfl, rfl, rfl⟩
  obtain ⟨k, t, hrun, hport, hcc, hk⟩ := reduce_ends_of_drop hw hl hp State.remDistance (fun _ _ => rfl)
    fun u hpar hcc => hpar ▸ remDistance_drop hi (hpar ▸ hl) hcc
  have hexcess := s.remDistance_excess_le
  exact ⟨k, t, hrun, hport, hcc, by omega⟩

/-- Settles O46: each partial step leaves a zero operand or at least `S` binades less. -/
theorem trigRetryLoopEnds : Obligations.TrigRetryLoopEnds := by
  intro s i rest hi hl hpi hp
  have hw : i.writesCC = true :=
    (by decide : ∀ j ∈ [Instr.fsin, .fcos, .ftan, .fsincos], j.writesCC = true) i hi
  exact reduce_ends_of_drop hw hl hp (fun u => ilog2 (val u.a)) (fun _ _ => rfl)
    fun u hpar hcc => hpar ▸ trig_partial_drop hi (hpar ▸ hl) (hpar ▸ hpi) hcc

end Sys2Proof.Proofs
end

section
/-! SUPPORT. What `RoundX` answers, in terms of the bounds `roundsBelow` (spec/40_float80_utils.md R125 to R127): the
overflow result, or a finite image whose flags say whether it is exact and whether it is tiny. -/

namespace Sys2Proof.Machine

/-- The flags of a condition hold a flag where the condition does. -/
theorem hasFlag_flagsIf (c : Bool) (fs : FlagSet) (f : Flag) : hasFlag (flagsIf c fs) f = (c && hasFlag fs f) := by
  cases c
  · simp [flagsIf, noFlags, hasFlag]
  · rfl

/-- A single flag holds itself and no other (R33). -/
theorem hasFlag_mask (f g : Flag) : hasFlag g.mask f = decide (f = g) := by
  cases f <;> cases g <;> rfl

/-- Two values of one sign are equal exactly where their magnitudes are. -/
theorem applySign_inj {s : Bool} {a b : ℚ} : applySign s a = applySign s b ↔ a = b := by
  cases s <;> simp [applySign]

/-- A signed magnitude is a value exactly where it is the value's magnitude. -/
theorem applySign_sgnQ_eq_iff {v a : ℚ} : applySign (sgnQ v) a = v ↔ a = |v| := by
  nth_rw 2 [← applySign_sgnQ_abs v]
  exact applySign_inj

/-- A value below a power of two after rounding is below every greater one. -/
theorem roundsBelow_mono {v : ℚ} (hv : v ≠ 0) {rc : RoundingMode} {d e : ℤ} (hde : d ≤ e) (h : roundsBelow v rc d) :
    roundsBelow v rc e := by
  rw [← binadeRound_lt_iff hv] at h ⊢
  exact h.trans_le (pow2_le_iff.mpr hde)

/-- A value that does not round below `2^16384` overflows (R125, R126). -/
theorem roundX_of_not_roundsBelow {v : ℚ} (hv : v ≠ 0) {rc : RoundingMode} (force : Bool)
    (h : ¬roundsBelow v rc 16384) : roundX v rc force = (overflowImage (sgnQ v) rc, OE ||| PE) := by
  rw [← binadeRound_lt_iff hv] at h
  obtain ⟨-, -, hz⟩ | ⟨-, hlt, -⟩ | ⟨-, hlt, -⟩ := roundX_cases hv rc force
  · exact hz
  · exact absurd hlt h
  · exact absurd (hlt.trans (pow2_lt_iff.mpr (by norm_num))) h

/-- A value that rounds below `2^16384` gives a finite image, with PE where it is inexact or forced, and with UE beside it
where it is tiny too (R125, R127). -/
theorem roundX_of_roundsBelow {v : ℚ} (hv : v ≠ 0) {rc : RoundingMode} (force : Bool) (h : roundsBelow v rc 16384) :
    isFinite (roundX v rc force).1 = true ∧
      (¬roundsBelow v rc (-16382) ∧
          (roundX v rc force).2 = flagsIf (decide (val (roundX v rc force).1 ≠ v) || force) PE ∨
        roundsBelow v rc (-16382) ∧
          (roundX v rc force).2 = flagsIf (decide (val (roundX v rc force).1 ≠ v) || force) (UE ||| PE)) := by
  rw [← binadeRound_lt_iff hv] at h
  simp only [← binadeRound_lt_iff hv]
  obtain ⟨hle, -⟩ | ⟨hle, -, -, -, hc, -, hval, hfs⟩ | ⟨-, hlt, -, hfin, -, hval, -, -, hfs⟩ := roundX_cases hv rc force
  · exact absurd h (not_lt.mpr hle)
  · refine ⟨(isFinite_iff _).mpr (.inr (.inr hc)), .inl ⟨not_lt.mpr hle, ?_⟩⟩
    simp only [hfs, hval, ne_eq, applySign_sgnQ_eq_iff]
  · refine ⟨hfin, .inr ⟨hlt, ?_⟩⟩
    simp only [hfs, hval, ne_eq, applySign_sgnQ_eq_iff]

/-- OE is raised exactly where the value does not round below `2^16384` (R126). -/
theorem hasFlag_oe_roundX_iff {v : ℚ} (hv : v ≠ 0) (rc : RoundingMode) (force : Bool) :
    hasFlag (roundX v rc force).2 .oe = true ↔ ¬roundsBelow v rc 16384 := by
  by_cases h : roundsBelow v rc 16384
  · obtain ⟨-, ⟨-, hfs⟩ | ⟨-, hfs⟩⟩ := roundX_of_roundsBelow hv force h
    · simp [hfs, h, hasFlag_flagsIf, PE, hasFlag_mask]
    · simp [hfs, h, hasFlag_flagsIf, hasFlag_or, UE, PE, hasFlag_mask]
  · rw [roundX_of_not_roundsBelow hv force h]
    simp [h, hasFlag_or, OE, PE, hasFlag_mask]

/-- A canonical image is the rounding of its own value, with no flag (R129). -/
theorem roundX_val_of_canonical {x : Image} (hx : canonicalNonzero x = true) (rc : RoundingMode) :
    roundX (val x) rc false = (x, noFlags) := by
  obtain ⟨hfin, hv⟩ := canonical_finite hx
  obtain ⟨hzfin, hzval, hzfs⟩ :=
    roundX_exact hv (sigField x).isLt (scaleOf_ge x) (abs_val x) (abs_val_lt hfin) rc
  have hz := roundX_canonical hv rc false hzfin (by rwa [hzval])
  exact Prod.ext (canonical_unique hz hx hzval) hzfs

/-- An overflow result is never exact, the greatest finite image included: an exact one would raise no flag. -/
theorem val_roundX_ne_of_overflow {v : ℚ} (hv : v ≠ 0) {rc : RoundingMode} {force : Bool}
    (h : ¬roundsBelow v rc 16384) (hfin : isFinite (roundX v rc force).1 = true) : val (roundX v rc force).1 ≠ v := by
  intro hval
  have hexact := roundX_val_of_canonical (roundX_canonical hv rc force hfin (by rwa [hval])) rc
  rw [hval, roundX_of_not_roundsBelow hv false h] at hexact
  have hfs : OE ||| PE = noFlags := congrArg Prod.snd hexact
  exact absurd hfs (by decide)

/-- An overflow result that is not finite is an infinity (R126). -/
theorem isInf_overflowImage {s : Bool} {rc : RoundingMode} (h : isFinite (overflowImage s rc) = false) :
    isInf (overflowImage s rc) = true := by
  revert h
  cases rc <;> cases s <;> decide

end Sys2Proof.Machine
end

section
/-! SUPPORT. A finite result of `RoundX` among the finite float80 values (spec/40_float80_utils.md R122): nearest under
RN, on the side its mode directs it to, and with no value between it and what was rounded. -/

namespace Sys2Proof.Machine

/-- Of two values of one sign, the lesser is the one of lesser magnitude, or of greater where the sign is set. -/
theorem applySign_le {s : Bool} {a b : ℚ} (hpos : s = false → a ≤ b) (hneg : s = true → b ≤ a) :
    applySign s a ≤ applySign s b := by
  cases s
  · exact hpos rfl
  · exact neg_le_neg (hneg rfl)

/-- The distance of two values of one sign is that of their magnitudes. -/
theorem abs_applySign_sub (s : Bool) (a b : ℚ) : |applySign s a - applySign s b| = |a - b| := by
  cases s
  · rfl
  · exact neg_sub_neg a b ▸ abs_sub_comm b a

/-- A value is not between two values of one sign where its magnitude is not between theirs. -/
theorem not_between_of_abs (s : Bool) {a b w : ℚ} (ha : 0 ≤ a) (hb : 0 ≤ b) (h : 0 ≤ (|w| - a) * (|w| - b)) :
    0 ≤ (w - applySign s a) * (w - applySign s b) := by
  rcases le_total 0 w with hw | hw
  · rw [abs_of_nonneg hw] at h
    cases s
    · exact h
    · exact mul_nonneg (show 0 ≤ w - -a by linarith) (show 0 ≤ w - -b by linarith)
  · rw [abs_of_nonpos hw] at h
    cases s
    · exact mul_nonneg_of_nonpos_of_nonpos (show w - a ≤ 0 by linarith) (show w - b ≤ 0 by linarith)
    · show 0 ≤ (w - -a) * (w - -b)
      linarith

/-- A multiple of a last place is as far from a magnitude as the integer is from the magnitude in last places. -/
theorem abs_mul_pow2_sub (r a : ℚ) (g : ℤ) : |r * pow2 g - a| = |r - a / pow2 g| * pow2 g := by
  rw [← abs_of_pos (pow2_pos g), ← abs_mul, abs_of_pos (pow2_pos g), sub_mul, div_mul_cancel₀ _ (pow2_ne_zero g)]

/-- To nearest even: no integer is nearer, and where another is as near the result is even (R122). -/
theorem rInt_nearest_le {m : ℚ} (hm : 0 ≤ m) (s : Bool) (k : ℕ) :
    |(rInt m s .nearestEven : ℚ) - m| ≤ |(k : ℚ) - m| ∧
      (|(k : ℚ) - m| = |(rInt m s .nearestEven : ℚ) - m| → k ≠ rInt m s .nearestEven →
        rInt m s .nearestEven % 2 = 0) := by
  obtain ⟨hle, heven⟩ := rInt_nearest hm s
  by_cases hk : k = rInt m s .nearestEven
  · rw [← hk]
    exact ⟨le_rfl, fun _ h => absurd rfl h⟩
  · have hone : (1 : ℚ) ≤ |(k : ℚ) - rInt m s .nearestEven| := by
      have := Int.one_le_abs (sub_ne_zero.mpr (Nat.cast_injective.ne hk : (k : ℤ) ≠ rInt m s .nearestEven))
      exact_mod_cast this
    have htri := abs_sub_le (k : ℚ) m (rInt m s .nearestEven)
    rw [abs_sub_comm m] at htri
    exact ⟨by linarith, fun heq _ => heven (by linarith)⟩

/-- A magnitude on the grid of a rounding to nearest, or below a point of it that lies below the value, is no nearer to the
value than the rounding, and where it is another one as near the rounding is an even multiple. -/
theorem rInt_grid_nearest {a w : ℚ} {g : ℤ} {b : ℕ} (s : Bool) (hb : (b : ℚ) ≤ a / pow2 g)
    (hw : (∃ k : ℕ, w = k * pow2 g) ∨ w < b * pow2 g) :
    |rInt (a / pow2 g) s .nearestEven * pow2 g - a| ≤ |w - a| ∧
      (|w - a| = |rInt (a / pow2 g) s .nearestEven * pow2 g - a| → w ≠ rInt (a / pow2 g) s .nearestEven * pow2 g →
        rInt (a / pow2 g) s .nearestEven % 2 = 0) := by
  have hm : 0 ≤ a / pow2 g := (Nat.cast_nonneg b).trans hb
  have hg := pow2_pos g
  have hgrid : ∀ k : ℕ, |rInt (a / pow2 g) s .nearestEven * pow2 g - a| ≤ |k * pow2 g - a| := fun k => by
    rw [abs_mul_pow2_sub, abs_mul_pow2_sub]
    exact mul_le_mul_of_nonneg_right (rInt_nearest_le hm s k).1 hg.le
  obtain ⟨k, rfl⟩ | hw := hw
  · refine ⟨hgrid k, fun heq hne => (rInt_nearest_le hm s k).2 ?_ fun hk => hne (by rw [hk])⟩
    rw [abs_mul_pow2_sub, abs_mul_pow2_sub] at heq
    exact mul_right_cancel₀ hg.ne' heq
  · have hba : b * pow2 g ≤ a := (le_div_iff₀ hg).mp hb
    have hlt : |b * pow2 g - a| < |w - a| := by
      rw [abs_of_nonpos (by linarith), abs_of_neg (by linarith)]
      linarith
    exact ⟨(hgrid b).trans hlt.le, fun heq => absurd heq ((hgrid b).trans_lt hlt).ne'⟩

/-- The modes that round a value of sign `s` to the integer below its magnitude (R122). -/
def RoundingMode.Inward (rc : RoundingMode) (s : Bool) : Prop :=
  rc = .towardZero ∨ (rc = .up ∧ s = true) ∨ (rc = .down ∧ s = false)

/-- The modes that round a value of sign `s` to the integer above its magnitude (R122). -/
def RoundingMode.Outward (rc : RoundingMode) (s : Bool) : Prop :=
  (rc = .up ∧ s = false) ∨ (rc = .down ∧ s = true)

theorem RoundingMode.Inward.not_outward {rc : RoundingMode} {s : Bool} (h : rc.Inward s) : ¬rc.Outward s := by
  revert h
  cases rc <;> cases s <;> simp [Inward, Outward]

/-- A magnitude on the grid of a rounding, or below a point of it that lies below the value, is not strictly between the
value and the rounding. -/
theorem rInt_grid_not_between {a w : ℚ} {g : ℤ} {b : ℕ} (s : Bool) (rc : RoundingMode) (hb : (b : ℚ) ≤ a / pow2 g)
    (hw : (∃ k : ℕ, w = k * pow2 g) ∨ w < b * pow2 g) : 0 ≤ (w - a) * (w - rInt (a / pow2 g) s rc * pow2 g) := by
  have hm : 0 ≤ a / pow2 g := (Nat.cast_nonneg b).trans hb
  have hg := pow2_pos g
  obtain ⟨k, rfl⟩ | hw := hw
  · rcases le_total (k : ℚ) (a / pow2 g) with hk | hk
    · have hr : (k : ℚ) ≤ rInt (a / pow2 g) s rc := by exact_mod_cast le_rInt_of_le hm hk s rc
      have hka : k * pow2 g ≤ a := (le_div_iff₀ hg).mp hk
      exact mul_nonneg_of_nonpos_of_nonpos (by linarith) (sub_nonpos.mpr (mul_le_mul_of_nonneg_right hr hg.le))
    · have hr : (rInt (a / pow2 g) s rc : ℚ) ≤ k := by exact_mod_cast rInt_le_of_le hm hk s rc
      have hka : a ≤ k * pow2 g := (div_le_iff₀ hg).mp hk
      exact mul_nonneg (by linarith) (sub_nonneg.mpr (mul_le_mul_of_nonneg_right hr hg.le))
  · have hr : (b : ℚ) ≤ rInt (a / pow2 g) s rc := by exact_mod_cast le_rInt_of_le hm hb s rc
    have hba : b * pow2 g ≤ a := (le_div_iff₀ hg).mp hb
    have hbr : b * pow2 g ≤ rInt (a / pow2 g) s rc * pow2 g := mul_le_mul_of_nonneg_right hr hg.le
    exact mul_nonneg_of_nonpos_of_nonpos (by linarith) (by linarith)

/-- The magnitude of the greatest finite image (R21, R126). -/
theorem val_maxImage (s : Bool) : val (maxImage s) = applySign s ((2 ^ 64 - 1) * pow2 16320) := by
  have hm : (0xFFFFFFFFFFFFFFFF#64).toNat = 2 ^ 64 - 1 := by decide
  have he : ((max (0x7FFE#15).toNat 1 : ℕ) : ℤ) - 16383 - 63 = 16320 := by decide
  rw [maxImage, val_pack, hm, he]
  norm_num

/-- The magnitude of a finite result: on the side of the value its mode directs it to, and with no finite magnitude
strictly between the two (R122, R125 to R127). -/
theorem roundX_magnitude {v : ℚ} (hv : v ≠ 0) (rc : RoundingMode) (force : Bool)
    (hf : isFinite (roundX v rc force).1 = true) :
    ∃ q, 0 ≤ q ∧ val (roundX v rc force).1 = applySign (sgnQ v) q ∧ (rc.Inward (sgnQ v) → q ≤ |v|) ∧
      (rc.Outward (sgnQ v) → |v| ≤ q) ∧ ∀ y, isFinite y = true → 0 ≤ (|val y| - |v|) * (|val y| - q) := by
  obtain ⟨g, b, hb, hval, -, hgrid⟩ | ⟨hbig, hz, hmode⟩ := roundX_grid hv rc force hf
  · have hm : 0 ≤ |v| / pow2 g := (Nat.cast_nonneg b).trans hb
    have hg := pow2_pos g
    refine ⟨_, mul_nonneg (Nat.cast_nonneg _) hg.le, hval, fun h => ?_, fun h => ?_, fun y hy =>
      rInt_grid_not_between _ rc hb (hgrid y hy)⟩
    · exact (le_div_iff₀ hg).mp (rInt_down_le hm h)
    · exact (div_le_iff₀ hg).mp (le_rInt_up hm h)
  · have hin : rc.Inward (sgnQ v) := by
      obtain h | ⟨h, hs⟩ | ⟨h, hs⟩ := hmode
      · exact .inl h
      · exact .inr (.inl ⟨h, sgnQ_of_neg hs⟩)
      · exact .inr (.inr ⟨h, sgnQ_of_pos hs⟩)
    have hq : (0 : ℚ) ≤ (2 ^ 64 - 1) * pow2 16320 := mul_nonneg (by norm_num) (pow2_pos _).le
    have hmax : (2 ^ 64 - 1) * pow2 16320 ≤ |v| := by
      have hfin := abs_val_lt (hz ▸ hf)
      rw [val_maxImage, abs_applySign, abs_of_nonneg hq] at hfin
      exact hfin.le.trans hbig
    refine ⟨_, hq, hz ▸ val_maxImage _, fun _ => hmax, fun h => absurd h hin.not_outward, fun y hy => ?_⟩
    have hy := abs_val_le hy
    exact mul_nonneg_of_nonpos_of_nonpos (by linarith) (by linarith)

/-- A value as far from a nonzero `v` as `z` is, and of the magnitude of `z`, is `z`: the negated `z` is as far only where
it is zero. -/
theorem eq_of_dist_eq_of_abs_eq {v w z : ℚ} (hv : v ≠ 0) (hdist : |w - v| = |z - v|) (habs : |w| = |z|) : w = z := by
  obtain h | h := abs_eq_abs.mp habs
  · exact h
  · obtain h' | h' := abs_eq_abs.mp hdist
    · linarith
    · exact absurd (by linarith) hv

/-- Under RN a finite result is a nearest finite value, and where another is as near it has an even significand (R122,
R125, R127). -/
theorem roundX_nearest {v : ℚ} (hv : v ≠ 0) (force : Bool) (hf : isFinite (roundX v .nearestEven force).1 = true)
    {y : Image} (hy : isFinite y = true) :
    |val (roundX v .nearestEven force).1 - v| ≤ |val y - v| ∧
      (|val y - v| = |val (roundX v .nearestEven force).1 - v| → val y ≠ val (roundX v .nearestEven force).1 →
        (roundX v .nearestEven force).1.getLsbD 0 = false) := by
  obtain ⟨g, b, hb, hval, hlsb, hgrid⟩ | ⟨-, -, h | ⟨h, -⟩ | ⟨h, -⟩⟩ := roundX_grid hv .nearestEven force hf
  · obtain ⟨hle, heven⟩ := rInt_grid_nearest (sgnQ v) hb (hgrid y hy)
    have hmag := abs_applySign_nat (sgnQ v) (rInt (|v| / pow2 g) (sgnQ v) .nearestEven) g
    have hdist := abs_applySign_sub (sgnQ v) (rInt (|v| / pow2 g) (sgnQ v) .nearestEven * pow2 g) |v|
    rw [← hval] at hmag
    rw [← hval, applySign_sgnQ_abs] at hdist
    rw [← hdist] at hle heven
    rw [← hmag] at heven
    have habs := abs_abs_sub_abs_le_abs_sub (val y) v
    refine ⟨hle.trans habs, fun heq hne => hlsb (heven (le_antisymm (heq ▸ habs) hle) fun h => ?_)⟩
    exact hne (eq_of_dist_eq_of_abs_eq hv heq h)
  all_goals cases h

end Sys2Proof.Machine
end

section
/-! SUPPORT. The sign symmetry of rounding (spec/40_float80_utils.md R122, R125 to R127): the opposite sign under the
mirrored mode gives the same magnitude. -/

namespace Sys2Proof.Machine

/-- The mode that treats a negated value as this one treats the value: RD and RU change places (R152). -/
def RoundingMode.mirror : RoundingMode → RoundingMode
  | .nearestEven => .nearestEven
  | .towardZero => .towardZero
  | .up => .down
  | .down => .up

theorem rInt_mirror (m : ℚ) (s : Bool) (rc : RoundingMode) : rInt m (!s) rc.mirror = rInt m s rc := by
  unfold rInt
  cases rc <;> cases s <;> rfl

theorem roundUnbounded_mirror (a : ℚ) (s : Bool) (rc : RoundingMode) :
    roundUnbounded a (!s) rc.mirror = roundUnbounded a s rc := by
  simp only [roundUnbounded, rInt_mirror]

/-- Negating an image changes its sign field alone (R113). -/
theorem negateImage_pack (s : Bool) (e : BitVec 15) (m : BitVec 64) : negateImage (pack s e m) = pack (!s) e m := by
  rw [negateImage, signBit_pack, pack, pack, BitVec.append_assoc, BitVec.append_assoc]
  congr 1
  exact BitVec.extractLsb'_append_eq_right

theorem negateImage_overflowImage (s : Bool) (rc : RoundingMode) :
    negateImage (overflowImage s rc) = overflowImage (!s) rc.mirror := by
  cases rc <;> cases s <;> decide

theorem tinyRound_mirror (a : ℚ) (s : Bool) (rc : RoundingMode) (force : Bool) :
    tinyRound a (!s) rc.mirror force = (negateImage (tinyRound a s rc force).1, (tinyRound a s rc force).2) := by
  simp only [tinyRound, rInt_mirror]
  split <;> simp only [negateImage_pack]

theorem sgnQ_neg {v : ℚ} (hv : v ≠ 0) : sgnQ (-v) = !sgnQ v := by
  rcases lt_or_gt_of_ne hv with h | h
  · rw [sgnQ_of_neg h, sgnQ_of_pos (neg_pos.mpr h)]; rfl
  · rw [sgnQ_of_pos h, sgnQ_of_neg (neg_neg_of_pos h)]; rfl

theorem absQ_neg (v : ℚ) : absQ (-v) = absQ v := by
  rw [absQ_eq_abs, absQ_eq_abs, abs_neg]

/-- Rounding a negated value under the mirrored mode negates the image and raises the same flags (R152). -/
theorem roundX_neg {v : ℚ} (hv : v ≠ 0) (rc : RoundingMode) (force : Bool) :
    roundX (-v) rc.mirror force = (negateImage (roundX v rc force).1, (roundX v rc force).2) := by
  simp only [roundX, sgnQ_neg hv, absQ_neg, roundUnbounded_mirror]
  split_ifs
  · rw [negateImage_overflowImage]
  · exact tinyRound_mirror ..
  · rw [negateImage_pack]

end Sys2Proof.Machine
end

section
/-! SUPPORT. Invalid and NaN operands (spec/40_float80_utils.md R115 to R118): what the result function of each command
answers for them. -/

namespace Sys2Proof.Machine

/-- An unsupported operand of a remainder command (R118). -/
theorem remOut_of_unsupported (p : Params) (round : ℚ → ℤ) {x y : Image}
    (h : isUnsupported x = true ∨ isUnsupported y = true) : remOut p round x y = ⟨p.defaultNan, .invalid, 0, IE⟩ := by
  rw [remOut, if_pos (by simpa using h), remInvalid]

/-- A NaN operand of a remainder command (R182). -/
theorem remOut_of_nan (p : Params) (round : ℚ → ℤ) {x y : Image} (hx : isUnsupported x = false)
    (hy : isUnsupported y = false) (h : isNan x = true ∨ isNan y = true) :
    remOut p round x y = ⟨propNan x y, .invalid, 0, IE⟩ := by
  rw [remOut, if_neg (by simp [hx, hy]), if_pos (by simpa using h), remInvalid]

section trig
variable {k : KernelFns} {p : Params} {rc : RoundingMode} {x : Image}

/-- An unsupported operand of a trig command (R118). -/
theorem trigCore_of_unsupported (h : isUnsupported x = true) : trigCore k p rc x = .invalid p.defaultNan := by
  rw [trigCore, if_pos h]

/-- A NaN operand of a trig command (R281). -/
theorem trigCore_of_nan (h : isNan x = true) : trigCore k p rc x = .invalid (quiet x) := by
  rw [trigCore, if_neg (by simp [(nan_class h).1]), if_pos h]

end trig

/-- FSIN, FCOS and FTAN of an invalid operand write the NaN to `A`, with IE and Invalid (R281). -/
theorem exec_trig_of_invalid {i : Instr} {s : State} {z : Image} (hi : i ∈ [Instr.fsin, .fcos, .ftan])
    (h : trigCore Config.kernels.toKernelFns s.par s.rounding s.a = .invalid z) :
    exec i s = .next (s.afterTrig z .invalid IE) := by
  simp only [List.mem_cons, List.not_mem_nil, or_false] at hi
  rw [exec_eq_effect]
  obtain rfl | rfl | rfl := hi
  · rw [effect, fsinOut, h, State.commitTrig_none]
  · rw [effect, fcosOut, h, State.commitTrig_none]
  · rw [effect, ftanOut, h, State.commitTrig_none]

/-- FSINCOS of an invalid operand writes the NaN to `A` and to `B`, with IE and Invalid (R281, R293). -/
theorem exec_fsincos_of_invalid {s : State} {z : Image}
    (h : trigCore Config.kernels.toKernelFns s.par s.rounding s.a = .invalid z) :
    exec .fsincos s = .next (s.afterSincos z z .invalid IE) := by
  rw [exec_eq_effect, effect, fsincosOut, h, State.commitTrig_some]

/-- PropNaN of a NaN in `A` quiets it (R116). -/
theorem propNan_of_left {x : Image} (y : Image) (h : isNan x = true) : propNan x y = quiet x := if_pos h

/-- PropNaN without a NaN in `A` quiets `B` (R116). -/
theorem propNan_of_right {x : Image} (y : Image) (h : isNan x = false) : propNan x y = quiet y := if_neg (by simp [h])

/-- What is no NaN raises nothing beside a NaN (R117 (b)). -/
theorem snanFlags2_of_not_nan {x : Image} (y : Image) (h : isNan x = false) : snanFlags2 x y = snanFlags1 y := by
  have hs : isSnan x = false := by
    unfold isNan at h
    unfold isSnan
    revert h
    cases classify x <;> decide
  rw [snanFlags2, hs, Bool.false_or, snanFlags1]

/-- F2XM1 of an unsupported operand (R118, R222). -/
theorem exec_f2xm1_of_unsupported {s : State} (h : isUnsupported s.a = true) :
    exec .f2xm1 s = .next (s.afterByValue s.par.defaultNan IE) := by
  rw [exec_eq_effect, effect, f2xm1Out, if_pos h, invalidValue, State.commitR_out]

/-- F2XM1 of a NaN (R222). -/
theorem exec_f2xm1_of_nan {s : State} (h : isNan s.a = true) :
    exec .f2xm1 s = .next (s.afterByValue (quiet s.a) (snanFlags1 s.a)) := by
  obtain ⟨hu, -⟩ := nan_class h
  rw [exec_eq_effect, effect, f2xm1Out, if_neg (by simp [hu]), if_pos h, State.commitR_out]

section twoOperands
variable {i : Instr} {s : State} (hi : i ∈ [Instr.fyl2x, .fyl2xp1, .fpatan])
include hi

/-- An unsupported operand of a by-value command of two operands (R118). -/
theorem exec_byValue_of_unsupported (h : isUnsupported s.a = true ∨ isUnsupported s.b = true) :
    exec i s = .next (s.afterByValue s.par.defaultNan IE) := by
  have hu : (isUnsupported s.a || isUnsupported s.b) = true := by simpa using h
  simp only [List.mem_cons, List.not_mem_nil, or_false] at hi
  rw [exec_eq_effect, ← State.commitR_out, ← invalidValue]
  obtain rfl | rfl | rfl := hi
  · rw [effect, fyl2xOut, if_pos hu]
  · rw [effect, fyl2xp1Out, if_pos hu]
  · rw [effect, fpatanOut, if_pos hu]

/-- A NaN in `A` of a by-value command of two operands, `B` being supported (R116, R117 (b)). -/
theorem exec_byValue_of_nan_a (hu : isUnsupported s.b = false) (h : isNan s.a = true) :
    exec i s = .next (s.afterByValue (quiet s.a) (snanFlags2 s.a s.b)) := by
  obtain ⟨hua, -⟩ := nan_class h
  have hu' : ¬(isUnsupported s.a || isUnsupported s.b) = true := by simp [hua, hu]
  have hn : (isNan s.a || isNan s.b) = true := by simp [h]
  simp only [List.mem_cons, List.not_mem_nil, or_false] at hi
  rw [exec_eq_effect, ← State.commitR_out]
  obtain rfl | rfl | rfl := hi
  · rw [effect, fyl2xOut, if_neg hu', if_pos h]
  · rw [effect, fyl2xp1Out, if_neg hu', if_pos hn, propNan_of_left _ h]
  · rw [effect, fpatanOut, if_neg hu', if_pos hn, propNan_of_left _ h]

/-- A NaN in `B` alone of a by-value command of two operands; FYL2X comes to it only for a positive `A` (R116, R117 (b),
R226). -/
theorem exec_byValue_of_nan_b (hu : isUnsupported s.a = false) (ha : isNan s.a = false) (h : isNan s.b = true)
    (hpos : i = .fyl2x → isZero s.a = false ∧ signBit s.a = false) :
    exec i s = .next (s.afterByValue (quiet s.b) (snanFlags1 s.b)) := by
  obtain ⟨hub, -⟩ := nan_class h
  have hu' : ¬(isUnsupported s.a || isUnsupported s.b) = true := by simp [hu, hub]
  have hn : (isNan s.a || isNan s.b) = true := by simp [h]
  simp only [List.mem_cons, List.not_mem_nil, or_false] at hi
  rw [exec_eq_effect, ← State.commitR_out, ← snanFlags2_of_not_nan _ ha]
  obtain rfl | rfl | rfl := hi
  · obtain ⟨hz, hs⟩ := hpos rfl
    rw [effect, fyl2xOut, if_neg hu', if_neg (by simp [ha]), if_neg (by simp [hz, hs]), if_pos h]
  · rw [effect, fyl2xp1Out, if_neg hu', if_pos hn, propNan_of_right _ ha]
  · rw [effect, fpatanOut, if_neg hu', if_pos hn, propNan_of_right _ ha]

end twoOperands

section remainder
variable {i : Instr} {s : State} (hi : i ∈ [Instr.remIeee, .remLegacy])
include hi

/-- An unsupported operand of a remainder command (R118, R182). -/
theorem exec_rem_of_unsupported (h : isUnsupported s.a = true ∨ isUnsupported s.b = true) :
    exec i s = .next (s.afterRem s.par.defaultNan .invalid 0 IE) := by
  simp only [List.mem_cons, List.not_mem_nil, or_false] at hi
  rw [exec_eq_effect]
  obtain rfl | rfl := hi <;> rw [effect, remOut_of_unsupported _ _ h, State.commitRem_eq]

/-- A NaN operand of a remainder command (R182). -/
theorem exec_rem_of_nan (ha : isUnsupported s.a = false) (hb : isUnsupported s.b = false)
    (h : isNan s.a = true ∨ isNan s.b = true) : exec i s = .next (s.afterRem (propNan s.a s.b) .invalid 0 IE) := by
  simp only [List.mem_cons, List.not_mem_nil, or_false] at hi
  rw [exec_eq_effect]
  obtain rfl | rfl := hi <;> rw [effect, remOut_of_nan _ _ ha hb h, State.commitRem_eq]

end remainder

end Sys2Proof.Machine
end

section
/-! SUPPORT. The sign utilities as steps (spec/40_float80_utils.md R112, R113): each writes a mask of `A` to `R`. -/

namespace Sys2Proof.Machine

/-- ABS writes `A` with bit 79 cleared to `R` and nothing else (R112). -/
theorem exec_abs (s : State) : exec .abs s = .next
    { s with r := s.a &&& 0x7FFFFFFFFFFFFFFFFFFF#80, written := { s.written with r := true } } := by
  rw [← absImage_eq]
  rfl

/-- NEGATE writes `A` with bit 79 flipped to `R` and nothing else (R113). -/
theorem exec_negate (s : State) : exec .negate s = .next
    { s with r := s.a ^^^ (1#80 <<< 79), written := { s.written with r := true } } := by
  rw [← negateImage_eq]
  rfl

/-- Issuing NEGATE is one step (R90, R113). -/
theorem step_issue_negate {s : State} {rest : List HostOp} (hp : s.port = .issue 0x01#8 :: rest) : step s = .next
    { s with r := s.a ^^^ (1#80 <<< 79), written := { s.written with r := true }, port := rest } :=
  (step_of_port hp).trans ((issueByte_of_decode (decode_encode .negate) _).trans (exec_negate _))

/-- MOVAR is one step (R90). -/
theorem step_movAR {s : State} {rest : List HostOp} (hp : s.port = .movAR :: rest) :
    step s = .next (State.setA { s with port := rest } s.r) :=
  step_of_port hp

end Sys2Proof.Machine
end

section
/-! The statements of the float80 utilities: rounding, the sign utilities, and the operands every other command rejects
(spec/40_float80_utils.md). -/

namespace Sys2Proof.Proofs

open Sys2Proof.Machine

/-- Settles O7: a canonical image is on the grid of its own rounding, and a value either overflows or rounds to a finite
image with the flags of an inexact or a tiny result. -/
theorem roundXFixesRepresentable : Obligations.RoundXFixesRepresentable := by
  refine ⟨fun x rc hx => roundX_val_of_canonical hx rc, fun v rc force hv => ⟨fun hfin => ?_, fun hfin => ?_, ?_⟩⟩
  · by_cases hb : roundsBelow v rc 16384
    · obtain ⟨-, ⟨htiny, hfs⟩ | ⟨htiny, hfs⟩⟩ := roundX_of_roundsBelow hv force hb
      · simp [hfs, htiny, hasFlag_flagsIf, PE, hasFlag_mask]
      · simp [hfs, htiny, hasFlag_flagsIf, hasFlag_or, UE, PE, hasFlag_mask]
    · have hne := val_roundX_ne_of_overflow hv hb hfin
      have htiny : ¬roundsBelow v rc (-16382) := fun h => hb (roundsBelow_mono hv (by norm_num) h)
      have hfs : (roundX v rc force).2 = OE ||| PE := by rw [roundX_of_not_roundsBelow hv force hb]
      simp [hfs, hne, htiny, hasFlag_or, OE, PE, hasFlag_mask]
  · have hb : ¬roundsBelow v rc 16384 := fun h => by
      obtain ⟨h', -⟩ := roundX_of_roundsBelow hv force h
      simp [h'] at hfin
    rw [roundX_of_not_roundsBelow hv force hb] at hfin ⊢
    exact ⟨isInf_overflowImage hfin, rfl⟩
  · obtain h | h | h | h := roundX_flags hv rc force <;> rw [h] <;> decide

/-- Settles O8: the result is the nearest point, even at a tie, of a grid that holds every finite value near it. -/
theorem roundXNearest : Obligations.RoundXNearest :=
  fun _ force hv hf _ hy => roundX_nearest hv force hf hy

/-- Settles O9: the mode directs the magnitude according to the sign, and no finite magnitude is between. -/
theorem roundXDirected : Obligations.RoundXDirected := by
  intro v rc force hv hf
  obtain ⟨q, hq, hz, hin, hout, hbetween⟩ := roundX_magnitude hv rc force hf
  have hvs := applySign_sgnQ_abs v
  refine ⟨fun hrc => ?_, fun hrc => ?_, fun hrc => ?_, fun y hy => ?_⟩
  · rw [hz, abs_applySign, abs_of_nonneg hq]
    exact hin (.inl hrc)
  · calc val (roundX v rc force).1 = applySign (sgnQ v) q := hz
      _ ≤ applySign (sgnQ v) |v| :=
        applySign_le (fun hs => hin (.inr (.inr ⟨hrc, hs⟩))) (fun hs => hout (.inr ⟨hrc, hs⟩))
      _ = v := hvs
  · calc v = applySign (sgnQ v) |v| := hvs.symm
      _ ≤ applySign (sgnQ v) q :=
        applySign_le (fun hs => hout (.inl ⟨hrc, hs⟩)) (fun hs => hin (.inr (.inl ⟨hrc, hs⟩)))
      _ = val (roundX v rc force).1 := hz.symm
  · have h := not_between_of_abs (sgnQ v) (abs_nonneg v) hq (hbetween y hy)
    rw [hvs, ← hz] at h
    exact ⟨fun ⟨h1, h2⟩ => absurd h (not_le.mpr (mul_neg_of_pos_of_neg (sub_pos.mpr h1) (sub_neg.mpr h2))),
      fun ⟨h1, h2⟩ => absurd h (not_le.mpr (mul_neg_of_neg_of_pos (sub_neg.mpr h2) (sub_pos.mpr h1)))⟩

/-- Settles O10: overflow is the failure of the bound of the mode, and the result is the image of the mode and sign. -/
theorem overflowResultByMode : Obligations.OverflowResultByMode := by
  intro v force hv
  refine ⟨fun rc => hasFlag_oe_roundX_iff hv rc force, fun h => roundX_of_not_roundsBelow hv force h, fun h => ?_,
    fun h => ?_, fun h => ?_⟩ <;>
  · rw [roundX_of_not_roundsBelow hv force h]
    by_cases hneg : v < 0
    · rw [sgnQ_of_neg hneg, if_pos hneg]
      rfl
    · rw [sgnQ_of_pos (lt_of_le_of_ne (not_lt.mp hneg) hv.symm), if_neg hneg]
      rfl

/-- Settles O11: RN and RZ are their own mirrors, and RD and RU each other's. -/
theorem roundXMirrors : Obligations.RoundXMirrors := by
  intro v force hv
  simp only [← negateImage_eq]
  refine ⟨?_, roundX_neg hv .up force, roundX_neg hv .down force⟩
  rintro rc (rfl | rfl)
  · exact roundX_neg hv .nearestEven force
  · exact roundX_neg hv .towardZero force

/-- Settles O12: clearing the sign is a mask, and `R` is all that is written. -/
theorem absClearsSign : Obligations.AbsClearsSign := exec_abs

/-- Settles O13: flipping the sign is a mask, its own inverse, and the three host operations are three steps. -/
theorem negateFlipsSign : Obligations.NegateFlipsSign := by
  refine ⟨exec_negate, fun s rest hp => ?_⟩
  have hrun := (run_succ (step_issue_negate hp) 2).trans
    ((run_succ (step_movAR rfl) 1).trans (run_succ (step_issue_negate rfl) 0))
  exact ⟨_, hrun, xor_sign_twice s.a, rfl⟩

/-- Settles O14: each command tests for an unsupported operand first. -/
theorem unsupportedOperand : Obligations.UnsupportedOperand := fun _ =>
  ⟨exec_f2xm1_of_unsupported, fun _ hi h => exec_byValue_of_unsupported hi h,
    fun _ hi h => exec_rem_of_unsupported hi h, fun _ hi h => exec_trig_of_invalid hi (trigCore_of_unsupported h),
    fun h => exec_fsincos_of_invalid (trigCore_of_unsupported h)⟩

/-- Settles O15: the NaN of the operands, quieted, is the invalid outcome of each command. -/
theorem nanOperandInPlace : Obligations.NanOperandInPlace := fun _ =>
  ⟨fun _ hi ha hb h => exec_rem_of_nan hi ha hb h, fun _ hi h => exec_trig_of_invalid hi (trigCore_of_nan h),
    fun h => exec_fsincos_of_invalid (trigCore_of_nan h)⟩

/-- Settles O16: a NaN is tested for after the unsupported operands, and a signaling one raises IE. -/
theorem nanOperandByValue : Obligations.NanOperandByValue := by
  refine fun s => ⟨fun h => ?_, fun i hi hu h => ?_, fun i hi hu ha h hpos => ?_⟩
  · rw [exec_f2xm1_of_nan h, snanFlags1_eq]
  · rw [exec_byValue_of_nan_a hi hu h, snanFlags2_eq]
  · rw [exec_byValue_of_nan_b hi hu ha h hpos, snanFlags1_eq]

end Sys2Proof.Proofs
end

section
/-! SUPPORT. The sign bit of a product, and the sign bits and range of the kernels' values
(spec/41_constants_polyeval.md R162 to R165). -/

namespace Sys2Proof.Machine

/-- A value whose sign follows that of a nonzero `v` is nonzero and has the sign bit of `v`. -/
theorem sgnQ_eq_of_sign {v w : ℚ} (hv : v ≠ 0) (hpos : 0 < v → 0 < w) (hneg : v < 0 → w < 0) :
    w ≠ 0 ∧ sgnQ w = sgnQ v := by
  rcases lt_or_gt_of_ne hv with h | h
  · exact ⟨(hneg h).ne, by rw [sgnQ_of_neg h, sgnQ_of_neg (hneg h)]⟩
  · exact ⟨(hpos h).ne', by rw [sgnQ_of_pos h, sgnQ_of_pos (hpos h)]⟩

/-- The sign bit of a product is the exclusive or of the sign bits. -/
theorem sgnQ_mul {v w : ℚ} (hv : v ≠ 0) (hw : w ≠ 0) : sgnQ (v * w) = (sgnQ v ^^ sgnQ w) := by
  rcases lt_or_gt_of_ne hv with h | h <;> rcases lt_or_gt_of_ne hw with h' | h'
  · rw [sgnQ_of_pos (mul_pos_of_neg_of_neg h h'), sgnQ_of_neg h, sgnQ_of_neg h']; rfl
  · rw [sgnQ_of_neg (mul_neg_of_neg_of_pos h h'), sgnQ_of_neg h, sgnQ_of_pos h']; rfl
  · rw [sgnQ_of_neg (mul_neg_of_pos_of_neg h h'), sgnQ_of_pos h, sgnQ_of_neg h']; rfl
  · rw [sgnQ_of_pos (mul_pos h h'), sgnQ_of_pos h, sgnQ_of_pos h']; rfl

/-- A forced rounding raises PE and keeps the sign (R125, R128). -/
theorem roundX_force_sign {v : ℚ} (hv : v ≠ 0) (rc : RoundingMode) :
    hasFlag (roundX v rc true).2 .pe = true ∧ signBit (roundX v rc true).1 = sgnQ v :=
  ⟨roundX_force hv rc, signBit_roundX hv rc true⟩

end Sys2Proof.Machine

namespace Sys2Proof.Kernels

open Sys2Proof.Machine

variable (k : Kernels)

/-- `K_2XM1` has the sign of its argument (R163). -/
theorem sgnQ_k2xm1 {v : ℚ} (hv : v ≠ 0) : k.k2xm1 v ≠ 0 ∧ sgnQ (k.k2xm1 v) = sgnQ v :=
  sgnQ_eq_of_sign hv (k.k2xm1_pos v) (k.k2xm1_neg v)

/-- `K_LOG2` is negative exactly below one, off the powers of two (R164). -/
theorem sgnQ_kLog2 {v : ℚ} (hv : 0 < v) (hk : ∀ n : ℤ, v ≠ (2 : ℚ) ^ n) :
    k.kLog2 v ≠ 0 ∧ sgnQ (k.kLog2 v) = decide (v < 1) := by
  have h1 : v - 1 ≠ 0 := sub_ne_zero.mpr (hk 0)
  obtain ⟨h0, hs⟩ := sgnQ_eq_of_sign h1 (fun h => k.kLog2_pos v (sub_pos.mp h) hk)
    (fun h => k.kLog2_neg v hv (sub_neg.mp h) hk)
  exact ⟨h0, hs.trans (by simp only [sgnQ, sub_neg])⟩

/-- `K_LOG2P1` has the sign of its argument inside the domain (R165). -/
theorem sgnQ_kLog2p1 {v : ℚ} (hv : v ≠ 0) (hb : |v| ≤ k.log2p1Bound) :
    k.kLog2p1 v ≠ 0 ∧ sgnQ (k.kLog2p1 v) = sgnQ v :=
  sgnQ_eq_of_sign hv (fun h => k.kLog2p1_pos v h (abs_le.mp hb).2) (fun h => k.kLog2p1_neg v h (abs_le.mp hb).1)

/-- `K_ATAN` is positive and at most a quarter of the stored pi (R162). -/
theorem kAtan_range {p : Params} (hl : p.legal = true) {u w : ℚ} (hu : 0 < u) (huw : u ≤ w) :
    0 < k.kAtan p.constPi u w ∧ k.kAtan p.constPi u w ≤ p.constPi / 4 := by
  obtain ⟨p1, p2⟩ := pi_bounds hl
  exact ⟨k.kAtan_pos _ u w p1 p2 hu huw, k.kAtan_le _ u w p1 p2 hu huw⟩

end Sys2Proof.Kernels
end

section
/-! SUPPORT. The general paths of the by-value commands: F2XM1, FYL2X and FYL2XP1 of finite operands
(spec/43_explog.md R223, R231 to R235), and the angle of FPATAN (spec/44_fpatan.md R268). -/

namespace Sys2Proof.Machine

/-- F2XM1 of a finite operand other than the exact ones (R223). -/
theorem f2xm1Out_general (k : KernelFns) (p : Params) (rc : RoundingMode) {x : Image} (hf : isFinite x = true)
    (hz : isZero x = false) (h1 : val x ≠ 1) (h2 : val x ≠ -1) :
    f2xm1Out k p rc x = .rounded (roundX (k.k2xm1 (val x)) rc true) (denormalFlags1 x) := by
  obtain ⟨hu, hn, hi⟩ := finite_class hf
  simp [f2xm1Out, hu, hn, hi, hz, h1, h2]

/-- FYL2X of a finite positive `x` other than one and a finite nonzero `y` (R226, R230, R231). -/
theorem fyl2xOut_general (k : KernelFns) (p : Params) (rc : RoundingMode) {x y : Image} (hx : isFinite x = true)
    (hpos : 0 < val x) (h1 : val x ≠ 1) (hy : isFinite y = true) (hzy : isZero y = false) :
    fyl2xOut k p rc x y = fyl2xGeneral k rc x y := by
  obtain ⟨hu, hn, hi⟩ := finite_class hx
  obtain ⟨huy, hny, hiy⟩ := finite_class hy
  have hzx : isZero x = false := by
    by_contra h
    exact hpos.ne' (zero_class (by simpa using h)).2.2.2.2
  have hs : signBit x = false := by rw [← sgnQ_val hpos.ne', sgnQ_of_pos hpos]
  simp [fyl2xOut, fyl2xPositive, hu, hn, hi, huy, hny, hiy, hzx, hs, h1, hzy]

section fyl2xp1
variable {k : KernelFns} (p : Params) (rc : RoundingMode) {x y : Image} (hx : isFinite x = true) (hz : isZero x = false)
  (hb : |val x| ≤ k.log2p1Bound)
include hx hz hb

/-- A bounded finite operand is inside the domain (R233, R236). -/
theorem outsideLog2p1_eq_false : outsideLog2p1 k x = false := by
  obtain ⟨-, -, hi⟩ := finite_class hx
  simpa [outsideLog2p1, hi, hz, absQ_eq_abs] using hb

/-- FYL2XP1 inside the domain, `y` an infinity (R235). -/
theorem fyl2xp1Out_of_inf (hy : isInf y = true) :
    fyl2xp1Out k p rc x y = .out (infImage (signBit x ^^ signBit y)) noFlags := by
  obtain ⟨hu, hn, -⟩ := finite_class hx
  obtain ⟨huy, hny, -⟩ := inf_class hy
  simp [fyl2xp1Out, hu, hn, huy, hny, outsideLog2p1_eq_false hx hz hb, hy, hz]

/-- FYL2XP1 inside the domain, `y` a zero (R234). -/
theorem fyl2xp1Out_of_zero (hy : isZero y = true) :
    fyl2xp1Out k p rc x y = .out (zeroImage (signBit x ^^ signBit y)) noFlags := by
  obtain ⟨hu, hn, -⟩ := finite_class hx
  obtain ⟨huy, hny, hiy, -⟩ := zero_class hy
  simp [fyl2xp1Out, hu, hn, huy, hny, hiy, outsideLog2p1_eq_false hx hz hb, hy]

/-- FYL2XP1 inside the domain, `y` finite and nonzero (R232). -/
theorem fyl2xp1Out_general (hy : isFinite y = true) (hzy : isZero y = false) :
    fyl2xp1Out k p rc x y = .rounded (roundX (val y * k.kLog2p1 (val x)) rc true) (denormalFlags2 x y) := by
  obtain ⟨hu, hn, -⟩ := finite_class hx
  obtain ⟨huy, hny, hiy⟩ := finite_class hy
  simp [fyl2xp1Out, hu, hn, huy, hny, hiy, outsideLog2p1_eq_false hx hz hb, hz, hzy]

end fyl2xp1

/-- FPATAN of finite nonzero operands (R262). -/
theorem fpatanOut_general (k : KernelFns) (p : Params) (rc : RoundingMode) {y x : Image} (hy : isFinite y = true)
    (hzy : isZero y = false) (hx : isFinite x = true) (hzx : isZero x = false) :
    fpatanOut k p rc y x =
      .rounded (roundX (applySign (signBit y) (atanTheta k p.constPi y x)) rc true) (denormalFlags2 y x) := by
  obtain ⟨hu, hn, hi⟩ := finite_class hy
  obtain ⟨hux, hnx, hix⟩ := finite_class hx
  simp [fpatanOut, hu, hn, hi, hux, hnx, hix, hzy, hzx]

/-- The angle where `|y| <= |x|`: the kernel's value, from pi for a negative `x` (R268). -/
theorem atanTheta_of_le (k : KernelFns) (constPi : ℚ) {y x : Image} (h : |val y| ≤ |val x|) :
    atanTheta k constPi y x = if signBit x then constPi - k.kAtan constPi |val y| |val x|
      else k.kAtan constPi |val y| |val x| := by
  simp only [atanTheta, atanCompose, absQ_eq_abs, h, decide_true, if_true]

/-- The angle where `|x| < |y|`: the kernel's value of the inverse ratio, to one side of half pi (R268). -/
theorem atanTheta_of_lt (k : KernelFns) (constPi : ℚ) {y x : Image} (h : |val x| < |val y|) :
    atanTheta k constPi y x = if signBit x then constPi / 2 + k.kAtan constPi |val x| |val y|
      else constPi / 2 - k.kAtan constPi |val x| |val y| := by
  simp only [atanTheta, atanCompose, absQ_eq_abs, not_le.mpr h, decide_false, if_false, Bool.false_eq_true]

end Sys2Proof.Machine
end

section
/-! The statements of the general paths of F2XM1, FYL2X, FYL2XP1 and FPATAN, and the multiples of the stored pi: each is
one rounding of a kernel's value (spec/41_constants_polyeval.md R151, R152, R162 to R165). -/

namespace Sys2Proof.Proofs

open Sys2Proof.Machine

/-- Settles O25: the kernel's value is nonzero and has the sign of `A`. -/
theorem f2xm1GeneralPath : Obligations.F2xm1GeneralPath := by
  intro s hf hz h1 h2
  have hv := val_ne_zero hf hz
  obtain ⟨hk, hs⟩ := Config.kernels.sgnQ_k2xm1 hv
  obtain ⟨hpe, hsign⟩ := roundX_force_sign hk s.rounding
  refine ⟨?_, hpe, ?_⟩
  · rw [exec_eq_effect, effect, f2xm1Out_general _ _ _ hf hz h1 h2, State.commitR_rounded, denormalFlags1_eq]
  · rw [hsign, hs, sgnQ_val hv]

/-- Settles O31: the product with the kernel's value has the sign of `y` and of the logarithm. -/
theorem fyl2xGeneralPath : Obligations.Fyl2xGeneralPath := by
  intro s hx hpos hk hy hzy
  have hv := val_ne_zero hy hzy
  obtain ⟨hk0, hs⟩ := Config.kernels.sgnQ_kLog2 hpos hk
  obtain ⟨hpe, hsign⟩ := roundX_force_sign (mul_ne_zero hv hk0) s.rounding
  refine ⟨?_, hpe, ?_⟩
  · rw [exec_eq_effect, effect, fyl2xOut_general _ _ _ hx hpos (hk 0) hy hzy,
      fyl2xGeneral_none _ _ _ (fun n => by rw [pow2_eq_zpow]; exact hk n), State.commitR_rounded, denormalFlags2_eq]
  · rw [hsign, sgnQ_mul hv hk0, hs, sgnQ_val hv]

/-- Settles O33: inside the domain the product with the kernel's value has the sign of `x` times `y`. -/
theorem fyl2xp1InsideDomain : Obligations.Fyl2xp1InsideDomain := by
  refine ⟨fun _ => rfl, fun k s hx hz hb => ⟨fun hy => ?_, fun hy => ?_, fun hy hzy => ?_⟩⟩
  · rw [fyl2xp1With, fyl2xp1Out_of_inf _ _ hx hz hb hy, State.commitR_out]
  · rw [fyl2xp1With, fyl2xp1Out_of_zero _ _ hx hz hb hy, State.commitR_out]
  · have hva := val_ne_zero hx hz
    have hvb := val_ne_zero hy hzy
    obtain ⟨hk, hs⟩ := k.sgnQ_kLog2p1 hva hb
    obtain ⟨hpe, hsign⟩ := roundX_force_sign (mul_ne_zero hvb hk) s.rounding
    refine ⟨?_, hpe, ?_⟩
    · rw [fyl2xp1With, fyl2xp1Out_general _ _ hx hz hb hy hzy, State.commitR_rounded, denormalFlags2_eq]
    · rw [hsign, sgnQ_mul hvb hk, hs, sgnQ_val hva, sgnQ_val hvb, Bool.xor_comm]

/-- Settles O37: the kernel's range puts the composed angle in the range of its quadrant. -/
theorem fpatanGeneralPath : Obligations.FpatanGeneralPath := by
  intro s hl hy hzy hx hzx
  have hvy := val_ne_zero hy hzy
  have hvx := val_ne_zero hx hzx
  have hle (h : |val s.a| ≤ |val s.b|) := Config.kernels.kAtan_range hl (abs_pos.mpr hvy) h
  have hlt (h : |val s.b| < |val s.a|) := Config.kernels.kAtan_range hl (abs_pos.mpr hvx) h.le
  refine ⟨atanTheta Config.kernels.toKernelFns s.par.constPi s.a s.b, fun h hs => ?_, fun h hs => ?_, fun h hs => ?_,
    fun h hs => ?_, ?_⟩
  · obtain ⟨hpos, hmax⟩ := hle h
    rw [atanTheta_of_le _ _ h, hs]
    exact ⟨rfl, hpos, hmax⟩
  · obtain ⟨hpos, hmax⟩ := hlt h
    rw [atanTheta_of_lt _ _ h, hs]
    exact ⟨rfl, by simp only [Bool.false_eq_true, if_false]; constructor <;> linarith⟩
  · obtain ⟨hpos, hmax⟩ := hlt h
    rw [atanTheta_of_lt _ _ h, hs]
    exact ⟨rfl, by simp only [if_true]; constructor <;> linarith⟩
  · obtain ⟨hpos, hmax⟩ := hle h
    rw [atanTheta_of_le _ _ h, hs]
    exact ⟨rfl, by simp only [if_true]; constructor <;> linarith⟩
  · obtain ⟨hpos, -⟩ := atanTheta_bounds hl hvy hvx
    rw [← applySign_eq]
    obtain ⟨hpe, hsign⟩ := roundX_force_sign (mt applySign_eq_zero.mp hpos.ne') s.rounding
    refine ⟨?_, hpe, hsign.trans (sgnQ_applySign hpos)⟩
    rw [exec_eq_effect, effect, fpatanOut_general _ _ _ hy hzy hx hzx, State.commitR_rounded, denormalFlags2_eq]

/-- Settles O38: sixteen roundings of fixed rationals, evaluated. -/
theorem piMultipleImages : Obligations.PiMultipleImages := by
  unfold Obligations.PiMultipleImages
  decide +kernel

end Sys2Proof.Proofs
end

section
/-! SUPPORT. FSIN, FCOS, FTAN and FSINCOS of an operand reduced in one step (spec/45_trig.md R284 to R294). -/

namespace Sys2Proof.Machine

/-- The full reduction of a finite nonzero operand up to the threshold: the quadrant table on the kernels' values (R284,
R285, R288). -/
theorem trigCore_reduced (k : KernelFns) (p : Params) (rc : RoundingMode) {x : Image} (hf : isFinite x = true)
    (hz : isZero x = false) (hD : ilog2 (val x) ≤ p.threshold) :
    trigCore k p rc x = .values (applySign (signBit x) (kernelSinCos k p |val x|).1) (kernelSinCos k p |val x|).2
      (denormalFlags1 x) := by
  rw [trigCore_finite k p rc hf hz, if_neg (not_lt.mpr hD)]
  rfl

section values
variable {s : State} {vsin vcos : ℚ} {fs : FlagSet}
  (h : trigCore Config.kernels.toKernelFns s.par s.rounding s.a = .values vsin vcos fs)
include h

/-- FSIN rounds the sine, a zero one to the sign of the operand (R290). -/
theorem exec_fsin_of_values : exec .fsin s = .next (s.afterTrig (roundT vsin (signBit s.a) s.rounding).1 .complete
    (fs ||| (roundT vsin (signBit s.a) s.rounding).2)) := by
  rw [exec_eq_effect, effect, fsinOut, h]
  rfl

/-- FCOS rounds the cosine (R291). -/
theorem exec_fcos_of_values : exec .fcos s = .next (s.afterTrig (roundT vcos false s.rounding).1 .complete
    (fs ||| (roundT vcos false s.rounding).2)) := by
  rw [exec_eq_effect, effect, fcosOut, h]
  rfl

/-- FSINCOS rounds both, with the union of the flags (R293). -/
theorem exec_fsincos_of_values : exec .fsincos s = .next (s.afterSincos (roundT vsin (signBit s.a) s.rounding).1
    (roundT vcos false s.rounding).1 .complete
    (fs ||| (roundT vsin (signBit s.a) s.rounding).2 ||| (roundT vcos false s.rounding).2)) := by
  rw [exec_eq_effect, effect, fsincosOut, h, State.commitTrig_some]

/-- FTAN of a zero cosine is invalid (R294). -/
theorem exec_ftan_of_cos_zero (h0 : vcos = 0) :
    exec .ftan s = .next (s.afterTrig s.par.defaultNan .invalid (fs ||| IE)) := by
  rw [exec_eq_effect, effect, ftanOut, h]
  simp only [if_pos h0, State.commitTrig_none]

end values

/-- A multiple of the modulus reduces to itself, with no residue (R284). -/
theorem trig_of_multiple {p : Params} (hl : p.legal = true) {a : ℚ} {n : ℤ} (ha : a = n * (p.constPi / 2)) :
    trigQuotient p a = n ∧ trigResidue p a = 0 := by
  have hP : trigModulus p ≠ 0 := by
    have := (pi_bounds hl).1
    unfold trigModulus
    positivity
  have hq : trigQuotient p a = n := by
    apply rneQ_eq_of_abs_lt
    rw [ha, ← trigModulus, mul_div_cancel_right₀ _ hP]
    norm_num
  exact ⟨hq, by rw [trigResidue, hq, ha, trigModulus, sub_self]⟩

/-- The quadrant table of an odd quotient takes the cosine from the sine (R285). -/
theorem quadrant_odd_snd {n : ℤ} (hn : n % 2 = 1) {s0 : ℚ} (c0 : ℚ) (h : s0 = 0) : (quadrant n s0 c0).2 = 0 := by
  rw [quadrant_eq]
  obtain h1 | h3 : n % 4 = 1 ∨ n % 4 = 3 := by omega
  · simp [h1, h]
  · simp [h3, h]

/-- No denormal has a zero cosine, so a zero one comes without DE (R294). -/
theorem denormalFlags1_of_cos_zero {p : Params} (hl : p.legal = true) {x : Image}
    (h0 : (kernelSinCos Config.kernels.toKernelFns p |val x|).2 = 0) : denormalFlags1 x = noFlags := by
  obtain ⟨vs, vc, h, -, -, hd⟩ := trigValues_spec hl x noFlags
  obtain ⟨-, hvc, -⟩ := TrigCore.values.inj h
  rw [denormalFlags1_eq, if_neg (by simp [hd (hvc.symm.trans h0)])]

end Sys2Proof.Machine
end

section
/-! SUPPORT. The sine and cosine commands of a finite operand: what they answer is bounded, and the flags are mild
(spec/41_constants_polyeval.md R160, R161; spec/60_exceptions.md R326). -/

namespace Sys2Proof.Machine

/-- No flag of an invalid operation, a division by zero or an overflow. -/
def mildFlags (fs : FlagSet) : Prop :=
  ∀ f ∈ [Flag.ie, .ze, .oe], hasFlag fs f = false

theorem mildFlags.or {fs fs' : FlagSet} (h : mildFlags fs) (h' : mildFlags fs') : mildFlags (fs ||| fs') :=
  fun f hf => by rw [hasFlag_or, h f hf, h' f hf]; rfl

theorem mildFlags_none : mildFlags noFlags := by unfold mildFlags; decide

theorem mildFlags_pe : mildFlags PE := by unfold mildFlags; decide

theorem mildFlags_ue : mildFlags UE := by unfold mildFlags; decide

theorem mildFlags_denormalFlags1 (x : Image) : mildFlags (denormalFlags1 x) := by
  obtain h | h := denormalFlags1_cases x
  · rw [h]; exact mildFlags_none
  · rw [h]; unfold mildFlags; decide

/-- What a sine or cosine command answers for a finite operand: a finite image, at most one in magnitude when Complete,
in `B` too where it is written; not Invalid, and no flag of R326. -/
structure TrigOut.Bounded (o : TrigOut) : Prop where
  cc : o.cc ≠ .invalid
  a_finite : isFinite o.a = true
  a_le : o.cc = .complete → |val o.a| ≤ 1
  b_le : ∀ z, o.b = some z → isFinite z = true ∧ |val z| ≤ 1
  flags : mildFlags o.fs

theorem oneImage_bounded : isFinite oneImage = true ∧ |val oneImage| ≤ 1 := by
  have hv : val oneImage = 1 := by decide +kernel
  exact ⟨by decide, by rw [hv, abs_one]⟩

theorem roundT_mild {v : ℚ} (h : |v| ≤ 1) (s0 : Bool) (rc : RoundingMode) : mildFlags (roundT v s0 rc).2 := by
  obtain ⟨-, -, h | h⟩ := roundT_bounded h s0 rc <;> rw [h]
  · exact mildFlags_pe
  · exact mildFlags_ue.or mildFlags_pe

/-- A partial step answers within the bound, as it is not Complete. -/
theorem TrigOut.bounded_of_partial {z : Image} {fs : FlagSet} (hz : isFinite z = true) (hfs : mildFlags fs) :
    TrigOut.Bounded ⟨z, none, .partialReductionNeeded, fs⟩ :=
  ⟨by simp, hz, by simp, by simp, hfs⟩

/-- One rounding of a value of at most one answers within the bound. -/
theorem trigComplete_bounded {v : ℚ} (h : |v| ≤ 1) (s0 : Bool) (rc : RoundingMode) {fs : FlagSet} (hfs : mildFlags fs) :
    (trigComplete (roundT v s0 rc) fs).Bounded :=
  have ⟨hfin, hle, _⟩ := roundT_bounded h s0 rc
  ⟨by simp [trigComplete], hfin, fun _ => hle, by simp [trigComplete], hfs.or (roundT_mild h s0 rc)⟩

/-- Everything the sine and cosine commands build their answer from: the zero operand, a partial step, or a sine and a
cosine of at most one (R282, R285, R287). -/
theorem trigCore_finite_cases {p : Params} (hl : p.legal = true) (rc : RoundingMode) {x : Image}
    (hf : isFinite x = true) :
    let c := trigCore Config.kernels.toKernelFns p rc x
    (c = .zero ∧ val x = 0) ∨ (∃ z fs, c = .stepped z fs ∧ isFinite z = true ∧ mildFlags fs) ∨
      (∃ vs vc, c = .values vs vc (denormalFlags1 x) ∧ |vs| ≤ 1 ∧ |vc| ≤ 1) := by
  rcases trigCore_cases hl rc x with
    ⟨_, _, _, hnf⟩ | ⟨hc, hz⟩ | ⟨z, fs, hc, _, _, hfin, hfs⟩ | ⟨vs, vc, hc, _, _, hs, hcos, _⟩
  · rw [hf] at hnf; cases hnf
  · exact .inl ⟨hc, (zero_class hz).2.2.2.2⟩
  · refine .inr (.inl ⟨z, fs, hc, hfin, ?_⟩)
    obtain rfl | rfl | rfl := hfs
    · exact mildFlags_none
    · exact mildFlags_pe
    · exact mildFlags_ue.or mildFlags_pe
  · exact .inr (.inr ⟨vs, vc, hc, hs, hcos⟩)

section bounded
variable {p : Params} (hl : p.legal = true) (rc : RoundingMode) {x : Image} (hf : isFinite x = true)
include hl hf

theorem fsinOut_bounded : (fsinOut Config.kernels.toKernelFns p rc x).Bounded := by
  rcases trigCore_finite_cases hl rc hf with ⟨hc, hz⟩ | ⟨z, fs, hc, hfin, hfs⟩ | ⟨vs, vc, hc, hs, -⟩ <;>
    rw [fsinOut, hc]
  · exact ⟨by simp, hf, by simp [hz], by simp, mildFlags_none⟩
  · exact TrigOut.bounded_of_partial hfin hfs
  · exact trigComplete_bounded hs _ _ (mildFlags_denormalFlags1 x)

theorem fcosOut_bounded : (fcosOut Config.kernels.toKernelFns p rc x).Bounded := by
  rcases trigCore_finite_cases hl rc hf with ⟨hc, -⟩ | ⟨z, fs, hc, hfin, hfs⟩ | ⟨vs, vc, hc, -, hcos⟩ <;>
    rw [fcosOut, hc]
  · exact ⟨by simp, oneImage_bounded.1, fun _ => oneImage_bounded.2, by simp, mildFlags_none⟩
  · exact TrigOut.bounded_of_partial hfin hfs
  · exact trigComplete_bounded hcos _ _ (mildFlags_denormalFlags1 x)

theorem fsincosOut_bounded : (fsincosOut Config.kernels.toKernelFns p rc x).Bounded := by
  rcases trigCore_finite_cases hl rc hf with ⟨hc, hz⟩ | ⟨z, fs, hc, hfin, hfs⟩ | ⟨vs, vc, hc, hs, hcos⟩ <;>
    rw [fsincosOut, hc]
  · exact ⟨by simp, hf, by simp [hz], by simpa using oneImage_bounded, mildFlags_none⟩
  · exact TrigOut.bounded_of_partial hfin hfs
  · obtain ⟨hfin, hle, -⟩ := roundT_bounded hs (signBit x) rc
    obtain ⟨hfin', hle', -⟩ := roundT_bounded hcos false rc
    exact ⟨by simp, hfin, fun _ => hle, by simpa using ⟨hfin', hle'⟩,
      ((mildFlags_denormalFlags1 x).or (roundT_mild hs _ _)).or (roundT_mild hcos _ _)⟩

end bounded

/-- A sine or cosine command ends with a bounded answer, and FSINCOS with one for `B` when Complete. -/
theorem effect_sincos_bounded {i : Instr} (hi : i ∈ [Instr.fsin, .fcos, .fsincos]) {s : State} (hl : s.par.legal = true)
    (hf : isFinite s.a = true) :
    ∃ o : TrigOut, effect i s = s.commitTrig o ∧ o.Bounded ∧ (o.cc = .complete → i = .fsincos → o.b ≠ none) := by
  simp only [List.mem_cons, List.not_mem_nil, or_false] at hi
  obtain rfl | rfl | rfl := hi
  · exact ⟨_, rfl, fsinOut_bounded hl _ hf, fun _ h => by cases h⟩
  · exact ⟨_, rfl, fcosOut_bounded hl _ hf, fun _ h => by cases h⟩
  · exact ⟨_, rfl, fsincosOut_bounded hl _ hf, fun hcc _ hb => by
      rw [fsincosOut_b_eq_none_iff.mp hb] at hcc; cases hcc⟩

end Sys2Proof.Machine
end

section
/-! The statements of the sine, cosine and tangent of an operand reduced in one step, and the bound of the sine and
cosine (spec/41_constants_polyeval.md R160, R161; spec/45_trig.md R284 to R294). -/

namespace Sys2Proof.Proofs

open Sys2Proof.Machine

/-- Settles O42: the reduction of R284 is the quotient and the residue, and each command rounds the table's values. -/
theorem sineCosineResults : Obligations.SineCosineResults := by
  intro s hl hf hz hD
  obtain ⟨hsum, hn, hr, htie⟩ := trig_reduction hl (abs_nonneg (val s.a))
  have hc := trigCore_reduced Config.kernels.toKernelFns s.par s.rounding hf hz hD
  rw [kernelSinCos, quadrant_eq, applySign_eq, denormalFlags1_eq] at hc
  exact ⟨trigQuotient s.par |val s.a|, trigResidue s.par |val s.a|, hsum, hn, hr, htie, exec_fsin_of_values hc,
    exec_fcos_of_values hc, exec_fsincos_of_values hc, roundT_pe _ _ _, roundT_pe _ _ _⟩

/-- Settles O44: the residue of an exact odd multiple is zero, so the cosine is the kernel's sine of zero; no denormal
is such a multiple. -/
theorem tangentOfOddMultiple : Obligations.TangentOfOddMultiple := by
  intro s n hl hf hz hD hodd ha
  obtain ⟨hq, hr⟩ := trig_of_multiple hl ha
  have hc := trigCore_reduced Config.kernels.toKernelFns s.par s.rounding hf hz hD
  have h0 : (kernelSinCos Config.kernels.toKernelFns s.par |val s.a|).2 = 0 := by
    rw [kernelSinCos, hq, hr]
    exact quadrant_odd_snd hodd _ (Config.kernels.kSin_zero _)
  rw [exec_ftan_of_cos_zero hc h0, denormalFlags1_of_cos_zero hl h0]
  rfl

/-- Settles O45: each command ends with an image of at most one in magnitude, or a partial remainder. -/
theorem sineCosineBounded : Obligations.SineCosineBounded := by
  intro i s t hi hl hf hstep
  obtain ⟨o, ho, hb, hsome⟩ := effect_sincos_bounded hi hl hf
  obtain rfl : s.commitTrig o = t := ho ▸ exec_next_iff.mp hstep
  simp only [State.commitTrig_a, State.commitTrig_b, State.commitTrig_cc, State.commitTrig_ctx]
  refine ⟨fun hcc => ⟨hb.a_finite, hb.a_le hcc⟩, fun hcc hi' => ?_, hb.cc, hb.a_finite, fun f hfl => ?_⟩
  · obtain ⟨z, hz⟩ := Option.ne_none_iff_exists'.mp (hsome hcc hi')
    rw [hz, Option.getD_some]
    exact hb.b_le z hz
  · rw [hasFlag_or, hb.flags f hfl, Bool.or_false]

end Sys2Proof.Proofs
end

section
/-! SUPPORT. The remainder commands case by case (spec/42_remainder.md R183 to R195): the operands decided by class, the
full reduction, and the partial step, whose multiple of the divisor is one of eight divisors. -/

namespace Sys2Proof.Machine

section classes
variable (p : Params) (round : ℚ → ℤ) {x y : Image}

/-- A zero divisor or an infinite dividend (R183). -/
theorem remOut_of_zero_or_inf (hx : isUnsupported x = false) (hy : isUnsupported y = false) (hnx : isNan x = false)
    (hny : isNan y = false) (h : isZero y = true ∨ isInf x = true) :
    remOut p round x y = ⟨p.defaultNan, .invalid, 0, IE⟩ := by
  rw [remOut, if_neg (by simp [hx, hy]), if_neg (by simp [hnx, hny]), if_pos (by simpa using h), remInvalid]

/-- An infinite divisor or a zero dividend, where the quotient is zero (R185). -/
theorem remOut_of_quotient_zero (h : isFinite x = true ∧ isInf y = true ∨
    isZero x = true ∧ isFinite y = true ∧ isZero y = false) : remOut p round x y = ⟨x, .complete, 0, noFlags⟩ := by
  obtain ⟨hx, hy⟩ | ⟨hx, hy, hzy⟩ := h
  · obtain ⟨hux, hnx, hix⟩ := finite_class hx
    obtain ⟨huy, hny, hzy, -⟩ := inf_class hy
    simp [remOut, hux, hnx, hix, huy, hny, hzy, hy]
  · obtain ⟨hux, hnx, hix, -⟩ := zero_class hx
    obtain ⟨huy, hny, -⟩ := finite_class hy
    simp [remOut, hux, hnx, hix, huy, hny, hzy, hx]

/-- The full reduction of finite nonzero operands up to the threshold (R187). -/
theorem remOut_reduced (hx : isFinite x = true) (hy : isFinite y = true) (hzx : isZero x = false)
    (hzy : isZero y = false) (hD : ilog2 (val x) - ilog2 (val y) ≤ p.threshold) :
    remOut p round x y = ⟨encOrZero (signBit x) (val x - round (val x / val y) * val y), .complete,
      quotBits (round (val x / val y)), denormalFlags2 x y⟩ := by
  rw [remOut_finite p round hx hy hzx hzy]
  exact if_neg (not_lt.mpr hD)

end classes

/-- An outcome that does not depend on how the quotient is rounded is that of both commands (R190, R191). -/
theorem exec_rem_of_remOut {i : Instr} {s : State} {z : Image} {cc : CompletionCode} {q : QuotBits} {fs : FlagSet}
    (hi : i = .remIeee ∨ i = .remLegacy) (h : ∀ round, remOut s.par round s.a s.b = ⟨z, cc, q, fs⟩) :
    exec i s = .next (s.afterRem z cc q fs) := by
  rw [exec_eq_effect]
  obtain rfl | rfl := hi <;> rw [effect, h, State.commitRem_eq]

/-- The image of an exact remainder has the sign given for a zero, where a nonzero remainder has that sign (R188). -/
theorem signBit_encOrZero {s : Bool} {v : ℚ} (h : v ≠ 0 → sgnQ v = s) : signBit (encOrZero s v) = s := by
  by_cases h0 : v = 0
  · rw [encOrZero, if_pos h0, signBit_zeroImage]
  · rw [encOrZero, if_neg h0, enc, signBit_roundX h0, h h0]

/-- The remainder by the nearest quotient: at most half the divisor, with an even quotient at a tie (R187). -/
theorem remainder_nearest (a : ℚ) {b : ℚ} (hb : b ≠ 0) :
    2 * |a - rneQ (a / b) * b| ≤ |b| ∧ (2 * |a - rneQ (a / b) * b| = |b| → rneQ (a / b) % 2 = 0) := by
  obtain ⟨hle, heven⟩ := rneQ_spec (a / b)
  refine ⟨by linarith [rem_bound hb hle], fun h => heven (mul_right_cancel₀ (abs_ne_zero.mpr hb) ?_)⟩
  rw [← abs_rem hb]
  linarith

/-- The remainder by the truncated quotient: less than the divisor, and of the sign of the dividend (R187, R191). -/
theorem remainder_truncated {a b : ℚ} (ha : a ≠ 0) (hb : b ≠ 0) :
    |a - truncQ (a / b) * b| < |b| ∧ (a - truncQ (a / b) * b ≠ 0 → sgnQ (a - truncQ (a / b) * b) = sgnQ a) := by
  obtain ⟨hlt, -, hside⟩ := truncQ_spec (a / b)
  refine ⟨?_, fun h => sgnQ_of_mul_nonneg ?_ h ha⟩
  · rw [abs_rem hb]
    exact mul_lt_of_lt_one_left (abs_pos.mpr hb) hlt
  · calc 0 ≤ a / b * (a / b - truncQ (a / b)) * (b * b) := mul_nonneg hside (mul_self_nonneg b)
      _ = a / b * b * ((a / b - truncQ (a / b)) * b) := by ring
      _ = a * (a - truncQ (a / b) * b) := by rw [div_mul_cancel₀ _ hb, ← remainder_eq hb]

/-- A nonzero value is its magnitude with the sign bit of its image (R20). -/
theorem applySign_signBit_abs_val {x : Image} (h : val x ≠ 0) : applySign (signBit x) |val x| = val x := by
  rw [← sgnQ_val h, applySign_sgnQ_abs]

/-- Giving a value a sign is multiplying it by an integer. -/
theorem exists_int_applySign (s : Bool) : ∃ c : ℤ, ∀ q, applySign s q = c * q :=
  ⟨if s then -1 else 1, fun q => by rw [applySign_eq]; push_cast; rfl⟩

/-- The magnitude of a value is an integer times it. -/
theorem exists_int_abs (q : ℚ) : ∃ c : ℤ, |q| = c * q := by
  obtain h | h := abs_choice q
  · exact ⟨1, by simp [h]⟩
  · exact ⟨-1, by simp [h]⟩

/-- A partial step takes off a multiple of eight divisors, where the scaled divisor is at least three binades above the
divisor (R195). -/
theorem partialRemainder_multiple_of_eight (s : Bool) (S : ℕ) (a b : ℚ) {d : ℤ} (hd : S + 3 ≤ d) :
    ∃ k : ℤ, applySign s a - applySign s (partialRemainder S a |b| d) = 8 * k * b := by
  obtain ⟨j, hj⟩ := Int.eq_ofNat_of_zero_le (sub_nonneg.mpr hd)
  have hpow : pow2 (d - S) = 8 * 2 ^ j := by
    rw [show d - S = ((3 : ℕ) : ℤ) + (j : ℤ) by push_cast; omega, pow2_add, pow2_natCast, pow2_natCast]
    norm_num
  obtain ⟨c, hc⟩ := exists_int_applySign s
  obtain ⟨e, he⟩ := exists_int_abs b
  refine ⟨c * partialQuotient S a |b| d * 2 ^ j * e, ?_⟩
  rw [partialRemainder, scaledModulus, hpow, hc, hc]
  generalize partialQuotient S a |b| d = q
  rw [he]
  push_cast
  ring

/-- The remainder of a partial step has the sign given to it, a zero one included (R186, R188). -/
theorem signBit_partialRemainder (s : Bool) {r : ℚ} (hr : 0 ≤ r) : signBit (encOrZero s (applySign s r)) = s :=
  signBit_encOrZero fun h => sgnQ_applySign (lt_of_le_of_ne hr fun h0 => h (by rw [← h0, applySign_eq_zero]))

end Sys2Proof.Machine
end

section
/-! SUPPORT. The flags that the remainder commands, FPATAN and a partial trig step cannot add (spec/60_exceptions.md
R326). -/

namespace Sys2Proof.Machine

/-- Adding flags without a given one leaves that one as it was (R34). -/
theorem hasFlag_or_of_not (a : FlagSet) {b : FlagSet} {f : Flag} (h : hasFlag b f = false) :
    hasFlag (a ||| b) f = hasFlag a f := by
  rw [hasFlag_or, h, Bool.or_false]

/-- A remainder command raises IE or DE at most (R189). -/
theorem remOut_flags {p : Params} (hl : p.legal = true) (round : ℚ → ℤ) (x y : Image) :
    ∀ f ∈ [Flag.ze, .oe, .ue, .pe], hasFlag (remOut p round x y).fs f = false := by
  obtain ⟨-, h, -⟩ | ⟨-, h | h⟩ := remOut_cases hl round x y <;> rw [h] <;> decide

/-- FPATAN raises neither ZE nor OE (R326). -/
theorem fpatanOut_flags {p : Params} (hl : p.legal = true) (rc : RoundingMode) (y x : Image) (stream draws : ℕ) :
    ∀ f ∈ [Flag.ze, .oe], hasFlag ((fpatanOut Config.kernels.toKernelFns p rc y x).flags stream draws) f = false := by
  obtain ⟨z, fs, h, rfl | ⟨d, r, hd, hr, rfl⟩⟩ := fpatanOut_shape hl rc y x <;> rw [h, ByValue.flags]
  · decide
  · obtain rfl | rfl := hd <;> obtain rfl | rfl | rfl := hr <;> decide

/-- A partial trig step raises UE or PE at most (R287, R326). -/
theorem TrigOut.Shape.partial_flags {o : TrigOut} (h : o.Shape) (hcc : o.cc = .partialReductionNeeded) :
    ∀ f ∈ [Flag.ie, .de, .ze, .oe], hasFlag o.fs f = false := by
  obtain ⟨h, -⟩ | ⟨-, -, -, h⟩ | ⟨h, -⟩ := h
  · rw [h] at hcc; cases hcc
  · obtain h | h | h := h <;> rw [h] <;> decide
  · rw [h] at hcc; cases hcc

end Sys2Proof.Machine
end

section
/-! The statements of the remainder commands, and of where OE cannot be set (spec/42_remainder.md,
spec/60_exceptions.md R326). -/

namespace Sys2Proof.Proofs

open Sys2Proof.Machine

/-- Settles O17: the test for a zero divisor or an infinite dividend follows those for unsupported operands and NaNs. -/
theorem remInvalidOperands : Obligations.RemInvalidOperands :=
  fun _ _ hi hua hub hna hnb h => exec_rem_of_remOut hi fun round => remOut_of_zero_or_inf _ round hua hub hna hnb h

/-- Settles O18: both exits leave the dividend as its own remainder. -/
theorem remExactSpecialCases : Obligations.RemExactSpecialCases :=
  fun _ _ hi h => exec_rem_of_remOut hi fun round => remOut_of_quotient_zero _ round h

/-- Settles O19: the nearest quotient leaves at most half the divisor, which is exactly representable. -/
theorem remIeeeFullReduction : Obligations.RemIeeeFullReduction := by
  intro s hx hy hzx hzy hD
  have hb := val_ne_zero hy hzy
  obtain ⟨hhalf, htie⟩ := remainder_nearest (val s.a) hb
  have hle : |val s.a - rneQ (val s.a / val s.b) * val s.b| ≤ |val s.b| := by linarith [abs_nonneg (val s.b)]
  obtain ⟨hfin, hval, hzero, hcan⟩ := remainder_exact hy _ hle (rem_bound' hb (abs_sub_rneQ_le _)) (signBit s.a)
  refine ⟨_, _, ?_, hfin, hval, ?_⟩
  · rw [exec_eq_effect, effect, remOut_reduced _ _ hx hy hzx hzy hD, State.commitRem_eq, denormalFlags2_eq, quotBits]
  · rw [hval]
    exact ⟨hhalf, htie, hzero, fun h => (hcan h).1⟩

/-- Settles O20: the truncated quotient leaves less than the divisor, of the dividend's sign, exactly representable. -/
theorem remLegacyFullReduction : Obligations.RemLegacyFullReduction := by
  intro s hx hy hzx hzy hD
  have ha := val_ne_zero hx hzx
  have hb := val_ne_zero hy hzy
  obtain ⟨hlt, hsign⟩ := remainder_truncated ha hb
  obtain ⟨-, hquot, -⟩ := truncQ_spec (val s.a / val s.b)
  obtain ⟨hfin, hval, hzero, hcan⟩ := remainder_exact hy _ hlt.le (rem_bound' hb hquot) (signBit s.a)
  refine ⟨_, _, ?_, hfin, hval, ?_⟩
  · rw [exec_eq_effect, effect, remOut_reduced _ _ hx hy hzx hzy hD, State.commitRem_eq, denormalFlags2_eq, quotBits]
  · rw [hval]
    exact ⟨hlt, signBit_encOrZero fun h => (hsign h).trans (sgnQ_val ha), hzero, fun h => (hcan h).1⟩

/-- Settles O21: the floor of the ratio to the scaled divisor has the bits of `S`, and what it leaves is exact. -/
theorem remPartialStep : Obligations.RemPartialStep := by
  intro i s hi hl hx hy hzx hzy hD
  have ha := val_ne_zero hx hzx
  have hb := val_ne_zero hy hzy
  obtain ⟨-, hS, hST⟩ := steps_bounds hl
  obtain ⟨hlo, hhi⟩ := partialQuotient_bounds hS ha hb
  have hexec := rem_partial hi hx hy hzx hzy hD
  generalize ilog2 (val s.a) - ilog2 (val s.b) = d at *
  obtain ⟨hq, hr, hlt, hrem⟩ := partialRemainder_spec s.par.partialStep (abs_nonneg (val s.a)) (abs_pos.mpr hb) d
  obtain ⟨hfin, hval, hzero, hcan⟩ :=
    partialRemainder_exact hx hb s.par.partialStep (d := d) (by omega) (signBit s.a)
  obtain ⟨np, hnp⟩ := Int.eq_ofNat_of_zero_le hq
  rw [hnp] at hexec hlo hhi hrem
  refine ⟨np, _, ?_, hfin, ?_, ?_, signBit_partialRemainder _ hr, by exact_mod_cast hlo, by exact_mod_cast hhi, ?_⟩
  · rw [exec_eq_effect, hexec, denormalFlags2_eq]
    rfl
  · rw [hval, abs_applySign, abs_of_nonneg hr, hrem, pow2_eq_zpow]
    rfl
  · rw [hval, abs_applySign, abs_of_nonneg hr, ← pow2_eq_zpow]
    exact hlt
  · rw [hval]
    exact ⟨hzero, fun h => (hcan h).1⟩

/-- Settles O22: the scaled divisor is `2^(D - S)` divisors, `D - S` is at least 3, and less than one of it is left. -/
theorem remPartialStepSurvives : Obligations.RemPartialStepSurvives := by
  intro i s t hi hl hx hy hzx hzy hD ht
  obtain rfl := exec_next_iff.mp ht
  have hexec := rem_partial hi hx hy hzx hzy hD
  obtain ⟨-, -, hST⟩ := steps_bounds hl
  obtain ⟨-, -, hb, hdrop⟩ := rem_partial_drop hi hl (by rw [hexec]; rfl)
  refine ⟨?_, by rw [hb]; exact hdrop.imp_right And.right⟩
  obtain ⟨-, hval, -⟩ := partialRemainder_exact hx (val_ne_zero hy hzy) s.par.partialStep
    (d := ilog2 (val s.a) - ilog2 (val s.b)) (by omega) (signBit s.a)
  obtain ⟨k, hk⟩ := partialRemainder_multiple_of_eight (signBit s.a) s.par.partialStep |val s.a| (val s.b)
    (d := ilog2 (val s.a) - ilog2 (val s.b)) (by omega)
  rw [applySign_signBit_abs_val (val_ne_zero hx hzx), ← hval] at hk
  exact ⟨k, by rw [hexec]; exact hk⟩

/-- Settles O51: the flags each of the three kinds of outcome can raise. -/
theorem noOverflowThere : Obligations.NoOverflowThere := by
  intro i s t hl ht
  obtain rfl := exec_next_iff.mp ht
  refine ⟨?_, ?_, fun hcc hi f hf => ?_⟩
  · rintro (rfl | rfl) f hf <;> exact hasFlag_or_of_not _ (remOut_flags hl _ s.a s.b f hf)
  · rintro rfl f hf
    rw [effect, State.commitR_ctx]
    exact hasFlag_or_of_not _ (fpatanOut_flags hl _ s.a s.b _ _ f hf)
  · obtain ⟨o, ho, hshape, -⟩ := effect_trig_shape hi hl
    rw [ho, State.commitTrig_cc] at hcc
    rw [ho, State.commitTrig_ctx]
    exact hasFlag_or_of_not _ (hshape.partial_flags hcc f hf)

end Sys2Proof.Proofs
end

section
/-! SUPPORT. F2XM1, FYL2X and FYL2XP1 outside their general paths: what each answers by the classes of its operands
(spec/43_explog.md R222 to R236). -/

namespace Sys2Proof.Machine

/-- Finite images and infinities are neither unsupported nor NaNs (R110). -/
theorem number_class {x : Image} (h : isFinite x = true ∨ isInf x = true) :
    isUnsupported x = false ∧ isNan x = false := by
  obtain h | h := h
  · exact ⟨(finite_class h).1, (finite_class h).2.1⟩
  · exact ⟨(inf_class h).1, (inf_class h).2.1⟩

/-- A finite image of nonzero value is no zero (R22). -/
theorem isZero_eq_false_of_val {x : Image} (h : val x ≠ 0) : isZero x = false := by
  by_contra hz
  obtain ⟨-, -, -, -, hv⟩ := zero_class (Bool.eq_true_of_not_eq_false hz)
  exact h hv

/-- An image of positive value is no zero and has a clear sign bit (R20, R22). -/
theorem positive_class {x : Image} (h : 0 < val x) : isZero x = false ∧ signBit x = false :=
  ⟨isZero_eq_false_of_val h.ne', by rw [← sgnQ_val h.ne', sgnQ_of_pos h]⟩

/-- F2XM1 of a zero is the zero (R222). -/
theorem f2xm1Out_of_zero (k : KernelFns) (p : Params) (rc : RoundingMode) {x : Image} (h : isZero x = true) :
    f2xm1Out k p rc x = .out x noFlags := by
  obtain ⟨hu, hn, -⟩ := zero_class h
  simp [f2xm1Out, hu, hn, h]

/-- F2XM1 of an infinity is undefined (R225). -/
theorem f2xm1Out_of_inf (k : KernelFns) (p : Params) (rc : RoundingMode) {x : Image} (h : isInf x = true) :
    f2xm1Out k p rc x = .anyValue := by
  obtain ⟨hu, hn, hz, -⟩ := inf_class h
  simp [f2xm1Out, hu, hn, hz, h]

/-- F2XM1 of 1 is 1 (R224). -/
theorem f2xm1Out_of_one (k : KernelFns) (p : Params) (rc : RoundingMode) {x : Image} (hf : isFinite x = true)
    (h : val x = 1) : f2xm1Out k p rc x = .out oneImage noFlags := by
  obtain ⟨hu, hn, hi⟩ := finite_class hf
  have hz : isZero x = false := isZero_eq_false_of_val (by norm_num [h])
  simp [f2xm1Out, hu, hn, hi, hz, h]

/-- F2XM1 of -1 is -0.5 (R224). -/
theorem f2xm1Out_of_neg_one (k : KernelFns) (p : Params) (rc : RoundingMode) {x : Image} (hf : isFinite x = true)
    (h : val x = -1) : f2xm1Out k p rc x = .out minusHalfImage noFlags := by
  obtain ⟨hu, hn, hi⟩ := finite_class hf
  have hz : isZero x = false := isZero_eq_false_of_val (by norm_num [h])
  have h1 : val x ≠ 1 := by norm_num [h]
  rw [f2xm1Out, if_neg (by simp [hu]), if_neg (by simp [hn]), if_neg (by simp [hz]), if_neg (by simp [hi]), if_neg h1,
    if_pos h]

/-- The binary exponent of a finite value lies in the range of the format, denormals included (R21, R23). -/
theorem exponent_range_of_val {x : Image} {n : ℤ} (hx : isFinite x = true) (h : val x = pow2 n) :
    -16445 ≤ n ∧ n ≤ 16383 := by
  have habs : |val x| = pow2 n := by rw [h, abs_of_pos (pow2_pos n)]
  constructor
  · obtain ⟨m, hm⟩ := val_denormal_grid x
    rw [habs] at hm
    have hm0 : m ≠ 0 := by
      rintro rfl
      exact pow2_ne_zero n (by rw [hm, Nat.cast_zero, zero_mul])
    have h1 : (1 : ℚ) ≤ m := by exact_mod_cast Nat.one_le_iff_ne_zero.mpr hm0
    rw [← pow2_le_iff, hm]
    exact le_mul_of_one_le_left (pow2_pos _).le h1
  · have hlt : n < 16384 := pow2_lt_iff.mp (habs ▸ abs_val_lt hx)
    omega

section fyl2x
variable {k : KernelFns} {p : Params} {rc : RoundingMode} {x y : Image}

/-- FYL2X of a zero or of an operand with its sign set takes the path of R227. -/
theorem fyl2xOut_of_nonPositive (hux : isUnsupported x = false) (huy : isUnsupported y = false)
    (hnx : isNan x = false) (h : isZero x = true ∨ signBit x = true) :
    fyl2xOut k p rc x y = fyl2xNonPositive p x y := by
  rw [fyl2xOut, if_neg (by simp [hux, huy]), if_neg (by simp [hnx]), if_pos (by simpa using h)]

/-- FYL2X of a positive number, infinity included, and a number takes the path of R228 to R231. -/
theorem fyl2xOut_of_positive (hx : isFinite x = true ∨ isInf x = true) (hz : isZero x = false)
    (hs : signBit x = false) (hy : isFinite y = true ∨ isInf y = true) :
    fyl2xOut k p rc x y = fyl2xPositive k p rc x y := by
  obtain ⟨hux, hnx⟩ := number_class hx
  obtain ⟨huy, hny⟩ := number_class hy
  rw [fyl2xOut, if_neg (by simp [hux, huy]), if_neg (by simp [hnx]), if_neg (by simp [hz, hs]), if_neg (by simp [hny])]

/-- FYL2X of plus infinity: invalid for a zero `y`, else the infinity of the sign of `y` (R229). -/
theorem fyl2xOut_of_inf (hx : isInf x = true) (hs : signBit x = false) (hy : isFinite y = true ∨ isInf y = true) :
    fyl2xOut k p rc x y =
      if isZero y then invalidValue p else .out (infImage (signBit y)) noFlags := by
  obtain ⟨-, -, hz, -⟩ := inf_class hx
  rw [fyl2xOut_of_positive (.inr hx) hz hs hy, fyl2xPositive, if_pos hx]

section finitePositive
variable (hx : isFinite x = true) (hpos : 0 < val x)
include hx hpos

/-- FYL2X of a finite positive `x` and an infinite `y`: invalid for one, else an infinity of the sign of the product
(R228, R229). -/
theorem fyl2xOut_of_y_inf (hy : isInf y = true) : fyl2xOut k p rc x y =
    if val x = 1 then invalidValue p else .out (infImage (signBit y ^^ logSign x)) noFlags := by
  obtain ⟨hz, hs⟩ := positive_class hpos
  obtain ⟨-, -, hi⟩ := finite_class hx
  rw [fyl2xOut_of_positive (.inl hx) hz hs (.inr hy), fyl2xPositive, if_neg (by simp [hi]), if_pos hy]

/-- FYL2X of a finite positive `x` and a finite `y`: a zero of the sign of `y` for one, else a zero of the sign of the
product for a zero `y`, else the general path (R228 to R231). -/
theorem fyl2xOut_of_y_finite (hy : isFinite y = true) : fyl2xOut k p rc x y =
    if val x = 1 then .out (zeroImage (signBit y)) noFlags
    else if isZero y then .out (zeroImage (signBit y ^^ logSign x)) noFlags
    else fyl2xGeneral k rc x y := by
  obtain ⟨hz, hs⟩ := positive_class hpos
  obtain ⟨-, -, hi⟩ := finite_class hx
  obtain ⟨-, -, hiy⟩ := finite_class hy
  rw [fyl2xOut_of_positive (.inl hx) hz hs (.inl hy), fyl2xPositive, if_neg (by simp [hi]), if_neg (by simp [hiy])]

end finitePositive

/-- The sign of the logarithm above one (R229). -/
theorem logSign_of_one_lt (h : 1 < val x) : logSign x = false := decide_eq_false h.le.not_gt

/-- The sign of the logarithm below one (R229). -/
theorem logSign_of_lt_one (h : val x < 1) : logSign x = true := decide_eq_true h

end fyl2x

section fyl2xp1
variable {k : KernelFns} {p : Params} {rc : RoundingMode} {x y : Image}

/-- FYL2XP1 of a zero `x` and an infinite `y` is invalid (R235). -/
theorem fyl2xp1Out_of_zero_inf (hx : isZero x = true) (hy : isInf y = true) :
    fyl2xp1Out k p rc x y = invalidValue p := by
  obtain ⟨hu, hn, hi, -⟩ := zero_class hx
  obtain ⟨huy, hny, -⟩ := inf_class hy
  simp [fyl2xp1Out, outsideLog2p1, hu, hn, hi, huy, hny, hx, hy]

/-- FYL2XP1 of a zero `x` and a finite `y` is a zero (R234). -/
theorem fyl2xp1Out_of_zero_finite (hx : isZero x = true) (hy : isFinite y = true) :
    fyl2xp1Out k p rc x y = .out (zeroImage (signBit x ^^ signBit y)) noFlags := by
  obtain ⟨hu, hn, hi, -⟩ := zero_class hx
  obtain ⟨huy, hny, hiy⟩ := finite_class hy
  simp [fyl2xp1Out, outsideLog2p1, hu, hn, hi, huy, hny, hiy, hx]

/-- FYL2XP1 outside the domain is undefined, whatever number `y` is (R236). -/
theorem fyl2xp1Out_of_outside (hx : isFinite x = true ∨ isInf x = true) (hout : outsideLog2p1 k x = true)
    (huy : isUnsupported y = false) (hny : isNan y = false) : fyl2xp1Out k p rc x y = .anyValue := by
  obtain ⟨hu, hn⟩ := number_class hx
  rw [fyl2xp1Out, if_neg (by simp [hu, huy]), if_neg (by simp [hn, hny]), if_pos hout]

end fyl2xp1

/-- A finite operand beyond the bound is outside the domain: the bound is positive, so it is no zero (R233, R236). -/
theorem outsideLog2p1_of_bound_lt (k : Kernels) {x : Image} (h : k.log2p1Bound < |val x|) :
    outsideLog2p1 k.toKernelFns x = true := by
  have hz : isZero x = false := isZero_eq_false_of_val (abs_pos.mp (k.log2p1Bound_pos.trans h))
  simp [outsideLog2p1, hz, absQ_eq_abs, h]

/-! The three commands end by committing what their result functions answer (R220) -/

theorem exec_f2xm1 (s : State) :
    exec .f2xm1 s = .next (s.commitR (f2xm1Out Config.kernels.toKernelFns s.par s.rounding s.a)) := rfl

theorem exec_fyl2x (s : State) :
    exec .fyl2x s = .next (s.commitR (fyl2xOut Config.kernels.toKernelFns s.par s.rounding s.a s.b)) := rfl

theorem exec_fyl2xp1 (s : State) :
    exec .fyl2xp1 s = .next (s.commitR (fyl2xp1Out Config.kernels.toKernelFns s.par s.rounding s.a s.b)) := rfl

/-- An invalid operation leaves `DEFAULT_NAN` and IE (R118, R121). -/
theorem State.commitR_invalidValue (s : State) :
    s.commitR (invalidValue s.par) = s.afterByValue s.par.defaultNan IE := rfl

end Sys2Proof.Machine
end

section
/-! SUPPORT. The flags one command adds where its result is defined (spec/60_exceptions.md R327): IE alone, IE with ZE
by FYL2X, or DE beside the flags of one rounding. -/

namespace Sys2Proof.Machine

/-- What a defined outcome adds, FYL2X of a zero apart: IE alone, or DE beside the flags of one rounding. -/
def outcomeFlags (fs : FlagSet) : Prop :=
  fs = IE ∨ roundedFlags fs

/-- DE or nothing, with no rounding. -/
theorem roundedFlags_of_denormal {fs : FlagSet} (h : fs = noFlags ∨ fs = DE) : roundedFlags fs :=
  ⟨fs, noFlags, h, .inl rfl, by simp [noFlags]⟩

/-- The flags of one rounding, with no DE. -/
theorem roundedFlags_of_rounding {fs : FlagSet}
    (h : fs = noFlags ∨ fs = PE ∨ fs = UE ||| PE ∨ fs = OE ||| PE) : roundedFlags fs :=
  ⟨noFlags, fs, .inl rfl, h, by simp [noFlags]⟩

/-- The flags of a rounding never say that the operation is invalid, raise OE and UE only with PE, and not both
(R125 to R127). -/
theorem roundedFlags.combinations {fs : FlagSet} (h : roundedFlags fs) :
    hasFlag fs .ie = false ∧ hasFlag fs .ze = false ∧
      (hasFlag fs .oe = true → hasFlag fs .pe = true ∧ hasFlag fs .ue = false) ∧
      (hasFlag fs .ue = true → hasFlag fs .pe = true) := by
  obtain ⟨d, r, rfl | rfl, rfl | rfl | rfl | rfl, rfl⟩ := h <;> decide

/-- A trig command adds the flags of a defined outcome (R281 to R294). -/
theorem TrigOut.Shape.outcomeFlags {o : TrigOut} (h : o.Shape) : outcomeFlags o.fs := by
  obtain ⟨-, hfs, -⟩ | ⟨-, -, -, hfs⟩ | ⟨-, hfs | ⟨d, r, hd, hr, hfs⟩⟩ := h
  · exact .inl hfs
  · exact .inr (roundedFlags_of_rounding (hfs.imp_right (Or.imp_right .inl)))
  · exact .inr (hfs ▸ roundedFlags_none)
  · exact .inr ⟨d, r, hd, .inr hr, hfs⟩

/-- A remainder command adds IE alone, or DE at most (R182 to R189). -/
theorem remOut_outcomeFlags {p : Params} (hl : p.legal = true) (round : ℚ → ℤ) (x y : Image) :
    outcomeFlags (remOut p round x y).fs := by
  obtain ⟨-, hfs, -⟩ | ⟨-, hfs⟩ := remOut_cases hl round x y
  · exact .inl hfs
  · exact .inr (roundedFlags_of_denormal hfs)

/-- FPATAN adds IE alone, or the flags of one rounding (R262). -/
theorem fpatanOut_byValueShape {p : Params} (hl : p.legal = true) (rc : RoundingMode) (y x : Image) :
    (fpatanOut Config.kernels.toKernelFns p rc y x).Shape := by
  obtain ⟨z, fs, h, hfs | ⟨d, r, hd, hr, hfs⟩⟩ := fpatanOut_shape hl rc y x <;> rw [h]
  · exact .inl hfs
  · exact .inr ⟨d, r, hd, hr.imp_right (Or.imp_right .inl), hfs⟩

/-- A by-value outcome that draws nothing adds the flags of a defined outcome. -/
theorem ByValue.Shape.outcomeFlags {o : ByValue} (h : o.Shape) (hd : o.drawn = 0) (stream draws : ℕ) :
    outcomeFlags (o.flags stream draws) := by
  cases o with
  | out z fs => exact h
  | anyValue => exact absurd hd one_ne_zero

/-- The flags a command adds where its result is defined: those of a defined outcome, or IE with ZE by FYL2X. -/
def addedFlags (i : Instr) (fs : FlagSet) : Prop :=
  outcomeFlags fs ∨ (i = .fyl2x ∧ fs = IE ||| ZE)

/-- The end of a by-value command whose result is defined adds its outcome's flags. -/
theorem State.commitR_addedFlags (i : Instr) {s : State} {o : ByValue}
    (ho : o.Shape ∨ i = .fyl2x ∧ ∃ z, o = .out z (IE ||| ZE)) (hd : (s.commitR o).draws = s.draws) :
    ∃ added, (s.commitR o).ctx.flags = s.ctx.flags ||| added ∧ addedFlags i added := by
  have hdrawn : o.drawn = 0 := by simpa using hd
  refine ⟨_, by rw [State.commitR_ctx], ?_⟩
  obtain ho | ⟨hi, z, rfl⟩ := ho
  · exact .inl (ho.outcomeFlags hdrawn _ _)
  · exact .inr ⟨hi, rfl⟩

/-- A trig command adds the flags of its outcome. -/
theorem effect_trig_addedFlags {i : Instr} {s : State} (hi : i ∈ [Instr.fsin, .fcos, .ftan, .fsincos])
    (hl : s.par.legal = true) :
    ∃ added, (effect i s).ctx.flags = s.ctx.flags ||| added ∧ addedFlags i added := by
  obtain ⟨o, ho, hshape, -⟩ := effect_trig_shape hi hl
  exact ⟨o.fs, by rw [ho, State.commitTrig_ctx], .inl hshape.outcomeFlags⟩

/-- Every command adds such flags where it draws no free value (R225, R236, R327). -/
theorem effect_addedFlags {i : Instr} {s : State} (hl : s.par.legal = true) (hd : (effect i s).draws = s.draws) :
    ∃ added, (effect i s).ctx.flags = s.ctx.flags ||| added ∧ addedFlags i added := by
  cases i
  case abs | negate => exact State.commitR_addedFlags _ (.inl (.inr roundedFlags_none)) hd
  case f2xm1 => exact State.commitR_addedFlags _ (.inl (f2xm1Out_shape ..)) hd
  case fyl2x => exact State.commitR_addedFlags _ ((fyl2xOut_shape ..).symm.imp_right (⟨rfl, ·⟩)) hd
  case fyl2xp1 => exact State.commitR_addedFlags _ (.inl (fyl2xp1Out_shape ..)) hd
  case fpatan => exact State.commitR_addedFlags _ (.inl (fpatanOut_byValueShape hl ..)) hd
  case remIeee | remLegacy => exact ⟨_, rfl, .inl (remOut_outcomeFlags hl ..)⟩
  case fsin | fcos | ftan | fsincos => exact effect_trig_addedFlags (by decide) hl

end Sys2Proof.Machine
end

section
/-! The statements of F2XM1, FYL2X and FYL2XP1 outside their general paths, of FYL2X of a power of two
(spec/43_explog.md), and of the flags one command can add (spec/60_exceptions.md R327). -/

namespace Sys2Proof.Proofs

open Sys2Proof.Machine

/-- Settles O30: a power of two other than one goes to the exact product, and its exponent is one of the format. -/
theorem fyl2xPowerOfTwo : Obligations.Fyl2xPowerOfTwo := by
  intro s k hx hk hk0 hy hzy
  rw [← pow2_eq_zpow] at hk
  have h1 : val s.a ≠ 1 := fun h => hk0 (by rw [← ilog2_pow2 k, ← hk, h]; rfl)
  refine ⟨exponent_range_of_val hx hk, ?_⟩
  rw [exec_fyl2x, fyl2xOut_general _ _ _ hx (hk ▸ pow2_pos k) h1 hy hzy, fyl2xGeneral_some _ _ _ hk,
    State.commitR_rounded, denormalFlags2_eq]

/-- Settles O50: a command whose result is defined adds IE alone, IE with ZE by FYL2X, or the flags of a rounding. -/
theorem flagCombinations : Obligations.FlagCombinations := by
  intro i s t hl h0 ht hd
  obtain rfl := exec_next_iff.mp ht
  obtain ⟨added, hfl, hadded⟩ := effect_addedFlags hl hd
  rw [hfl, h0, noFlags, BitVec.zero_or]
  obtain (rfl | hr) | ⟨hi, rfl⟩ := hadded
  · exact ⟨by decide, nofun, by decide, by decide⟩
  · obtain ⟨hie, hze, hoe, hue⟩ := hr.combinations
    exact ⟨by simp [hie], by simp [hze], hoe, hue⟩
  · exact ⟨by decide, fun _ => ⟨by decide, hi⟩, by decide, by decide⟩

/-- Settles O24: each of the three operands is tested for before the kernel is used. -/
theorem f2xm1ExactCases : Obligations.F2xm1ExactCases := by
  refine fun s => ⟨fun h => ?_, fun hf h => ?_, fun hf h => ?_⟩
  · rw [exec_f2xm1, f2xm1Out_of_zero _ _ _ h, State.commitR_out]
  · rw [exec_f2xm1, f2xm1Out_of_one _ _ _ hf h, State.commitR_out, oneImage]
  · rw [exec_f2xm1, f2xm1Out_of_neg_one _ _ _ hf h, State.commitR_out, minusHalfImage]

/-- Settles O26: an infinity is the one operand of F2XM1 whose result is undefined. -/
theorem f2xm1OfInfinity : Obligations.F2xm1OfInfinity := by
  intro s h
  rw [exec_f2xm1, f2xm1Out_of_inf _ _ _ h, State.commitR_anyValue]

/-- Settles O27: the path of R227 comes before the test for a NaN in `B`. -/
theorem fyl2xNonPositive : Obligations.Fyl2xNonPositive := by
  intro s hua hub hna hle
  rw [exec_fyl2x, fyl2xOut_of_nonPositive hua hub hna hle, Machine.fyl2xNonPositive]
  refine ⟨fun hn => ?_, fun hn hz => ?_, fun hn hz => ?_⟩
  · rw [if_pos hn, State.commitR_out]
  · rw [if_neg (by simp [hn]), hz, State.commitR_out]
    rfl
  · rw [if_neg (by simp [hn]), hz, State.commitR_out]
    rfl

/-- Settles O28: one is tested for before the denormal operands are. -/
theorem fyl2xOfOne : Obligations.Fyl2xOfOne := by
  intro s hx h1
  have hpos : 0 < val s.a := h1 ▸ one_pos
  refine ⟨fun hy => ?_, fun hy => ?_⟩
  · rw [exec_fyl2x, fyl2xOut_of_y_finite hx hpos hy, if_pos h1, State.commitR_out]
  · rw [exec_fyl2x, fyl2xOut_of_y_inf hx hpos hy, if_pos h1, State.commitR_invalidValue]

/-- Settles O29: the sign of the product is that of `y`, flipped where the logarithm is negative. -/
theorem fyl2xInfinityAndZero : Obligations.Fyl2xInfinityAndZero := by
  intro s
  simp only [exec_fyl2x]
  refine ⟨fun hx hs hzy => ?_, fun hx hs hzy hy => ?_, fun hx h hy => ?_, fun hx hpos h hy => ?_, fun hx h hzy => ?_,
    fun hx hpos h hzy => ?_⟩
  · obtain ⟨-, -, -, hy, -⟩ := zero_class hzy
    rw [fyl2xOut_of_inf hx hs (.inl hy), if_pos hzy, State.commitR_invalidValue]
  · rw [fyl2xOut_of_inf hx hs hy, if_neg (by simp [hzy]), State.commitR_out]
  · rw [fyl2xOut_of_y_inf hx (one_pos.trans h) hy, if_neg h.ne', logSign_of_one_lt h, Bool.xor_false,
      State.commitR_out]
  · rw [fyl2xOut_of_y_inf hx hpos hy, if_neg h.ne, logSign_of_lt_one h, Bool.xor_true, State.commitR_out]
  · obtain ⟨-, -, -, hy, -⟩ := zero_class hzy
    rw [fyl2xOut_of_y_finite hx (one_pos.trans h) hy, if_neg h.ne', if_pos hzy, logSign_of_one_lt h, Bool.xor_false,
      State.commitR_out]
  · obtain ⟨-, -, -, hy, -⟩ := zero_class hzy
    rw [fyl2xOut_of_y_finite hx hpos hy, if_neg h.ne, if_pos hzy, logSign_of_lt_one h, Bool.xor_true, State.commitR_out]

/-- Settles O32: a zero is inside the domain whatever its bound, and the product with `y` is a zero or invalid. -/
theorem fyl2xp1OfZero : Obligations.Fyl2xp1OfZero := by
  refine fun s hx => ⟨fun hy => ?_, fun hy => ?_⟩
  · rw [exec_fyl2xp1, fyl2xp1Out_of_zero_finite hx hy, State.commitR_out]
  · rw [exec_fyl2xp1, fyl2xp1Out_of_zero_inf hx hy, State.commitR_invalidValue]

/-- Settles O34: the domain is tested for before `y` is looked at, but for NaNs and unsupported operands. -/
theorem fyl2xp1OutsideDomain : Obligations.Fyl2xp1OutsideDomain := by
  intro s hx hub hnb
  have hout : outsideLog2p1 Config.kernels.toKernelFns s.a = true := by
    obtain h | ⟨-, h⟩ := hx
    · simp [outsideLog2p1, h]
    · exact outsideLog2p1_of_bound_lt _ h
  rw [exec_fyl2xp1, fyl2xp1Out_of_outside (hx.symm.imp_left And.left) hout hub hnb, State.commitR_anyValue]

end Sys2Proof.Proofs
end

section
/-! SUPPORT. FPATAN off its general path: two zeros, the axes and the diagonals (spec/44_fpatan.md R262 to R266), and the
multiples of the stored pi they leave (R261). -/

namespace Sys2Proof.Machine

/-- FPATAN is its effect (R262). -/
theorem exec_fpatan (s : State) :
    exec .fpatan s = .next (s.commitR (fpatanOut Config.kernels.toKernelFns s.par s.rounding s.a s.b)) := rfl

/-- A multiple of a quarter of the stored pi, with the sign as a factor (R261). -/
theorem piMul_eq (constPi : ℚ) (n : ℕ) (sy : Bool) (rc : RoundingMode) :
    piMul constPi n sy rc = roundX ((if sy then -1 else 1) * (n * constPi / 4)) rc true := by
  rw [piMul, applySign_eq]

/-- A multiple of pi adds the flags of its rounding alone (R266). -/
theorem State.commitR_piResult (s : State) (p : Params) (rc : RoundingMode) (n : ℕ) (sy : Bool) :
    s.commitR (piResult p rc n sy) = s.afterByValue (piMul p.constPi n sy rc).1 (piMul p.constPi n sy rc).2 := by
  rw [piResult, State.commitR_rounded, noFlags, BitVec.zero_or]

section
variable {k : KernelFns} {p : Params} {rc : RoundingMode} {y x : Image}

/-- FPATAN of two zeros (R263). -/
theorem fpatanOut_of_zeros (hy : isZero y = true) (hx : isZero x = true) :
    fpatanOut k p rc y x = invalidValue p := by
  obtain ⟨huy, hny, -⟩ := zero_class hy
  obtain ⟨hux, hnx, -⟩ := zero_class hx
  simp [fpatanOut, huy, hny, hux, hnx, hy, hx]

/-- FPATAN on the `y` axis: a nonzero `y` over a zero `x`, or an infinite `y` over a finite `x` (R264, R265). -/
theorem fpatanOut_of_axisY (h : isFinite y = true ∧ isZero y = false ∧ isZero x = true ∨
    isInf y = true ∧ isFinite x = true) : fpatanOut k p rc y x = piResult p rc 2 (signBit y) := by
  obtain ⟨hy, hzy, hzx⟩ | ⟨hy, hx⟩ := h
  · obtain ⟨huy, hny, hiy⟩ := finite_class hy
    obtain ⟨hux, hnx, hix, -⟩ := zero_class hzx
    simp [fpatanOut, huy, hny, hiy, hux, hnx, hix, hzy, hzx]
  · obtain ⟨huy, hny, hzy, -⟩ := inf_class hy
    obtain ⟨hux, hnx, hix⟩ := finite_class hx
    simp [fpatanOut, huy, hny, hzy, hux, hnx, hix, hy]

/-- FPATAN on the `x` axis: a zero `y` with a nonzero `x`, or a finite `y` with an infinite `x` (R264, R265). -/
theorem fpatanOut_of_axisX (h : isZero y = true ∧ isFinite x = true ∧ isZero x = false ∨
    isFinite y = true ∧ isInf x = true) : fpatanOut k p rc y x = axisX p rc (signBit y) (signBit x) := by
  obtain ⟨hzy, hx, hzx⟩ | ⟨hy, hx⟩ := h
  · obtain ⟨huy, hny, hiy, -⟩ := zero_class hzy
    obtain ⟨hux, hnx, hix⟩ := finite_class hx
    simp [fpatanOut, huy, hny, hiy, hux, hnx, hix, hzy, hzx]
  · obtain ⟨huy, hny, hiy⟩ := finite_class hy
    obtain ⟨hux, hnx, hzx, -⟩ := inf_class hx
    simp [fpatanOut, huy, hny, hiy, hux, hnx, hzx, hx]

/-- FPATAN on the diagonals: two infinities (R265). -/
theorem fpatanOut_of_infs (hy : isInf y = true) (hx : isInf x = true) :
    fpatanOut k p rc y x = piResult p rc (if signBit x then 3 else 1) (signBit y) := by
  obtain ⟨huy, hny, hzy, -⟩ := inf_class hy
  obtain ⟨hux, hnx, -⟩ := inf_class hx
  simp [fpatanOut, huy, hny, hzy, hux, hnx, hy, hx]

end

section
variable {s : State}

/-- FPATAN on the `y` axis leaves half of pi with the sign of `y` (R264, R265). -/
theorem exec_fpatan_of_axisY (h : isFinite s.a = true ∧ isZero s.a = false ∧ isZero s.b = true ∨
    isInf s.a = true ∧ isFinite s.b = true) :
    exec .fpatan s = .next (s.commitR (piResult s.par s.rounding 2 (signBit s.a))) := by
  rw [exec_fpatan, fpatanOut_of_axisY h]

/-- FPATAN on the `x` axis, `x` positive, leaves a zero with the sign of `y` and no flag (R264, R265). -/
theorem exec_fpatan_of_axisX_pos (h : isZero s.a = true ∧ isFinite s.b = true ∧ isZero s.b = false ∨
    isFinite s.a = true ∧ isInf s.b = true) (hs : signBit s.b = false) :
    exec .fpatan s = .next (s.afterByValue (zeroImage (signBit s.a)) noFlags) := by
  rw [exec_fpatan, fpatanOut_of_axisX h, axisX, if_neg (by simp [hs]), State.commitR_out]

/-- FPATAN on the `x` axis, `x` negative, leaves pi with the sign of `y` (R264, R265). -/
theorem exec_fpatan_of_axisX_neg (h : isZero s.a = true ∧ isFinite s.b = true ∧ isZero s.b = false ∨
    isFinite s.a = true ∧ isInf s.b = true) (hs : signBit s.b = true) :
    exec .fpatan s = .next (s.commitR (piResult s.par s.rounding 4 (signBit s.a))) := by
  rw [exec_fpatan, fpatanOut_of_axisX h, axisX, if_pos hs]

end

end Sys2Proof.Machine
end

section
/-! The statements of FPATAN off its general path (spec/44_fpatan.md R263 to R266). -/

namespace Sys2Proof.Proofs

open Sys2Proof.Machine

/-- Settles O36: the operands are on the `y` axis, on the `x` axis or on a diagonal, and each names its multiple of pi. -/
theorem fpatanAxes : Obligations.FpatanAxes := by
  intro s pi
  have hpi (n : ℕ) : s.commitR (piResult s.par s.rounding n (signBit s.a)) = s.afterByValue (pi n).1 (pi n).2 := by
    rw [State.commitR_piResult, piMul_eq]
  refine ⟨fun hy hzy hzx => ?_, fun hzy hx hzx => exec_fpatan_of_axisX_pos (.inl ⟨hzy, hx, hzx⟩),
    fun hzy hx hzx hs => ?_, fun hy hx => ?_, fun hy hx => exec_fpatan_of_axisX_pos (.inr ⟨hy, hx⟩),
    fun hy hx hs => ?_, fun hy hx hs => ?_, fun hy hx hs => ?_⟩
  · rw [exec_fpatan_of_axisY (.inl ⟨hy, hzy, hzx⟩), hpi, Nat.cast_ofNat]
  · rw [exec_fpatan_of_axisX_neg (.inl ⟨hzy, hx, hzx⟩) hs, hpi, Nat.cast_ofNat]
  · rw [exec_fpatan_of_axisY (.inr ⟨hy, hx⟩), hpi, Nat.cast_ofNat]
  · rw [exec_fpatan_of_axisX_neg (.inr ⟨hy, hx⟩) hs, hpi, Nat.cast_ofNat]
  · rw [exec_fpatan, fpatanOut_of_infs hy hx, if_neg (by simp [hs]), hpi, Nat.cast_one]
  · rw [exec_fpatan, fpatanOut_of_infs hy hx, if_pos hs, hpi, Nat.cast_ofNat]

/-- Settles O35: two zeros are tested for before either axis. -/
theorem fpatanTwoZeros : Obligations.FpatanTwoZeros := by
  intro s hy hx
  rw [exec_fpatan, fpatanOut_of_zeros hy hx, State.commitR_invalidValue]

end Sys2Proof.Proofs
end

section
/-! SUPPORT. The trig commands of an infinity and of a zero, their partial step, and FTAN reduced in one step
(spec/45_trig.md R281, R282, R287, R292, R294). -/

namespace Sys2Proof.Machine

/-- An infinite operand of a trig command (R281). -/
theorem trigCore_of_inf {k : KernelFns} {p : Params} {rc : RoundingMode} {x : Image} (h : isInf x = true) :
    trigCore k p rc x = .invalid p.defaultNan := by
  obtain ⟨hu, hn, -⟩ := inf_class h
  rw [trigCore, if_neg (by simp [hu]), if_neg (by simp [hn]), if_pos h]

/-- A zero operand of a trig command (R282). -/
theorem trigCore_of_zero {k : KernelFns} {p : Params} {rc : RoundingMode} {x : Image} (h : isZero x = true) :
    trigCore k p rc x = .zero := by
  obtain ⟨hu, hn, hi, -⟩ := zero_class h
  rw [trigCore, if_neg (by simp [hu]), if_neg (by simp [hn]), if_neg (by simp [hi]), if_pos h]

/-- FSIN and FTAN leave a zero as it is (R282). -/
theorem exec_fsin_ftan_of_zero {i : Instr} {s : State} (hi : i ∈ [Instr.fsin, .ftan]) (h : isZero s.a = true) :
    exec i s = .next (s.afterTrig s.a .complete noFlags) := by
  simp only [List.mem_cons, List.not_mem_nil, or_false] at hi
  rw [exec_eq_effect]
  obtain rfl | rfl := hi
  · rw [effect, fsinOut, trigCore_of_zero h, State.commitTrig_none]
  · rw [effect, ftanOut, trigCore_of_zero h, State.commitTrig_none]

/-- FCOS of a zero of either sign is one (R282). -/
theorem exec_fcos_of_zero {s : State} (h : isZero s.a = true) :
    exec .fcos s = .next (s.afterTrig oneImage .complete noFlags) := by
  rw [exec_eq_effect, effect, fcosOut, trigCore_of_zero h, State.commitTrig_none]

/-- FSINCOS of a zero leaves it and writes one to `B` (R282, R293). -/
theorem exec_fsincos_of_zero {s : State} (h : isZero s.a = true) :
    exec .fsincos s = .next (s.afterSincos s.a oneImage .complete noFlags) := by
  rw [exec_eq_effect, effect, fsincosOut, trigCore_of_zero h, State.commitTrig_some]

/-- The image and the flags a partial trig step makes of the remainder `rp` of an operand of sign `s`: a zero of that
sign, or one rounding without force (R287). -/
def roundPartial (rc : RoundingMode) (s : Bool) (rp : ℚ) : Image × FlagSet :=
  if rp = 0 then (zeroImage s, noFlags) else roundX (applySign s rp) rc false

theorem trigPartial_eq (p : Params) (rc : RoundingMode) (s : Bool) (a : ℚ) (d : ℤ) :
    trigPartial p rc s a d =
      let zf := roundPartial rc s (partialRemainder p.partialStep a (trigModulus p) d)
      .stepped zf.1 zf.2 := by
  simp only [trigPartial, roundPartial]
  split <;> rfl

/-- A finite nonzero operand above the threshold takes a partial step (R283, R287). -/
theorem trigCore_above_threshold (k : KernelFns) (p : Params) (rc : RoundingMode) {x : Image}
    (hf : isFinite x = true) (hz : isZero x = false) (hD : p.threshold < ilog2 (val x)) :
    trigCore k p rc x =
      let zf := roundPartial rc (signBit x) (partialRemainder p.partialStep |val x| (trigModulus p) (ilog2 (val x)))
      .stepped zf.1 zf.2 := by
  rw [trigCore_finite k p rc hf hz, if_pos hD, trigPartial_eq]

/-- Every trig command writes what a partial step leaves to `A` alone, with PartialReductionNeeded (R287). -/
theorem exec_trig_of_stepped {i : Instr} {s : State} {z : Image} {fs : FlagSet}
    (hi : i ∈ [Instr.fsin, .fcos, .ftan, .fsincos])
    (h : trigCore Config.kernels.toKernelFns s.par s.rounding s.a = .stepped z fs) :
    exec i s = .next (s.afterTrig z .partialReductionNeeded fs) := by
  simp only [List.mem_cons, List.not_mem_nil, or_false] at hi
  rw [exec_eq_effect]
  obtain rfl | rfl | rfl | rfl := hi
  · rw [effect, fsinOut, h, State.commitTrig_none]
  · rw [effect, fcosOut, h, State.commitTrig_none]
  · rw [effect, ftanOut, h, State.commitTrig_none]
  · rw [effect, fsincosOut, h, State.commitTrig_none]

/-- FTAN is invalid for a zero cosine, and else rounds the quotient of the unrounded values (R292, R294). -/
theorem exec_ftan_of_values {s : State} {vsin vcos : ℚ} {fs : FlagSet}
    (h : trigCore Config.kernels.toKernelFns s.par s.rounding s.a = .values vsin vcos fs) :
    exec .ftan s = .next (if vcos = 0 then s.afterTrig s.par.defaultNan .invalid (fs ||| IE)
      else s.afterTrig (roundT (vsin / vcos) (signBit s.a) s.rounding).1 .complete
        (fs ||| (roundT (vsin / vcos) (signBit s.a) s.rounding).2)) := by
  by_cases h0 : vcos = 0
  · rw [if_pos h0, exec_ftan_of_cos_zero h h0]
  · rw [if_neg h0, exec_eq_effect, effect, ftanOut, h]
    simp only [if_neg h0, trigComplete, State.commitTrig_none]

end Sys2Proof.Machine
end

section
/-! The statements of the trig commands of an infinity and of a zero, of their partial step, and of FTAN reduced in one
step (spec/45_trig.md R281, R282, R287, R292, R294). -/

namespace Sys2Proof.Proofs

open Sys2Proof.Machine

/-- Settles O41: the four commands share the partial step, whose scaled modulus is `P * 2^(D-S)`. -/
theorem trigPartialStep : Obligations.TrigPartialStep := by
  intro i s hi hf hz hD
  have hc := trigCore_above_threshold Config.kernels.toKernelFns s.par s.rounding hf hz hD
  rw [partialRemainder, partialQuotient, scaledModulus, pow2_eq_zpow, roundPartial, applySign_eq] at hc
  exact exec_trig_of_stepped hi hc

/-- Settles O43: the reduction of R284 is the quotient and the residue, and FTAN divides the table's values. -/
theorem tangentResult : Obligations.TangentResult := by
  intro s hl hf hz hD
  obtain ⟨hsum, hn, hr, htie⟩ := trig_reduction hl (abs_nonneg (val s.a))
  have hc := trigCore_reduced Config.kernels.toKernelFns s.par s.rounding hf hz hD
  rw [kernelSinCos, quadrant_eq, applySign_eq, denormalFlags1_eq] at hc
  exact ⟨trigQuotient s.par |val s.a|, trigResidue s.par |val s.a|, hsum, hn, hr, htie, exec_ftan_of_values hc,
    roundT_pe _ _ _⟩

/-- Settles O39: an infinity is an invalid operand with `DEFAULT_NAN`. -/
theorem trigOfInfinity : Obligations.TrigOfInfinity := fun _ h =>
  ⟨fun _ hi => exec_trig_of_invalid hi (trigCore_of_inf h), exec_fsincos_of_invalid (trigCore_of_inf h)⟩

/-- Settles O40: each command has its own answer for the zero operand. -/
theorem trigOfZero : Obligations.TrigOfZero := fun _ h =>
  ⟨exec_fsin_ftan_of_zero (by decide) h, exec_fsin_ftan_of_zero (by decide) h, exec_fcos_of_zero h,
    exec_fsincos_of_zero h⟩

end Sys2Proof.Proofs
end

section
/-! SUPPORT. The completion code Invalid and the flag IE of the six commands that write `CC` (spec/60_exceptions.md R325):
a command ends either as an invalid operation, with IE and a quiet NaN, or not Invalid and without adding IE. -/

namespace Sys2Proof.Machine

/-- The flags of a completed trig command are DE beside the flags of one rounding (R286). -/
theorem completedFlags.roundedFlags {fs : FlagSet} (h : completedFlags fs) : roundedFlags fs := by
  obtain rfl | ⟨d, r, hd, hr, hfs⟩ := h
  · exact roundedFlags_none
  · exact ⟨d, r, hd, .inr hr, hfs⟩

/-- A trig command answers Invalid with IE and a quiet NaN for each register it writes, or does not raise IE. -/
theorem TrigOut.Shape.invalid_or_no_ie {o : TrigOut} (h : o.Shape) :
    (o.cc = .invalid ∧ o.fs = IE ∧ classify o.a = .qnan ∧ (o.b = none ∨ o.b = some o.a)) ∨
      (o.cc ≠ .invalid ∧ hasFlag o.fs .ie = false) := by
  have hpartial := h.partial_flags
  obtain hinv | ⟨hcc, -⟩ | ⟨hcc, hfs⟩ := h
  · exact .inl hinv
  · exact .inr ⟨by simp [hcc], hpartial hcc .ie (by decide)⟩
  · exact .inr ⟨by simp [hcc], hfs.roundedFlags.combinations.1⟩

/-- A remainder command answers Invalid with IE and a quiet NaN, or does not raise IE (R182, R189). -/
theorem remOut_invalid_or_no_ie {p : Params} (hl : p.legal = true) (round : ℚ → ℤ) (x y : Image) :
    ((remOut p round x y).cc = .invalid ∧ (remOut p round x y).fs = IE ∧ classify (remOut p round x y).a = .qnan) ∨
      ((remOut p round x y).cc ≠ .invalid ∧ hasFlag (remOut p round x y).fs .ie = false) := by
  obtain ⟨hcc, hfs, ha, -⟩ | ⟨hcc, hfs⟩ := remOut_cases hl round x y
  · exact .inl ⟨hcc, hfs, ha⟩
  · exact .inr ⟨hcc, (roundedFlags_of_denormal hfs).combinations.1⟩

/-- How a command from `s` can end in `t` (R325): as an invalid operation that raises IE and leaves a quiet NaN in `A`, and
in `B` where `toB` holds; or not Invalid, with IE as it was. -/
def InvalidWithNan (toB : Prop) (s t : State) : Prop :=
  (t.cc = .invalid ∧ hasFlag t.ctx.flags .ie = true ∧ classify t.a = .qnan ∧ (toB → classify t.b = .qnan)) ∨
    (t.cc ≠ .invalid ∧ hasFlag t.ctx.flags .ie = hasFlag s.ctx.flags .ie)

/-- IE is set once it is raised, whatever was set before (R34). -/
theorem hasFlag_or_IE (fs : FlagSet) : hasFlag (fs ||| IE) .ie = true := by
  rw [hasFlag_or, show hasFlag IE .ie = true by decide, Bool.or_true]

/-- The end of a remainder command, which has no image for `B`. -/
theorem State.commitRem_invalidWithNan {p : Params} (hl : p.legal = true) (s : State) (round : ℚ → ℤ) (x y : Image)
    {toB : Prop} (hB : ¬toB) : InvalidWithNan toB s (s.commitRem (remOut p round x y)) := by
  rw [InvalidWithNan, State.commitRem_ctx]
  obtain ⟨hcc, hfs, ha⟩ | ⟨hcc, hfs⟩ := remOut_invalid_or_no_ie hl round x y
  · exact .inl ⟨hcc, by rw [hfs, hasFlag_or_IE], ha, fun h => absurd h hB⟩
  · exact .inr ⟨hcc, hasFlag_or_of_not _ hfs⟩

/-- The end of a trig command that has an image for `B` unless it asks for a retry. -/
theorem State.commitTrig_invalidWithNan (s : State) {o : TrigOut} (ho : o.Shape) {toB : Prop}
    (hB : toB → o.cc ≠ .partialReductionNeeded → o.b ≠ none) : InvalidWithNan toB s (s.commitTrig o) := by
  rw [InvalidWithNan, State.commitTrig_cc, State.commitTrig_ctx, State.commitTrig_a, State.commitTrig_b]
  obtain ⟨hcc, hfs, ha, hb⟩ | ⟨hcc, hfs⟩ := ho.invalid_or_no_ie
  · refine .inl ⟨hcc, by rw [hfs, hasFlag_or_IE], ha, fun h => ?_⟩
    rw [hb.resolve_left (hB h (by simp [hcc])), Option.getD_some, ha]
  · exact .inr ⟨hcc, hasFlag_or_of_not _ hfs⟩

/-- Every command that writes `CC` ends in one of the two ways, FSINCOS with its NaN in `B` too (R325). -/
theorem effect_invalidWithNan {i : Instr} (hi : i.writesCC = true) {s : State} (hl : s.par.legal = true) :
    InvalidWithNan (i = .fsincos) s (effect i s) := by
  have trig (h : i ∈ [Instr.fsin, .fcos, .ftan, .fsincos]) : InvalidWithNan (i = .fsincos) s (effect i s) := by
    obtain ⟨o, ho, hshape, hB⟩ := effect_trig_shape h hl
    exact ho ▸ s.commitTrig_invalidWithNan hshape hB
  cases i
  case remIeee | remLegacy => exact s.commitRem_invalidWithNan hl _ _ _ nofun
  case fsin | fcos | ftan | fsincos => exact trig (by decide)
  case abs | negate | f2xm1 | fyl2x | fyl2xp1 | fpatan => cases hi

end Sys2Proof.Machine
end

section
/-! The statement of the completion code Invalid (spec/60_exceptions.md R325). -/

namespace Sys2Proof.Proofs

open Sys2Proof.Machine

/-- Settles O49: a command that writes `CC` ends as an invalid operation with IE and a quiet NaN, or adds no IE. -/
theorem invalidMeansQuietNan : Obligations.InvalidMeansQuietNan := by
  intro i s t hi hl ht
  obtain rfl := exec_next_iff.mp ht
  obtain ⟨hcc, hie, ha, hb⟩ | ⟨hcc, hie⟩ := effect_invalidWithNan hi hl
  · exact ⟨fun _ => ⟨hie, ha, hb⟩, fun _ _ => hcc⟩
  · refine ⟨fun h => absurd h hcc, fun hclear hset => ?_⟩
    rw [hie, hclear] at hset
    cases hset

end Sys2Proof.Proofs
end
